-- ==== Sys2Proof/Word.lean ====
section
/-! DEFINITION. The word types of the DMA controller block and the small closed types every other file uses:
channels, a bank of one value per channel, element widths, step directions. -/

namespace Sys2Proof

/-- A 32-bit value: a guest address, a backing address, the transfer register (`AW`, `TRW`: rules R9, R12). -/
abbrev Word := BitVec 32

/-- A 16-bit value: a count slot, a control slot, a 16-bit element (rules R9, R28). -/
abbrev Half := BitVec 16

/-- One byte of memory (rule R60: every address space is byte-addressed). -/
abbrev Byte := BitVec 8

/-- A channel number `c` in `0 .. NCH-1`, `NCH = 4` (rules R9, R20). -/
abbrev Channel := Fin 4

/-- One value for each of the four channels: the fixed-size array of rule R20. -/
structure Quad (α : Type) where
  c0 : α
  c1 : α
  c2 : α
  c3 : α
  deriving DecidableEq, Repr

/-- The value of channel `c`. -/
def Quad.get {α : Type} (q : Quad α) (c : Channel) : α :=
  match c with
  | 0 => q.c0
  | 1 => q.c1
  | 2 => q.c2
  | 3 => q.c3

/-- The bank with channel `c`'s value replaced. -/
def Quad.set {α : Type} (q : Quad α) (c : Channel) (x : α) : Quad α :=
  match c with
  | 0 => { q with c0 := x }
  | 1 => { q with c1 := x }
  | 2 => { q with c2 := x }
  | 3 => { q with c3 := x }

/-- The same value for all four channels. -/
def Quad.all {α : Type} (x : α) : Quad α := ⟨x, x, x, x⟩

/-- The two element widths, `WIDTHS = {16, 32}` bits (rules R9, R64). -/
inductive Width
  | w16
  | w32
  deriving DecidableEq, Repr

/-- `es(w)`, the element size in bytes: 2 for `w = 16`, 4 for `w = 32` (rules R13, R97). -/
def Width.bytes : Width → Nat
  | .w16 => 2
  | .w32 => 4

/-- A step: one of +1, -1, 0 (rule R12). -/
inductive StepDir
  | inc
  | dec
  | fix
  deriving DecidableEq, Repr

end Sys2Proof
end

