-- ==== Sys2Proof/Config.lean ====
section
/-! DEFINITION. The parameters of the block (rule R9). A parameter to which rule R9 gives a value or a default is a
constant here. A parameter it leaves OPEN ("the model takes the value as an argument") is a field of `Params`, which
State carries unchanged. The free values of the model, which nothing constrains, stand at the end without a body. -/

namespace Sys2Proof.Config

/-- Sources strictly below it are open-bus (rule R9, source §4.3). -/
def openbusLimit : Word := 0x02000000#32

/-- Least distance in bytes for the fast path (rule R9, source §4.2). -/
def overlapMin : Nat := 32

/-- Least display mode that is a bitmap mode (rule R9, source §4.1 "modes ≥3"). -/
def bitmapModeMin : BitVec 3 := 3#3

/-- `SENTINEL_CH`: the channel whose count 0 means `MAXCOUNT` (rule R9; conflict C1). -/
def sentinelCh : Channel := 3

/-- `NEST_CH`: the channel whose immediate transfer opens the nesting window (rule R9; conflict C2). -/
def nestCh : Channel := 3

/-- Selector of working RAM (rules R9, R61). -/
def selEwram : Byte := 0x02#8
/-- Selector of internal fast RAM (rules R9, R61; decision D25). -/
def selIwram : Byte := 0x03#8
/-- Selector of the I/O registers (rule R61; decision D25). -/
def selIo : Byte := 0x04#8
/-- Selector of palette RAM (rules R9, R61; decision D25). -/
def selPal : Byte := 0x05#8
/-- Selector of video RAM (rules R9, R61). -/
def selVram : Byte := 0x06#8
/-- Selector of object-attribute RAM (rules R9, R61; decision D25). -/
def selOam : Byte := 0x07#8
/-- First selector of cartridge ROM (rules R9, R61; decision D25). -/
def selRomLo : Byte := 0x08#8
/-- Last selector of cartridge ROM (rules R9, R61; decision D25). -/
def selRomHi : Byte := 0x0D#8
/-- Last selector of cartridge save memory (rule R61; decision D25). -/
def selSaveHi : Byte := 0x0F#8

/-- Mirror mask of working RAM (rule R122; decision D26). -/
def maskEwram : Word := 0xFF03FFFF#32
/-- Mirror mask of internal fast RAM (rule R123; decision D26). -/
def maskIwram : Word := 0xFF007FFF#32
/-- Mirror mask of palette RAM (rule R124; decision D26). -/
def maskPal : Word := 0xFF0003FF#32
/-- Mirror mask of object-attribute RAM (rule R124; decision D26). -/
def maskOam : Word := 0xFF0003FF#32
/-- Mirror mask of video RAM (rule R125; decision D26). -/
def maskVram : Word := 0xFF01FFFF#32

/-- `IOBASE_DMA`: guest address of channel 0's source-address slot (rules R9, R28; decision D3). -/
def iobaseDma : Nat := 0x040000B0
/-- `CH_STRIDE`: bytes between the slots of consecutive channels (rule R9; decision D3). -/
def chStride : Nat := 12
/-- Offset of the source-address slot (rule R9; decision D3). -/
def offSad : Nat := 0
/-- Offset of the destination-address slot (rule R9; decision D3). -/
def offDad : Nat := 4
/-- Offset of the count slot (rule R9; decision D3). -/
def offCnt : Nat := 8
/-- Offset of the control slot (rule R9; decision D3). -/
def offCtrl : Nat := 10

/-- `MAXCOUNT` (rules R9, R99; decision D6). -/
def maxCount : Nat := 0x10000

/-- `AUDIO_CH`: the channels designated for audio FIFO-feed (rule R9; decision D7). -/
def audioCh : List Channel := [1, 2]

/-- `AUDIO_WIDTH`: element width of an audio-triggered transfer (rules R9, R233; decision D16). -/
def audioWidth : Width := .w32

/-- `IRQ_BASE`: bit index of channel 0 in the pending mask (rules R9, R253; decision D20). -/
def irqBase : Nat := 8

/-- The parameters that rule R9 leaves OPEN. They are fixed for the life of the block; State carries them and no
operation writes them. -/
structure Params where
  /-- `VBANK_LO`, `VBANK_HI`: the bank-selection sub-range of masked video RAM (rule R125). -/
  vbankLo : Word
  vbankHi : Word
  /-- The offsets added in the sub-range in tile modes and in bitmap modes (rule R125). -/
  vbankOffTile : Word
  vbankOffBitmap : Word
  /-- The reserved rebasing window and its offset (rule R100). -/
  rebaseLo : Word
  rebaseHi : Word
  rebaseDelta : Word
  /-- Bit indices of "blanking" and "audio-trigger-needed" in the forced-interrupt-request mask (rule R255). -/
  forcedBlankBit : Nat
  forcedAudioBit : Nat
  /-- `BLOCK_SIZE` is `2 ^ blockBits` bytes; `BLOCK_MASK = BLOCK_SIZE - 1` (rules R9, R68). -/
  blockBits : Nat
  deriving DecidableEq, Repr

/-- `BLOCK_MASK` (rule R9: `BLOCK_SIZE - 1`). -/
def Params.blockMask (p : Params) : Word := BitVec.ofNat 32 (2 ^ p.blockBits - 1)

/-- Every address of the rebase window lands, moved by the offset, in cartridge ROM (rule R9: "every rebased address
has a selector in `SEL_ROM_LO..SEL_ROM_HI`"). The window is an interval and the ROM selectors are an interval, so it is
enough that the first and last address do and that the moved window does not wrap. -/
def Params.rebaseOk (p : Params) : Bool :=
  decide (openbusLimit ≤ p.rebaseLo) &&
    (decide (p.rebaseHi ≤ p.rebaseLo) ||
      (decide (0x08000000 ≤ (p.rebaseLo + p.rebaseDelta).toNat) &&
       decide ((p.rebaseLo + p.rebaseDelta).toNat + (p.rebaseHi.toNat - p.rebaseLo.toNat) ≤ 0x0E000000)))

/-- The constraints rule R9 puts on the open parameters, and no other: the forced-request bit indices are distinct, whatever
they are, and the block size is a power of two of at least 4, however large. -/
def Params.ok (p : Params) : Bool :=
  decide (p.vbankLo.toNat % 4 = 0) && decide (p.vbankHi.toNat % 4 = 0) &&
  decide (0x06000000#32 ≤ p.vbankLo) && decide (p.vbankLo ≤ 0x0601FFFF#32) &&
  decide (0x06000000#32 ≤ p.vbankHi) && decide (p.vbankHi ≤ 0x0601FFFF#32) &&
  decide (p.vbankOffTile.toNat % 4 = 0) && decide (p.vbankOffBitmap.toNat % 4 = 0) &&
  p.rebaseOk &&
  decide (p.forcedBlankBit ≠ p.forcedAudioBit) && decide (2 ≤ p.blockBits)

/-- The values the spec's test instantiation gives the open parameters (95_test_vectors.md section 0): "chosen for the
vectors only and no claim about the repository". DESIGN CHOICE (log entry 4): State.reset carries them. -/
def Params.testInstantiation : Params where
  vbankLo := 0x06010000#32
  vbankHi := 0x06014000#32
  vbankOffTile := 0x003F0000#32
  vbankOffBitmap := 0#32
  rebaseLo := 0x02200000#32
  rebaseHi := 0x02400000#32
  rebaseDelta := 0x05E00000#32
  forcedBlankBit := 0
  forcedAudioBit := 1
  blockBits := 9

/-- FREE VALUE (log entry 7): the byte of cartridge ROM at a guest address that the run's ROM image does not list. Rule
R68 makes the contents of ROM "a parameter of a run: a total function". -/
opaque romByte : Nat → Byte

/-- FREE VALUE (log entry 8): what the `k`-th device read of a run returns where the run supplies no answer. Rule R66: "the
value is whatever the external safe primitive of rule R71 returns; the model takes it from an oracle". -/
opaque deviceValue : Nat → Word

end Sys2Proof.Config
end

