-- ==== Sys2Proof/Machine/Operands.lean ====
section
/-! DEFINITION. Operand assembly (30_encoding.md sections 1 and 2): the fields of a control word, steps, width, cursor
arithmetic, count, rebase, source-window validation, alignment, and the transfer-register image of an element. -/

namespace Sys2Proof

/-! ### The control word (rule R91; the bit positions are decision D4's) -/

/-- `EN`, bit 15. -/
def ctlEn (v : Half) : Bool := v.getLsbD 15
/-- `IRQ`, bit 14. -/
def ctlIrq (v : Half) : Bool := v.getLsbD 14
/-- `TIMING`, bits 13:12 (rule R92: 0 immediate, 1 v-blank, 2 h-blank, 3 special). -/
def ctlTiming (v : Half) : BitVec 2 := v.extractLsb' 12 2
/-- `XREQ`, bit 11: "DMA via external request line". -/
def ctlXreq (v : Half) : Bool := v.getLsbD 11
/-- `WIDTH`, bit 10: 0 is 16-bit, 1 is 32-bit. -/
def ctlWidth (v : Half) : Bool := v.getLsbD 10
/-- `REP`, bit 9. -/
def ctlRep (v : Half) : Bool := v.getLsbD 9
/-- `SRCCTL`, bits 8:7 (rule R92). -/
def ctlSrc (v : Half) : BitVec 2 := v.extractLsb' 7 2
/-- `DSTCTL`, bits 6:5 (rule R92). -/
def ctlDst (v : Half) : BitVec 2 := v.extractLsb' 5 2

/-- The control word with its enable bit cleared, all else kept (rules R199, R234: `CTRL[c][15] <- 0`). -/
def clearEn (v : Half) : Half := v &&& 0x7FFF#16

/-- The control word with its enable bit set to `e`, all else kept. -/
def withEn (v : Half) (e : Bool) : Half := if e then v ||| 0x8000#16 else clearEn v

/-! ### Steps, width, cursor arithmetic -/

/-- `dstep(v)` (rule R96): increment+reload steps like increment. -/
def dstep (v : Half) : StepDir :=
  if ctlDst v = 1#2 then .dec else if ctlDst v = 2#2 then .fix else .inc

/-- `sstep(v)` (rule R96); no step for `SRCCTL = 3`, whose step rule R104 leaves open and directs the model to refuse. -/
def sstep (v : Half) : Option StepDir :=
  if ctlSrc v = 0#2 then some .inc
  else if ctlSrc v = 1#2 then some .dec
  else if ctlSrc v = 2#2 then some .fix
  else none

/-- `wbits(v)` (rule R97). -/
def wbits (v : Half) : Width := if ctlWidth v then .w32 else .w16

/-- `adv(a, n, e, s) = (a + n * e * s) mod 2^32` (rule R98), `e` being the element size of `w`. -/
def adv (a : Word) (n : Nat) (w : Width) (s : StepDir) : Word :=
  match s with
  | .inc => a + BitVec.ofNat 32 (n * w.bytes)
  | .dec => a - BitVec.ofNat 32 (n * w.bytes)
  | .fix => a

/-- `a & ~(es(w) - 1)`: the address aligned down to the transfer width (rules R63, R161). -/
def alignDown (a : Word) (w : Width) : Word :=
  match w with
  | .w16 => a &&& 0xFFFFFFFE#32
  | .w32 => a &&& 0xFFFFFFFC#32

/-- `effcount(c)` (rule R99): a count of 0 means `MAXCOUNT` on channel `SENTINEL_CH` only. -/
def effCount (c : Channel) (cnt : Half) : Nat :=
  if c = Config.sentinelCh ∧ cnt = 0#16 then Config.maxCount else cnt.toNat

/-- The address lies in the rebasing window `REBASE_LO <= a < REBASE_HI`. -/
def inRebaseWindow (p : Config.Params) (a : Word) : Bool :=
  decide (p.rebaseLo ≤ a) && decide (a < p.rebaseHi)

/-- `rebase(a)` (rule R100). -/
def rebase (p : Config.Params) (a : Word) : Word :=
  if inRebaseWindow p a then a + p.rebaseDelta else a

/-- `sel(a) = a[31:24]`, the region selector (rule R12). -/
def sel (a : Word) : Byte := a.extractLsb' 24 8

/-- `CartSpace(a)`: `sel(a) >= SEL_ROM_LO` (rule R103; decision D28). -/
def cartSpace (a : Word) : Bool := decide (Config.selRomLo ≤ sel a)

/-- `disallowed(a)` (rule R103): the rebasing window or cartridge space. -/
def disallowed (p : Config.Params) (a : Word) : Bool := inRebaseWindow p a || cartSpace a

/-! ### Elements -/

/-- The low `8e` bits of a value, zero-extended: an element of width `w` as a 32-bit value. -/
def elem (w : Width) (v : Word) : Word :=
  match w with
  | .w16 => v &&& 0x0000FFFF#32
  | .w32 => v

/-- `rep(v, w)`, the transfer-register image of the element `v`: `v` for `w = 32`, `{v[15:0], v[15:0]}` for `w = 16`
(rule R13). -/
def rep (v : Word) (w : Width) : Word :=
  match w with
  | .w16 => v.extractLsb' 0 16 ++ v.extractLsb' 0 16
  | .w32 => v

/-- `OpenBusPattern(TR, w)`, by decision D31 `TR[8e-1:0]` (rule R165). -/
def openBusPattern (tr : Word) (w : Width) : Word := elem w tr

/-- `abs_diff(a, b)` (rule R12), over the addresses as non-negative integers. -/
def absDiff (a b : Word) : Nat := if a.toNat ≤ b.toNat then b.toNat - a.toNat else a.toNat - b.toNat

/-- Byte `k` of a value, `k = 0` the least significant (rule R62: little-endian, decision D23). -/
def byteOf (v : Word) (k : Nat) : Byte := v.extractLsb' (8 * k) 8

/-- The value with byte `k` replaced. -/
def setByteOf {n : Nat} (v : BitVec n) (k : Nat) (b : Byte) : BitVec n :=
  (v &&& ~~~(0xFF#n <<< (8 * k))) ||| (b.zeroExtend n <<< (8 * k))

end Sys2Proof
end

