-- ==== Sys2Proof/Syntax.lean ====
section
/-! DEFINITION. The operations of the block: one constructor for each row of spec/opcode_table.json (rule R101). -/

namespace Sys2Proof

/-- The fifteen operations of rule R101. A control-register write carries its channel (where the row does not fix it)
and the new control word `v`; an event strobe carries no operand (rule R95). -/
inductive Instr
  /-- `CTRL.UPD0`: update with the enable bit 0 before and after (rule R196). -/
  | ctrlUpd0 (c : Channel) (v : Half)
  /-- `CTRL.UPD1`: update with the enable bit 1 before and after (rule R197). -/
  | ctrlUpd1 (c : Channel) (v : Half)
  /-- `CTRL.STOP`: the enable bit goes from 1 to 0 (rule R198). -/
  | ctrlStop (c : Channel) (v : Half)
  /-- `CTRL.START.XREQ`: a start with the external-request bit set (rule R204). -/
  | startXreq (c : Channel) (v : Half)
  /-- `CTRL.START.IMM`: an immediate start (rule R199). -/
  | startImm (c : Channel) (v : Half)
  /-- `CTRL.START.VBL`: a v-blank start (rule R200). -/
  | startVbl (c : Channel) (v : Half)
  /-- `CTRL.START.HBL`: an h-blank start (rule R201). -/
  | startHbl (c : Channel) (v : Half)
  /-- `CTRL.START.SPC0`: a special start on channel 0 (rule R203). -/
  | startSpc0 (v : Half)
  /-- `CTRL.START.AUD1`: an audio start on channel 1 (rule R202). -/
  | startAud1 (v : Half)
  /-- `CTRL.START.AUD2`: an audio start on channel 2 (rule R202). -/
  | startAud2 (v : Half)
  /-- `CTRL.START.SPC3`: a special start on channel 3 (rule R203). -/
  | startSpc3 (v : Half)
  /-- `INIT`: reset (rule R290). -/
  | init
  /-- `TRIG.VBLANK` (rule R237). -/
  | trigVblank
  /-- `TRIG.HBLANK` (rule R235). -/
  | trigHblank
  /-- `TRIG.AUDIO` (rule R236). -/
  | trigAudio
  deriving DecidableEq, Repr

end Sys2Proof
end

