-- ==== Sys2Proof/WellFormed.lean ====
section
/-! DEFINITION. When an instruction is one the encoding can carry: the control word of each operation has the enable,
external-request and timing fields that select that operation (rule R101). Every other field is free, reserved values
included: "every 16-bit value is a legal content of `CTRL[c]`" (rule R29). -/

namespace Sys2Proof

/-- The fields a start that reaches the timing dispatch has: `EN = 1`, `XREQ = 0`, `TIMING = t` (rules R101, R102). -/
def startsWithTiming (v : Half) (t : BitVec 2) : Bool := ctlEn v && !ctlXreq v && decide (ctlTiming v = t)

/-- The check of each constructor, from the column "selected by" of rule R101. -/
def Instr.wellFormed : Instr → Bool
  | .ctrlUpd0 _ v => !ctlEn v
  | .ctrlUpd1 _ v => ctlEn v
  | .ctrlStop _ v => !ctlEn v
  | .startXreq _ v => ctlEn v && ctlXreq v
  | .startImm _ v => startsWithTiming v 0#2
  | .startVbl _ v => startsWithTiming v 1#2
  | .startHbl _ v => startsWithTiming v 2#2
  | .startSpc0 v => startsWithTiming v 3#2
  | .startAud1 v => startsWithTiming v 3#2
  | .startAud2 v => startsWithTiming v 3#2
  | .startSpc3 v => startsWithTiming v 3#2
  | .init => true
  | .trigVblank => true
  | .trigHblank => true
  | .trigAudio => true

/-- A well-formed instruction, as a proposition that `decide` runs on. -/
abbrev Instr.WellFormed (i : Instr) : Prop := i.wellFormed = true

end Sys2Proof
end

