-- ==== Sys2Proof/Decode.lean ====
section
/-! DEFINITION. Decoding and encoding (30_encoding.md). The block decodes a control-register write, through the 19-bit
decode word `DW` of rule R94, and an event strobe, through the one-hot vector `EV[3:0]` of rule R95. -/

namespace Sys2Proof

/-- An operation as its encoding: a decode word (formats `CTRL` and `RA`) or an event vector (format `EVT`): rule R90. -/
inductive OpWord
  | dw (d : BitVec 19)
  | ev (e : BitVec 4)
  deriving DecidableEq, Repr

/-- Why a transaction is no operation of the block (rule R109). -/
inductive DecodeError
  /-- The register address of a `CMD` is not one of the four control slots. -/
  | notAControlSlot
  /-- The vector on port `EV` has no bit or more than one bit set. -/
  | badEventVector
  deriving DecidableEq, Repr

/-! ### Fields of the decode word (rule R94) -/

/-- `DW = {ch[1:0], E_old, newValue[15:0]}`. -/
def decodeWord (c : Channel) (eOld : Bool) (v : Half) : BitVec 19 :=
  BitVec.ofNat 2 c.val ++ BitVec.ofBool eOld ++ v

/-- `DW[18:17]`, the channel. -/
def dwChannel (d : BitVec 19) : Channel := ⟨(d.extractLsb' 17 2).toNat, (d.extractLsb' 17 2).isLt⟩
/-- `DW[16]`, the enable bit the control slot held before the write. -/
def dwOld (d : BitVec 19) : Bool := d.getLsbD 16
/-- `DW[15:0]`, the new control word. -/
def dwValue (d : BitVec 19) : Half := d.extractLsb' 0 16

/-! ### Decoding -/

/-- A special start, dispatched on the channel (rules R101, R102: "per-channel meaning"). -/
def decodeSpecial (c : Channel) (v : Half) : Instr :=
  match c with
  | 0 => .startSpc0 v
  | 1 => .startAud1 v
  | 2 => .startAud2 v
  | 3 => .startSpc3 v

/-- A start, in the order of rule R102: the external-request bit, then the start timing, then the channel. -/
def decodeStart (c : Channel) (v : Half) : Instr :=
  if ctlXreq v then .startXreq c v
  else if ctlTiming v = 0#2 then .startImm c v
  else if ctlTiming v = 1#2 then .startVbl c v
  else if ctlTiming v = 2#2 then .startHbl c v
  else decodeSpecial c v

/-- The decoder of a `CMD` (rule R102): compare the enable bits first. It is total: "the `CMD` decoder has no illegal
encoding". -/
def decodeDw (d : BitVec 19) : Instr :=
  match dwOld d, ctlEn (dwValue d) with
  | false, false => .ctrlUpd0 (dwChannel d) (dwValue d)
  | true, true => .ctrlUpd1 (dwChannel d) (dwValue d)
  | true, false => .ctrlStop (dwChannel d) (dwValue d)
  | false, true => decodeStart (dwChannel d) (dwValue d)

/-- The decoder of an event strobe (rules R95, R101); a vector that is not one-hot is rejected by name (rule R109). -/
def decodeEv (e : BitVec 4) : Except DecodeError Instr :=
  if e = 0b0001#4 then .ok .init
  else if e = 0b0010#4 then .ok .trigVblank
  else if e = 0b0100#4 then .ok .trigHblank
  else if e = 0b1000#4 then .ok .trigAudio
  else .error .badEventVector

/-- The decoder of either format. -/
def decodeOp : OpWord → Except DecodeError Instr
  | .dw d => .ok (decodeDw d)
  | .ev e => decodeEv e

/-- The guest address of channel `c`'s control slot (rules R28, R93). -/
def ctrlAddress (c : Channel) : Word :=
  BitVec.ofNat 32 (Config.iobaseDma + Config.chStride * c.val + Config.offCtrl)

/-- The channel a `registerAddress` selects: `(registerAddress - (IOBASE_DMA + OFF_CTRL)) / CH_STRIDE`, "defined when the
difference is a non-negative multiple of `CH_STRIDE` and `ch < NCH`" (rule R93); any other is rejected (rule R109). -/
def decodeRa (ra : Word) : Except DecodeError Channel :=
  let base := Config.iobaseDma + Config.offCtrl
  let d := ra.toNat - base
  if h : base ≤ ra.toNat ∧ d % Config.chStride = 0 ∧ d / Config.chStride < 4 then .ok ⟨d / Config.chStride, h.2.2⟩
  else .error .notAControlSlot

/-- A table word as an operation word: a row of format `EVT` has at most one byte, a row of format `CTRL` the 19 bits of
`DW`. -/
def opWordOf (nbits w : Nat) : Option OpWord :=
  if nbits ≤ 8 then
    if w < 16 then some (.ev (BitVec.ofNat 4 w)) else none
  else if w < 2 ^ 19 then some (.dw (BitVec.ofNat 19 w)) else none

/-- What the decoder reads from a word numbered as spec/opcode_table.json numbers it. -/
def decodeTableWord (nbits w : Nat) : Option Instr :=
  match opWordOf nbits w with
  | none => none
  | some o =>
    match decodeOp o with
    | .ok i => some i
    | .error _ => none

/-! ### Encoding -/

/-- The word of an instruction, written from the encodings of rules R196 to R204, R235 to R237 and R290: the channel, the
old enable bit the row fixes, the new control word. -/
def encode : Instr → OpWord
  | .ctrlUpd0 c v => .dw (decodeWord c false v)
  | .ctrlUpd1 c v => .dw (decodeWord c true v)
  | .ctrlStop c v => .dw (decodeWord c true v)
  | .startXreq c v => .dw (decodeWord c false v)
  | .startImm c v => .dw (decodeWord c false v)
  | .startVbl c v => .dw (decodeWord c false v)
  | .startHbl c v => .dw (decodeWord c false v)
  | .startSpc0 v => .dw (decodeWord 0 false v)
  | .startAud1 v => .dw (decodeWord 1 false v)
  | .startAud2 v => .dw (decodeWord 2 false v)
  | .startSpc3 v => .dw (decodeWord 3 false v)
  | .init => .ev 0b0001#4
  | .trigVblank => .ev 0b0010#4
  | .trigHblank => .ev 0b0100#4
  | .trigAudio => .ev 0b1000#4

/-- How many bits the table gives an operation word, in whole bytes: the 19 bits of `DW`, the 4 of `EV`. -/
def OpWord.nbits : OpWord → Nat
  | .dw _ => 24
  | .ev _ => 8

/-- The operation word as the number the table's bit numbering gives it. -/
def OpWord.number : OpWord → Nat
  | .dw d => d.toNat
  | .ev e => e.toNat

/-! ### The opcode table and the names of control-word values -/

/-- A row of spec/opcode_table.json over the decode word: its mnemonic and its `mask` and `match` values. -/
structure TableRow where
  mnemonic : String
  mask : BitVec 19
  value : BitVec 19
  deriving DecidableEq, Repr

/-- The eleven rows of format `CTRL`, as the table has them. -/
def opcodeTable : List TableRow :=
  [⟨"CTRL.UPD0", 0x18000#19, 0x00000#19⟩, ⟨"CTRL.UPD1", 0x18000#19, 0x18000#19⟩,
   ⟨"CTRL.STOP", 0x18000#19, 0x10000#19⟩, ⟨"CTRL.START.XREQ", 0x18800#19, 0x08800#19⟩,
   ⟨"CTRL.START.IMM", 0x1B800#19, 0x08000#19⟩, ⟨"CTRL.START.VBL", 0x1B800#19, 0x09000#19⟩,
   ⟨"CTRL.START.HBL", 0x1B800#19, 0x0A000#19⟩, ⟨"CTRL.START.SPC0", 0x7B800#19, 0x0B000#19⟩,
   ⟨"CTRL.START.AUD1", 0x7B800#19, 0x2B000#19⟩, ⟨"CTRL.START.AUD2", 0x7B800#19, 0x4B000#19⟩,
   ⟨"CTRL.START.SPC3", 0x7B800#19, 0x6B000#19⟩]

/-- The word lies in a row: the bits under the mask have the row's value. -/
def TableRow.covers (r : TableRow) (d : BitVec 19) : Bool := decide (d &&& r.mask = r.value)

/-- An instruction's mnemonic, as the table spells it. -/
def Instr.mnemonic : Instr → String
  | .ctrlUpd0 _ _ => "CTRL.UPD0"
  | .ctrlUpd1 _ _ => "CTRL.UPD1"
  | .ctrlStop _ _ => "CTRL.STOP"
  | .startXreq _ _ => "CTRL.START.XREQ"
  | .startImm _ _ => "CTRL.START.IMM"
  | .startVbl _ _ => "CTRL.START.VBL"
  | .startHbl _ _ => "CTRL.START.HBL"
  | .startSpc0 _ => "CTRL.START.SPC0"
  | .startAud1 _ => "CTRL.START.AUD1"
  | .startAud2 _ => "CTRL.START.AUD2"
  | .startSpc3 _ => "CTRL.START.SPC3"
  | .init => "INIT"
  | .trigVblank => "TRIG.VBLANK"
  | .trigHblank => "TRIG.HBLANK"
  | .trigAudio => "TRIG.AUDIO"

/-- The symbolic names of control-word values (rule R111), each with its value. -/
def controlNames : List (String × Half) :=
  [("EN", 0x8000#16), ("IRQ", 0x4000#16), ("T_IMM", 0x0000#16), ("T_VBL", 0x1000#16), ("T_HBL", 0x2000#16),
   ("T_SPC", 0x3000#16), ("XREQ", 0x0800#16), ("W16", 0x0000#16), ("W32", 0x0400#16), ("REP", 0x0200#16),
   ("S_INC", 0x0000#16), ("S_DEC", 0x0080#16), ("S_FIX", 0x0100#16), ("S_ILL", 0x0180#16), ("D_INC", 0x0000#16),
   ("D_DEC", 0x0020#16), ("D_FIX", 0x0040#16), ("D_RLD", 0x0060#16)]

/-- "A control word may be written as an OR of the names" (rule R110); a name that is none of rule R111's adds nothing. -/
def controlWord (names : List String) : Half :=
  names.foldl (fun acc n => acc ||| (controlNames.lookup n).getD 0#16) 0#16

end Sys2Proof
end

