-- ==== Sys2Proof/Machine/State.lean ====
section
/-! DEFINITION. The state of the block and of what it shares with its collaborators (10_state.md), the reasons a step can
stop, and the state after reset. State is plain data. INVENTORY.md lists every field with its rule and reset value. -/

namespace Sys2Proof.Machine

/-- `activeHandler`, "a tagged variant selecting what an external trigger does to this channel" (rule R24). -/
inductive Handler
  | inactive
  | immediateCompleted
  | blankingTrigger16
  | blankingTrigger32
  | audioTrigger
  deriving DecidableEq, Repr

/-- A channel record (rules R20 to R26): the two cursors, the handler tag, the two bits of `flagSet` of the channel. -/
structure Chan where
  /-- `CUR[c].src` (rule R21). -/
  src : Word
  /-- `CUR[c].dst` (rule R22). -/
  dst : Word
  /-- `H[c]` (rule R24). -/
  handler : Handler
  /-- `HB[c]`: registered for blanking-triggered transfers (rule R26). -/
  hb : Bool
  /-- `AU[c]`: registered for audio-triggered transfers (rule R26). -/
  au : Bool
  deriving DecidableEq, Repr

/-- The register view of one channel (rule R28). -/
structure Slots where
  /-- `SAD[c]`, source address. -/
  sad : Word
  /-- `DAD[c]`, destination address. -/
  dad : Word
  /-- `CNT[c]`, count. -/
  cnt : Half
  /-- `CTRL[c]`, control. -/
  ctrl : Half
  deriving DecidableEq, Repr

/-- What the engine holds of one transfer while it moves elements (rule R31 (c): "the start addresses held by the engine"):
the aligned start addresses, the steps and the width; and, on an open-bus pass only, the pattern it writes (rule R165: taken
from `TR` once, before the first element). -/
structure Job where
  src : Word
  dst : Word
  srcStep : StepDir
  dstStep : StepDir
  width : Width
  pattern : Option Word
  deriving DecidableEq, Repr

/-- The nesting window of a channel-3 immediate transfer in service (rules R31 (c), R265, R266): its transfer, how many
elements it moves, the index of the next one, the control word that started it, the saved nesting policy, and the
transfer-register image of the last element it moved. -/
structure Window where
  job : Job
  count : Nat
  index : Nat
  control : Half
  savedNest : Bool
  lastImage : Word
  deriving DecidableEq, Repr

/-- What the block puts out on its ports beside the levels and masks of State (rule R10). -/
inductive Event
  /-- A device read through port `MEM` and the value it returned (rule R66). -/
  | devRead (a : Word) (w : Width) (v : Word)
  /-- A device write through port `MEM` (rule R67). -/
  | devWrite (a : Word) (w : Width) (v : Word)
  /-- `invalidateInstructionCache` of the guest range from the first byte to the last (rule R79). -/
  | icInvalidate (firstByte lastByte : Word)
  /-- `invalidateRange(range of drainRequest)`, the acquire (rule R77). -/
  | acquireDrain
  /-- `drainWriteBuffer()`, the release (rule R77). -/
  | releaseDrain
  /-- The shared levels driven: the blanking level, on `IRQ_FORCED` and `DISP_HBIRQ`, and the audio level (rule R256). -/
  | sharedEnables (blanking audio : Bool)
  /-- A completion interrupt raised on port `IRQ_PEND` (rule R253). -/
  | irqRaised (c : Channel)
  /-- Nested interrupt delivery set on port `IRQ_NEST` (rule R265). -/
  | nestDelivery (on : Bool)
  deriving DecidableEq, Repr

/-- A line of a run (rules R19, R110): an operation offered to the block, or a step of the host, of a collaborator or of
the audio producer. -/
inductive HostLine
  /-- A `CMD` transaction: an intercepted 16-bit store (rules R10, R90). -/
  | cmd (registerAddress : Word) (newValue : Half)
  /-- A strobe vector on port `EV` (rule R95). -/
  | ev (vector : BitVec 4)
  /-- `SADW c, a`: the host stores `a` to `SAD[c]`. -/
  | sadw (c : Channel) (a : Word)
  /-- `DADW c, a`. -/
  | dadw (c : Channel) (a : Word)
  /-- `CNTW c, n`. -/
  | cntw (c : Channel) (n : Half)
  /-- A byte store of the host's CPU to guest memory. -/
  | memw8 (a : Word) (v : Byte)
  /-- `MEMW16 a, v`. -/
  | memw16 (a : Word) (v : Half)
  /-- `MEMW32 a, v`. -/
  | memw32 (a : Word) (v : Word)
  /-- `DISPMODE m`: the display subsystem sets the display mode. -/
  | dispMode (m : BitVec 3)
  /-- `DRAINSET`: the audio producer sets `drainRequest`. -/
  | drainSet
  /-- The interrupt controller clears the pending bits of the mask (rule R253: "clearing belongs to the interrupt controller"). -/
  | irqAck (mask : Half)
  /-- The host sets its own policy on nested interrupt delivery. -/
  | nestPolicy (on : Bool)
  /-- The host reads a slot, guest memory, a level or `TR_OUT`: nothing changes (rule R10: "readable at any time"). -/
  | look
  deriving DecidableEq, Repr

/-- A line of the run as the host offers it. `inWindow = some k`: the host takes it inside the nesting window that is open
then, before element `k` of the transfer in flight (after the last element, when `k` is the count). `none`: it waits until no
operation is in service (rules R11, R266, R268). Where no window is open the two mean the same. -/
structure Offer where
  inWindow : Option Nat
  line : HostLine
  deriving DecidableEq, Repr

/-- Memory as the list of its bytes that differ from what an unlisted address reads as, addresses strictly rising. -/
abbrev Memory := List Host.Cell

/-- The machine. -/
structure State where
  /-- The open parameters of rule R9, which the model takes as an argument; no operation writes them. -/
  params : Config.Params
  /-- The block has been initialised: rule R294, "before the first `INIT`" no other operation has a meaning. -/
  initialised : Bool
  /-- `CH[0..3]`: cursors, handler tags, flag bits (rule R20). -/
  chans : Quad Chan
  /-- The register view of the four channels (rule R28). -/
  view : Quad Slots
  /-- `TR`, the transfer register (rule R27). -/
  tr : Word
  /-- The backing address space (rule R60 (b)). -/
  mem : Memory
  /-- The run's image of cartridge ROM, by guest address (rule R68); an address it does not list reads `Config.romByte`. -/
  rom : List Host.Cell
  /-- The first byte of the cache block that `getBlock` returned last (rules R31 (d), R69). -/
  block : Option Word
  /-- `dispMode`, the three bits the translator reads (rules R30 (f), R126). -/
  dispMode : BitVec 3
  /-- `irqPending` (rule R30 (b)); its width is log entry 5. -/
  irqPending : BitVec 16
  /-- `forcedIrqMask` (rule R30 (c)): the number whose bit `i` is bit `i` of the mask. The spec gives the mask no width and
  leaves the two bit indices open (rule R9), so any index is a bit of it (log entry 5). -/
  forcedIrqMask : Nat
  /-- `blankingIrqEnabled` (rule R30 (d)). -/
  blankingIrqEnabled : Bool
  /-- `nestedIrqEnabled` (rule R30 (e)). -/
  nestedIrqEnabled : Bool
  /-- `drainRequest` (rule R30 (a)): the location shared with the audio producer. -/
  drainRequest : Bool
  /-- The block's own view of `drainRequest` (rules R31 (b), R261): as read at its last acquire, or its own later clear. -/
  drainView : Bool
  /-- The nesting window, open only while a channel-3 immediate transfer is in service (rules R31 (c), R265). -/
  window : Option Window
  /-- The answers the run supplies to device reads, next one first: the oracle of rule R66. -/
  devAnswers : List Word
  /-- How many device reads were made: the index of the free value a read takes when no answer is supplied. -/
  devReads : Nat
  /-- The events put out so far, the latest first. -/
  trace : List Event
  /-- The lines of the run still to be offered, next one first (rule R18: "a finite sequence of operations offered by the
  host, interleaved with producer steps"). -/
  script : List Offer
  deriving DecidableEq, Repr

/-- The block raises no fault: "There are no recoverable exceptions; all error conditions are hardware-level edge cases
resolved by policy, not by failure signaling" (rules R17, R250). The type is closed and has no constructor; the answer
`fault` of a step is therefore never given (safe). -/
inductive Fault : Type
  deriving DecidableEq, Repr

/-- Why the model stops (rule R251: "A refusal is not an exception ... the model stops there with the reason and proves
nothing beyond it"). Each is safe: nothing is claimed of a run past it. -/
inductive Refusal
  /-- Raised by `exec` for an instruction that has no meaning yet. No arm raises it now. Safe. -/
  | notModelled (mnemonic : String)
  /-- `SrcCtlIllegal`: raised by an immediate start and by a triggered transfer whose control word has `SRCCTL = 3` when the
  step is computed (rules R104, R199, R232; U1). Safe. -/
  | srcCtlIllegal
  /-- `NotAControlSlot`: raised for a `CMD` whose address is not one of the four control slots (rule R109; U16). Safe. -/
  | notAControlSlot
  /-- Raised for a vector on port `EV` that is not one-hot (rule R109; U16). Safe. -/
  | badEventVector
  /-- `NestedChannel3`: raised for a `CMD` for channel 3 inside the nesting window (rule R266; U11). Safe. -/
  | nestedChannel3
  /-- `InitInWindow`: raised for an `INIT` strobe inside the nesting window (rule R266; U11). Safe. -/
  | initInWindow
  /-- `WindowStep`: raised inside the nesting window for a change of the display mode, a host write into the source or
  destination range of the transfer in flight, and a host step that rule R266 does not list (U11). Safe. -/
  | windowStep
  /-- Raised when a transfer writes a control half-word of the register view (rule R301; U18). Safe. -/
  | controlSlotWrite
  /-- Raised for a byte store to a control half-word that changes bit 15 (rule R300; U19). Safe. -/
  | controlByteStore
  /-- Raised for an operation other than `INIT` offered before the first `INIT` (rule R294; U20). Safe. -/
  | notInitialised
  deriving DecidableEq, Repr

/-- The answer of a step or of a meaning. -/
abbrev Answer := Host.Outcome State Fault Refusal

/-- What an unlisted byte of backing memory reads as. DESIGN CHOICE (log entry 2): the spec gives no contents; its test
environment takes "all zero" (95_test_vectors.md section 0). -/
def unlistedByte : Byte := 0#8

/-- A channel record after `INIT` (rule R38). -/
def Chan.reset : Chan := { src := 0#32, dst := 0#32, handler := .inactive, hb := false, au := false }

/-- A register view with every slot 0. DESIGN CHOICE (log entry 3): the spec asks only for bit 15 of the control slot to be
0 (rules R38, R296). -/
def Slots.reset : Slots := { sad := 0#32, dad := 0#32, cnt := 0#16, ctrl := 0#16 }

/-- The machine right after the reset operation `INIT` (rules R38, R290): no channel armed, all cursors zero, the three
levels low. What `INIT` does not write has the value log entry 3 names; the parameters are those of log entry 4. -/
def State.reset : State where
  params := Config.Params.testInstantiation
  initialised := true
  chans := Quad.all Chan.reset
  view := Quad.all Slots.reset
  tr := 0#32
  mem := []
  rom := []
  block := none
  dispMode := 0#3
  irqPending := 0#16
  forcedIrqMask := 0
  blankingIrqEnabled := false
  nestedIrqEnabled := false
  drainRequest := false
  drainView := false
  window := none
  devAnswers := []
  devReads := 0
  trace := [.sharedEnables false false]
  script := []

/-- A machine on which `INIT` has not been strobed yet (rule R294): its own state is unspecified, and the model gives it the
values of State.reset (log entry 3). -/
def State.beforeInit : State := { State.reset with initialised := false, trace := [] }

end Sys2Proof.Machine
end

