-- ==== Sys2Proof/Machine/Memory.lean ====
section
/-! DEFINITION. The backing memory as a canonical list of bytes: reading and writing one byte, and the canonical form. -/

namespace Sys2Proof.Machine

/-- The byte at backing address `a`. -/
def Memory.read : Memory → Nat → Byte
  | [], _ => unlistedByte
  | (k, b) :: rest, a => if k = a then b else Memory.read rest a

/-- The memory with the byte at backing address `a` replaced: the list stays in address order, and a byte equal to what an
unlisted address reads as is not listed. -/
def Memory.write : Memory → Nat → Byte → Memory
  | [], a, v => if v = unlistedByte then [] else [(a, v)]
  | (k, b) :: rest, a, v =>
    if k < a then (k, b) :: Memory.write rest a v
    else if k = a then (if v = unlistedByte then rest else (a, v) :: rest)
    else if v = unlistedByte then (k, b) :: rest
    else (a, v) :: (k, b) :: rest

/-- The canonical form: addresses strictly rising and inside the 32-bit backing space (rule R60 (b)), no listed byte equal to
what an unlisted address reads as. -/
abbrev Memory.wf (m : Memory) : Prop :=
  m.Pairwise (fun x y => x.1 < y.1) ∧ ∀ c ∈ m, c.1 < 2 ^ 32 ∧ c.2 ≠ unlistedByte

/-- The byte of cartridge ROM at guest address `a` (rule R68): the run's image where it lists the address, the free value
elsewhere. -/
def romRead : List Host.Cell → Nat → Byte
  | [], a => Config.romByte a
  | (k, b) :: rest, a => if k = a then b else romRead rest a

end Sys2Proof.Machine
end

