-- ==== Sys2Proof/Machine/Translator.lean ====
section
/-! DEFINITION. The Region Translator (41_region_translator.md) and the guest address map (rule R61). -/

namespace Sys2Proof.Machine

/-- The regions of the guest address map (rule R61). -/
inductive Region
  | openBus
  | ewram
  | iwram
  | io
  | palette
  | vram
  | oam
  | rom
  | save
  | unmapped
  deriving DecidableEq, Repr

/-- The region of an address, by its selector (rule R61). -/
def region (a : Word) : Region :=
  if sel a < Config.selEwram then .openBus
  else if sel a = Config.selEwram then .ewram
  else if sel a = Config.selIwram then .iwram
  else if sel a = Config.selIo then .io
  else if sel a = Config.selPal then .palette
  else if sel a = Config.selVram then .vram
  else if sel a = Config.selOam then .oam
  else if sel a ≤ Config.selRomHi then .rom
  else if sel a ≤ Config.selSaveHi then .save
  else .unmapped

/-- The plain regions: the allow-list of rule R143. -/
def Region.plain : Region → Bool
  | .ewram => true
  | .iwram => true
  | .palette => true
  | .vram => true
  | .oam => true
  | .openBus => false
  | .io => false
  | .rom => false
  | .save => false
  | .unmapped => false

/-- The device regions (rule R61): I/O registers and cartridge save memory. -/
def Region.device : Region → Bool
  | .io => true
  | .save => true
  | .openBus => false
  | .ewram => false
  | .iwram => false
  | .palette => false
  | .vram => false
  | .oam => false
  | .rom => false
  | .unmapped => false

/-- Masked video RAM, moved by the offset of the display mode where it falls in the bank-selection sub-range (rule R125). -/
def xlateVram (p : Config.Params) (m : BitVec 3) (a : Word) : Word :=
  let v := a &&& Config.maskVram
  if p.vbankLo ≤ v ∧ v < p.vbankHi then
    (if Config.bitmapModeMin ≤ m then v + p.vbankOffBitmap else v + p.vbankOffTile)
  else v

/-- `XLATE(a, m)` (rule R121): the backing address of a guest address, total and without side effect (rule R128). -/
def xlate (p : Config.Params) (m : BitVec 3) (a : Word) : Word :=
  match region a with
  | .ewram => a &&& Config.maskEwram
  | .iwram => a &&& Config.maskIwram
  | .palette => a &&& Config.maskPal
  | .oam => a &&& Config.maskOam
  | .vram => xlateVram p m a
  | .openBus => a
  | .io => a
  | .rom => a
  | .save => a
  | .unmapped => a

/-- `XLATE(a)` with the mode port `DISP_MODE` gives at the moment of the call (rules R120, R126). -/
def State.xlate (s : State) (a : Word) : Word := Machine.xlate s.params s.dispMode a

end Sys2Proof.Machine
end

