-- ==== Sys2Proof/Machine/Ops.lean ====
section
/-! DEFINITION. The named operations over memory and registers: sequencing, the channel records, the register view, the
element access primitives `MemRead` and `MemWrite` (20_memory.md section 3), the acceptance of an operation (rule R267; the
block takes no exception, rule R250), and the opening and closing of the nesting window (rule R265). -/

namespace Sys2Proof.Machine

/-- Go on with the next state; a refusal ends the operation. -/
def andThen (o : Answer) (f : State → Answer) : Answer :=
  match o with
  | .next s => f s
  | .fault r => .fault r
  | .refused r => .refused r

/-! ### Channel records and register view -/

/-- Channel `c`'s record. -/
def State.chan (s : State) (c : Channel) : Chan := s.chans.get c

/-- Channel `c`'s record replaced. -/
def State.setChan (s : State) (c : Channel) (x : Chan) : State := { s with chans := s.chans.set c x }

/-- Channel `c`'s slots. -/
def State.slots (s : State) (c : Channel) : Slots := s.view.get c

/-- Channel `c`'s slots replaced. -/
def State.setSlots (s : State) (c : Channel) (x : Slots) : State := { s with view := s.view.set c x }

/-- `CTRL[c] <- v`. -/
def State.setCtrl (s : State) (c : Channel) (v : Half) : State := s.setSlots c { s.slots c with ctrl := v }

/-- `CUR[c].src <- a ; CUR[c].dst <- b`. -/
def State.setCursors (s : State) (c : Channel) (a b : Word) : State := s.setChan c { s.chan c with src := a, dst := b }

/-- `H[c] <- h`. -/
def State.setHandler (s : State) (c : Channel) (h : Handler) : State := s.setChan c { s.chan c with handler := h }

/-- `HB[c] <- hb ; AU[c] <- au`. -/
def State.setFlags (s : State) (c : Channel) (hb au : Bool) : State := s.setChan c { s.chan c with hb := hb, au := au }

/-- An event is put out. -/
def State.emit (s : State) (e : Event) : State := { s with trace := e :: s.trace }

/-- `E_old`, bit 15 of `CTRL[c]` (rule R94). -/
def State.eOld (s : State) (c : Channel) : Bool := ctlEn (s.slots c).ctrl

/-- `flagSet` as an 8-bit value: `flagSet[c] = HB[c]`, `flagSet[4+c] = AU[c]` (rule R26; decision D18). -/
def State.flagSet (s : State) : BitVec 8 :=
  BitVec.ofBool (s.chan 3).au ++ BitVec.ofBool (s.chan 2).au ++ BitVec.ofBool (s.chan 1).au ++
    BitVec.ofBool (s.chan 0).au ++ BitVec.ofBool (s.chan 3).hb ++ BitVec.ofBool (s.chan 2).hb ++
    BitVec.ofBool (s.chan 1).hb ++ BitVec.ofBool (s.chan 0).hb

/-! ### Backing memory -/

/-- The byte at a backing address. -/
def State.byteAt (s : State) (b : Word) : Byte := s.mem.read b.toNat

/-- `BackRead(b, n)`: "the little-endian value of backing bytes `b .. b+n-1`" (rules R62, R66). -/
def State.backRead (s : State) (b : Word) (w : Width) : Word :=
  match w with
  | .w16 => (s.byteAt (b + 1#32) ++ s.byteAt b).zeroExtend 32
  | .w32 => s.byteAt (b + 3#32) ++ s.byteAt (b + 2#32) ++ s.byteAt (b + 1#32) ++ s.byteAt b

/-- One backing byte stored. -/
def State.storeByte (s : State) (b : Word) (v : Byte) : State := { s with mem := s.mem.write b.toNat v }

/-- `BackWrite(b, n, v)`: `v[7:0]` at backing byte `b`, `v[15:8]` at `b+1`, and so on (rule R67). -/
def State.backWrite (s : State) (b : Word) (w : Width) (v : Word) : State :=
  match w with
  | .w16 => (s.storeByte b (byteOf v 0)).storeByte (b + 1#32) (byteOf v 1)
  | .w32 =>
    (((s.storeByte b (byteOf v 0)).storeByte (b + 1#32) (byteOf v 1)).storeByte (b + 2#32) (byteOf v 2)).storeByte (b + 3#32)
      (byteOf v 3)

/-! ### The register view as bytes of the I/O region (rules R28, R301) -/

/-- The channel and the offset, `0 .. 11`, of the slot byte at a guest address, if it is one of the register view. -/
def slotOf (a : Word) : Option (Channel × Nat) :=
  let d := a.toNat - Config.iobaseDma
  if h : Config.iobaseDma ≤ a.toNat ∧ d / Config.chStride < 4 then
    some (⟨d / Config.chStride, h.2⟩, d % Config.chStride)
  else none

/-- A byte stored into an address slot or the count slot, by its offset; a control byte is not stored this way. -/
def Slots.setByte (x : Slots) (o : Nat) (b : Byte) : Slots :=
  if o < Config.offDad then { x with sad := setByteOf x.sad (o - Config.offSad) b }
  else if o < Config.offCnt then { x with dad := setByteOf x.dad (o - Config.offDad) b }
  else if o < Config.offCtrl then { x with cnt := setByteOf x.cnt (o - Config.offCnt) b }
  else x

/-- The register file stores a byte where it lands on an address slot or a count slot (rule R301). -/
def State.slotByte (s : State) (a : Word) (b : Byte) : State :=
  match slotOf a with
  | some (c, o) => s.setSlots c ((s.slots c).setByte o b)
  | none => s

/-- An element stored into whatever slots its bytes land on. -/
def State.slotWrite (s : State) (a : Word) (w : Width) (v : Word) : State :=
  match w with
  | .w16 => (s.slotByte a (byteOf v 0)).slotByte (a + 1#32) (byteOf v 1)
  | .w32 =>
    (((s.slotByte a (byteOf v 0)).slotByte (a + 1#32) (byteOf v 1)).slotByte (a + 2#32) (byteOf v 2)).slotByte (a + 3#32)
      (byteOf v 3)

/-- The byte at a guest address belongs to a control half-word of the register view. -/
def isCtrlByte (a : Word) : Bool :=
  match slotOf a with
  | some (_, o) => decide (Config.offCtrl ≤ o)
  | none => false

/-- The byte at a guest address belongs to the register view. -/
def isSlotByte (a : Word) : Bool := (slotOf a).isSome

/-- An element at a guest address covers a byte for which `p` holds. -/
def coversByte (p : Word → Bool) (a : Word) (w : Width) : Bool :=
  match w with
  | .w16 => p a || p (a + 1#32)
  | .w32 => p a || p (a + 1#32) || p (a + 2#32) || p (a + 3#32)

/-! ### The element access primitives -/

/-- `getBlock(a)`: the block that holds bytes `a & ~BLOCK_MASK` through `(a & ~BLOCK_MASK) + BLOCK_SIZE - 1` (rule R68). -/
def State.getBlock (s : State) (a : Word) : State := { s with block := some (a &&& ~~~s.params.blockMask) }

/-- Byte `k` of the block last fetched (rule R69: the pointer is valid until the next `getBlock`). -/
def State.blockByte (s : State) (k : Word) : Byte :=
  romRead s.rom ((s.block.getD 0#32) + k).toNat

/-- `RomRead(a, n)`: bytes `a & BLOCK_MASK` through `(a & BLOCK_MASK) + n - 1` of `getBlock(a)` (rule R68). -/
def State.romElem (s : State) (a : Word) (w : Width) : Word × State :=
  let t := s.getBlock a
  let k := a &&& s.params.blockMask
  match w with
  | .w16 => ((t.blockByte (k + 1#32) ++ t.blockByte k).zeroExtend 32, t)
  | .w32 => (t.blockByte (k + 3#32) ++ t.blockByte (k + 2#32) ++ t.blockByte (k + 1#32) ++ t.blockByte k, t)

/-- A device read: the run's next answer, or the free value where the run supplies none; recorded as an event because it
may have side effects (rule R66). -/
def State.devRead (s : State) (a : Word) (w : Width) : Word × State :=
  let v := elem w (s.devAnswers.headD (Config.deviceValue s.devReads))
  (v, { s with devAnswers := s.devAnswers.tail, devReads := s.devReads + 1, trace := .devRead a w v :: s.trace })

/-- `MemRead(a, n)` by the class of `sel(a)` (rule R66); an unreadable element is the open-bus value `TR[8n-1:0]`. -/
def State.memRead (s : State) (a : Word) (w : Width) : Word × State :=
  let r := region a
  if r.plain then (s.backRead (s.xlate a) w, s)
  else if r = .rom then s.romElem a w
  else if r.device then s.devRead a w
  else (elem w s.tr, s)

/-- `MemWrite(a, n, v)` by the class of `sel(a)` (rule R67). A write to ROM, to the open-bus range or to unmapped space is
dropped. A device write is recorded; where it lands on an address slot or a count slot "the register file stores it like any
device write", and a run in which a transfer writes a control half-word has no meaning (rule R301). -/
def State.memWrite (s : State) (a : Word) (w : Width) (v : Word) : Answer :=
  let r := region a
  if r.plain then .next (s.backWrite (s.xlate a) w v)
  else if r.device then
    (if coversByte isCtrlByte a w then .refused .controlSlotWrite
     else .next ((s.slotWrite a w v).emit (.devWrite a w v)))
  else .next s

/-! ### Acceptance of an operation -/

/-- The acceptance of a `CMD` for channel `c` (rules R266, R267, R294): nothing is saved and no mode changes. Before the first
`INIT` it is refused; so is a `CMD` for channel `NEST_CH` inside the nesting window. -/
def acceptCmd (c : Channel) (s : State) (f : State → Answer) : Answer :=
  if s.initialised = false then .refused .notInitialised
  else if s.window.isSome ∧ c = Config.nestCh then .refused .nestedChannel3
  else f s

/-- The acceptance of a strobe other than `INIT` (rule R294). -/
def acceptStrobe (s : State) (f : State → Answer) : Answer :=
  if s.initialised = false then .refused .notInitialised else f s

/-! ### The nesting window (rule R265) -/

/-- The window around a transfer of `n` elements started by the control word `v`, with the nesting policy saved. -/
def State.newWindow (s : State) (j : Job) (n : Nat) (v : Half) : Window :=
  { job := j, count := n, index := 0, control := v, savedNest := s.nestedIrqEnabled, lastImage := s.tr }

/-- `openNestingWindow()`: nested delivery is enabled while the window is open. -/
def State.openWindow (s : State) (t : Window) : State :=
  { s with nestedIrqEnabled := true, window := some t, trace := .nestDelivery true :: s.trace }

/-- `closeNestingWindow()`: "the prior nesting policy" is restored exactly. -/
def State.closeWindow (s : State) (t : Window) : State :=
  { s with nestedIrqEnabled := t.savedNest, window := none, trace := .nestDelivery t.savedNest :: s.trace }

/-- Where the next offered line wants to be taken inside the nesting window. -/
def State.nextInWindow (s : State) : Option Nat :=
  match s.script with
  | [] => none
  | o :: _ => o.inWindow

end Sys2Proof.Machine
end

