-- ==== Sys2Proof/Machine/Flags.lean ====
section
/-! DEFINITION. The block's flags and what follows from them: the shared enables, the completion interrupts, the drain-request
flag, `stop` and `deactivate`. (The block has no condition codes: rule R37.) -/

namespace Sys2Proof.Machine

/-- Bit `i` of a mask set to `b`, every other bit kept. -/
def setMaskBit (m i : Nat) (b : Bool) : Nat := if m.testBit i = b then m else m ^^^ 2 ^ i

/-- The OR of the blanking flags over the channels. -/
def State.anyHb (s : State) : Bool := (s.chan 0).hb || (s.chan 1).hb || (s.chan 2).hb || (s.chan 3).hb

/-- The OR of the audio flags over the channels. -/
def State.anyAu (s : State) : Bool := (s.chan 0).au || (s.chan 1).au || (s.chan 2).au || (s.chan 3).au

/-- `updateSharedEnables()` (rule R256): the three levels are driven with the OR of the flags. -/
def State.updateSharedEnables (s : State) : State :=
  { s with
    forcedIrqMask :=
      setMaskBit (setMaskBit s.forcedIrqMask s.params.forcedBlankBit s.anyHb) s.params.forcedAudioBit s.anyAu
    blankingIrqEnabled := s.anyHb
    trace := .sharedEnables s.anyHb s.anyAu :: s.trace }

/-- `raiseIrq(c)` (rule R253): sets bit `IRQ_BASE + c` of the pending mask and touches no other. -/
def State.raiseIrq (s : State) (c : Channel) : State :=
  { s with irqPending := s.irqPending ||| (1#16 <<< (Config.irqBase + c.val)), trace := .irqRaised c :: s.trace }

/-- `stop(c)` (rule R193). -/
def State.stop (s : State) (c : Channel) : State :=
  ((s.setFlags c false false).setHandler c .inactive).updateSharedEnables

/-- `deactivate(c)` (rule R234): the enable bit is reverted, then the channel stops. -/
def State.deactivate (s : State) (c : Channel) : State :=
  (s.setCtrl c (clearEn (s.slots c).ctrl)).stop c

/-- `invalidateRange(drainRequest)`, the acquire (rules R77, R261): the block's view of the flag becomes the flag. -/
def State.acquireDrain (s : State) : State := ({ s with drainView := s.drainRequest }).emit .acquireDrain

/-- `drainRequest <- 0 ; drainWriteBuffer()` (rule R263): the clear, then the release that makes it visible. -/
def State.clearDrain (s : State) : State :=
  ({ s with drainView := false, drainRequest := false }).emit .releaseDrain

end Sys2Proof.Machine
end

