-- ==== Sys2Proof/Machine/CtrlUpdates.lean ====
section
/-! DEFINITION. The control-register writes that start nothing (44_channel_fsm.md sections 2, 3 and the ignored starts of
section 4). Every `CMD` first stores the new control word, all 16 bits (rule R191). -/

namespace Sys2Proof.Machine

/-- A `CMD` whose only effect is the control slot (rule R191). -/
def storeControl (c : Channel) (v : Half) (s : State) : Answer := acceptCmd c s fun s => .next (s.setCtrl c v)

/-- `CTRL.UPD0` (rule R196): "apply the new control bits in place". -/
def execCtrlUpd0 (c : Channel) (v : Half) (s : State) : Answer := storeControl c v s

/-- `CTRL.UPD1` (rule R197): the new control bits in place, "current cursors untouched", nothing re-armed. -/
def execCtrlUpd1 (c : Channel) (v : Half) (s : State) : Answer := storeControl c v s

/-- `CTRL.STOP` (rule R198). -/
def execCtrlStop (c : Channel) (v : Half) (s : State) : Answer :=
  acceptCmd c s fun s => .next ((s.setCtrl c v).stop c)

/-- `CTRL.START.XREQ` (rule R204): "always ignored"; the slot keeps the written word. -/
def execStartXreq (c : Channel) (v : Half) (s : State) : Answer := storeControl c v s

/-- `CTRL.START.VBL` (rule R200): "recorded as armed" in the control slot alone; "no immediate action". -/
def execStartVbl (c : Channel) (v : Half) (s : State) : Answer := storeControl c v s

/-- `CTRL.START.SPC0` (rule R203): special timing on channel 0, a defined no-operation. -/
def execStartSpc0 (v : Half) (s : State) : Answer := storeControl 0 v s

/-- `CTRL.START.SPC3` (rule R203): special timing on channel 3, a defined no-operation. -/
def execStartSpc3 (v : Half) (s : State) : Answer := storeControl 3 v s

end Sys2Proof.Machine
end

