-- ==== Sys2Proof/Machine/Engine.lean ====
section
/-! DEFINITION. The Bulk Transfer Engine (43_bulk_transfer.md): the element-by-element transfer, which is the architectural
result of every transfer (rule R160), and the code-invalidate request that follows one (rule R79). -/

namespace Sys2Proof.Machine

/-- What the engine holds of a transfer: addresses aligned first (rule R161); an open-bus pass when the aligned source is below
`OPENBUS_LIMIT` (rule R163), with its pattern taken from `TR` once (rule R165). -/
def mkJob (src dst : Word) (ss ds : StepDir) (w : Width) (tr : Word) : Job where
  src := alignDown src w
  dst := alignDown dst w
  srcStep := ss
  dstStep := ds
  width := w
  pattern := if alignDown src w < Config.openbusLimit then some (openBusPattern tr w) else none

/-- The guest address element `i` is read from. -/
def Job.srcAt (j : Job) (i : Nat) : Word := adv j.src i j.width j.srcStep

/-- The guest address element `i` is written to. -/
def Job.dstAt (j : Job) (i : Nat) : Word := adv j.dst i j.width j.dstStep

/-- The move of element `i`. On an open-bus pass only the write (rule R165); otherwise read, write, and `TR <- rep(v, w)`,
"whether or not its write was dropped" (rules R171, R172). -/
def moveOne (j : Job) (i : Nat) (s : State) : Answer :=
  match j.pattern with
  | some p => s.memWrite (j.dstAt i) j.width p
  | none =>
    let r := s.memRead (j.srcAt i) j.width
    andThen (r.2.memWrite (j.dstAt i) j.width r.1) (fun t => .next { t with tr := rep r.1 j.width })

/-- `k` elements moved, from index `i` on, in ascending order, each read before its write (rule R75). -/
def moveFrom (j : Job) : Nat → Nat → State → Answer
  | _, 0, s => .next s
  | i, k + 1, s => andThen (moveOne j i s) (moveFrom j (i + 1) k)

/-- The end of an open-bus pass: `TR <- rep(p, w)` (rule R165). Nothing for any other transfer. -/
def Job.endPass (j : Job) (s : State) : State :=
  match j.pattern with
  | some p => { s with tr := rep p j.width }
  | none => s

/-- `XFER(src, dst, n, ss, ds, w)` (rules R160, R162 to R165, R171): nothing for `n = 0`; else every element in order. -/
def xfer (src dst : Word) (n : Nat) (ss ds : StepDir) (w : Width) (s : State) : Answer :=
  if n = 0 then .next s
  else
    let j := mkJob src dst ss ds w s.tr
    andThen (moveFrom j 0 n s) (fun t => .next (j.endPass t))

/-- `requestCodeInvalidate(dst, n, ds, w)` (rule R79): the guest range written is put out on port `COH`; it changes no state of
the block. A transfer of no element issues none. -/
def State.requestCodeInvalidate (s : State) (dst : Word) (n : Nat) (ds : StepDir) (w : Width) : State :=
  if n = 0 then s
  else
    let d0 := alignDown dst w
    let span := BitVec.ofNat 32 ((n - 1) * w.bytes)
    let lastOfElement := BitVec.ofNat 32 (w.bytes - 1)
    match ds with
    | .inc => s.emit (.icInvalidate d0 (d0 + span + lastOfElement))
    | .dec => s.emit (.icInvalidate (d0 - span) (d0 + lastOfElement))
    | .fix => s.emit (.icInvalidate d0 (d0 + lastOfElement))

end Sys2Proof.Machine
end

