-- ==== Sys2Proof/Machine/Starts.lean ====
section
/-! DEFINITION. The starts that act (44_channel_fsm.md section 4): immediate, h-blank, audio; and the service of the nesting
window a channel-3 immediate start opens (60_exceptions.md section 6). -/

namespace Sys2Proof.Machine

/-- What an immediate start does after its transfer of `n` elements (rule R199): the code-invalidate request, the completion
interrupt if `IRQ = 1`, then the deactivation, or the no-operation tag if `REP = 1`. The order is rule R258's. -/
def State.completeImm (s : State) (c : Channel) (v : Half) (dst : Word) (n : Nat) (ds : StepDir) (w : Width) : State :=
  let s := s.requestCodeInvalidate dst n ds w
  let s := if ctlIrq v then s.raiseIrq c else s
  if ctlRep v then s.setHandler c .immediateCompleted
  else (s.setCtrl c (clearEn (s.slots c).ctrl)).setHandler c .inactive

/-- The rest of the transfer in the window, to its end, then the closing of the window and the completion (rules R199, R265).
"When the outer transfer ends with `n != 0`, `TR` holds the outer transfer's last element" (rule R266): where nested steps came
after the last element, its image is loaded again. -/
def finishWindow (t : Window) (s : State) : Answer :=
  andThen (moveFrom t.job t.index (t.count - t.index) s) fun u =>
    let u := if t.index < t.count then u else { u with tr := t.lastImage }
    let u := (t.job.endPass u).closeWindow t
    .next (u.completeImm Config.nestCh t.control t.job.dst t.count t.job.dstStep t.job.width)

/-- One element of the transfer in the window (rule R266: "The transfer in flight proceeds element by element"). DESIGN CHOICE (log
entry 12): the last element of an open-bus pass does not load `TR` yet. The spec does not order the load that ends the pass (rule
R165) against the host's steps after the last element; here those steps come first and see the `TR` of before, and `finishWindow`
loads it. -/
def advanceWindow (t : Window) (s : State) : Answer :=
  andThen (moveOne t.job t.index s) fun u =>
    let image := match t.job.pattern with
      | some p => rep p t.job.width
      | none => u.tr
    .next { u with window := some { t with index := t.index + 1, lastImage := image } }

/-- The engine's turn while a window is open: element by element as long as the host still offers a line for this window, else
to the end. -/
def serviceWindow (t : Window) (s : State) : Answer :=
  match s.nextInWindow with
  | some k => if t.index < k ∧ k ≤ t.count then advanceWindow t s else finishWindow t s
  | none => finishWindow t s

/-- The transfer of a channel-3 immediate start. The window is opened; where the host offers a line for it the operation stays
in service with no element moved yet, else it runs to its end at once (rule R266). -/
def windowedTransfer (j : Job) (n : Nat) (v : Half) (s : State) : Answer :=
  let t := s.newWindow j n v
  match s.nextInWindow with
  | some k => if k ≤ n then .next (s.openWindow t) else finishWindow t (s.openWindow t)
  | none => finishWindow t (s.openWindow t)

/-- `CTRL.START.IMM` (rule R199). -/
def execStartImm (c : Channel) (v : Half) (s : State) : Answer :=
  acceptCmd c s fun s =>
    let s := s.setCtrl c v
    let n := effCount c (s.slots c).cnt
    let src := rebase s.params (s.slots c).sad
    let dst := (s.slots c).dad
    let w := wbits v
    match sstep v with
    | none => .refused .srcCtlIllegal
    | some ss =>
      let ds := dstep v
      let s := s.setCursors c (adv src n w ss) (adv dst n w ds)
      if c = Config.nestCh then windowedTransfer (mkJob src dst ss ds w s.tr) n v s
      else andThen (xfer src dst n ss ds w s) fun s => .next (s.completeImm c v dst n ds w)

/-- `CTRL.START.HBL` (rule R201): a disallowed source is silently dropped. -/
def execStartHbl (c : Channel) (v : Half) (s : State) : Answer :=
  acceptCmd c s fun s =>
    let s := s.setCtrl c v
    if disallowed s.params (s.slots c).sad then .next s
    else
      let s := s.setCursors c (s.slots c).sad (s.slots c).dad
      let s := s.setFlags c true (s.chan c).au
      let s := s.setHandler c (if ctlWidth v then .blankingTrigger32 else .blankingTrigger16)
      .next s.updateSharedEnables

/-- An audio start on channel `c` of `AUDIO_CH` (rule R202): a disallowed source is silently dropped and leaves the flag
untouched. -/
def audioStart (c : Channel) (v : Half) (s : State) : Answer :=
  acceptCmd c s fun s =>
    let s := s.setCtrl c v
    if disallowed s.params (s.slots c).sad then .next s
    else
      let s := s.setCursors c (s.slots c).sad (s.slots c).dad
      let s := s.clearDrain
      let s := s.setFlags c (s.chan c).hb true
      let s := s.setHandler c .audioTrigger
      .next s.updateSharedEnables

/-- `CTRL.START.AUD1` (rule R202). -/
def execStartAud1 (v : Half) (s : State) : Answer := audioStart 1 v s

/-- `CTRL.START.AUD2` (rule R202). -/
def execStartAud2 (v : Half) (s : State) : Answer := audioStart 2 v s

end Sys2Proof.Machine
end

