-- ==== Sys2Proof/Machine/Triggers.lean ====
section
/-! DEFINITION. The event strobes: trigger dispatch and the periodic handler (45_triggered_handler.md), and `INIT`
(70_reset_and_hazards.md section 1). -/

namespace Sys2Proof.Machine

/-- The cursors a trigger of channel `c` leaves (rule R232): the source always advances; the destination advances, except under
increment+reload, where it is set to the register (rule R239). -/
def State.advanceCursors (s : State) (c : Channel) (k : Half) (n : Nat) (w : Width) (ss : StepDir) : State :=
  s.setCursors c (adv (s.chan c).src n w ss)
    (if ctlDst k = 3#2 then (s.slots c).dad else adv (s.chan c).dst n w (dstep k))

/-- Where a trigger of channel `c` writes (rule R232): the register under increment+reload, else the cursor before the advance. -/
def State.triggerDst (s : State) (c : Channel) (k : Half) : Word :=
  if ctlDst k = 3#2 then (s.slots c).dad else (s.chan c).dst

/-- `PERIODIC(c, w)` (rule R232): one triggered transfer. Count, steps, interrupt bit and repeat bit come from the slots as they
stand at the trigger; the width from the caller (rule R233). -/
def periodic (c : Channel) (w : Width) (s : State) : Answer :=
  let k := (s.slots c).ctrl
  let n := effCount c (s.slots c).cnt
  match sstep k with
  | none => .refused .srcCtlIllegal
  | some ss =>
    let ds := dstep k
    let src := (s.chan c).src
    let dst := s.triggerDst c k
    andThen (xfer src dst n ss ds w (s.advanceCursors c k n w ss)) fun s =>
      let s := s.requestCodeInvalidate dst n ds w
      let s := if ctlIrq k then s.raiseIrq c else s
      .next (if ctlRep k then s else s.deactivate c)

/-- The service of channel `c` at an `HBLANK` strobe, by its tag when its turn comes (rules R230, R235). -/
def hblankChannel (c : Channel) (s : State) : Answer :=
  match (s.chan c).handler with
  | .blankingTrigger16 => periodic c .w16 s
  | .blankingTrigger32 => periodic c .w32 s
  | .inactive => .next s
  | .immediateCompleted => .next s
  | .audioTrigger => .next s

/-- The service of channel `c` at an `AUDIO` strobe whose request was observed (rule R236). -/
def audioChannel (c : Channel) (s : State) : Answer :=
  match (s.chan c).handler with
  | .audioTrigger => periodic c Config.audioWidth s
  | .inactive => .next s
  | .immediateCompleted => .next s
  | .blankingTrigger16 => .next s
  | .blankingTrigger32 => .next s

/-- The four channels one after another in ascending order, each to completion (rule R231; decision D17). -/
def eachChannel (f : Channel → State → Answer) (s : State) : Answer :=
  andThen (andThen (andThen (f 0 s) (f 1)) (f 2)) (f 3)

/-- Some channel has the tag `AudioTrigger` (rule R236). -/
def State.anyAudioArmed (s : State) : Bool :=
  decide ((s.chan 0).handler = .audioTrigger) || decide ((s.chan 1).handler = .audioTrigger) ||
    decide ((s.chan 2).handler = .audioTrigger) || decide ((s.chan 3).handler = .audioTrigger)

/-- `TRIG.HBLANK` (rule R235). -/
def execTrigHblank (s : State) : Answer := acceptStrobe s fun s => eachChannel hblankChannel s

/-- `TRIG.AUDIO` (rule R236): nothing unless a channel is audio-armed; the flag is read behind an acquire, and when it is set it
is cleared before the transfers (rules R261, R263). -/
def execTrigAudio (s : State) : Answer :=
  acceptStrobe s fun s =>
    if s.anyAudioArmed then
      let s := s.acquireDrain
      if s.drainView then eachChannel audioChannel s.clearDrain else .next s
    else .next s

/-- `TRIG.VBLANK` (rule R237): no state changes, no channel is served. -/
def execTrigVblank (s : State) : Answer := acceptStrobe s fun s => .next s

/-- `INIT` (rules R290 to R292): cursors, tags and flags of all four channels, then the shared levels; nothing else is written.
Inside the nesting window it is refused (rule R266). -/
def execInit (s : State) : Answer :=
  if s.window.isSome then .refused .initInWindow
  else .next ({ s with initialised := true, chans := Quad.all Chan.reset }).updateSharedEnables

end Sys2Proof.Machine
end

