-- ==== Sys2Proof/Machine/Dispatch.lean ====
section
/-! DEFINITION. One arm per operation of spec/opcode_table.json. -/

namespace Sys2Proof.Machine

def exec (i : Instr) (s : State) : Host.Outcome State Fault Refusal :=
  match i with
  | .ctrlUpd0 c v => Sys2Proof.Machine.execCtrlUpd0 c v s
  | .ctrlUpd1 c v => Sys2Proof.Machine.execCtrlUpd1 c v s
  | .ctrlStop c v => Sys2Proof.Machine.execCtrlStop c v s
  | .startXreq c v => Sys2Proof.Machine.execStartXreq c v s
  | .startImm c v => Sys2Proof.Machine.execStartImm c v s
  | .startVbl c v => Sys2Proof.Machine.execStartVbl c v s
  | .startHbl c v => Sys2Proof.Machine.execStartHbl c v s
  | .startSpc0 v => Sys2Proof.Machine.execStartSpc0 v s
  | .startAud1 v => Sys2Proof.Machine.execStartAud1 v s
  | .startAud2 v => Sys2Proof.Machine.execStartAud2 v s
  | .startSpc3 v => Sys2Proof.Machine.execStartSpc3 v s
  | .init => Sys2Proof.Machine.execInit s
  | .trigVblank => Sys2Proof.Machine.execTrigVblank s
  | .trigHblank => Sys2Proof.Machine.execTrigHblank s
  | .trigAudio => Sys2Proof.Machine.execTrigAudio s

end Sys2Proof.Machine
end

