-- ==== Sys2Proof/Machine/Serve.lean ====
section
/-! DEFINITION. The lines of a run (rules R15, R19, R110): an operation offered on port `CMD` or `EV` is decoded and executed; a
step of the host, of a collaborator or of the audio producer changes what it owns. Which line is taken next, and when. -/

namespace Sys2Proof.Machine

/-! ### Operations -/

/-- A `CMD` transaction (rules R93, R94, R102): the channel from the address, `E_old` from the slot, then the operation. -/
def serveCmd (ra : Word) (v : Half) (s : State) : Answer :=
  match decodeRa ra with
  | .ok c => exec (decodeDw (decodeWord c (s.eOld c) v)) s
  | .error _ => .refused .notAControlSlot

/-- A strobe on port `EV` (rule R95). -/
def serveEv (e : BitVec 4) (s : State) : Answer :=
  match decodeEv e with
  | .ok i => exec i s
  | .error _ => .refused .badEventVector

/-! ### Host stores -/

/-- A guest byte belongs to an element of a transfer: by its guest address, or through a mirror. -/
def inElement (s : State) (x a : Word) (w : Width) : Bool :=
  decide ((x - a).toNat < w.bytes) ||
    ((region x).plain && (region a).plain && decide ((s.xlate x - s.xlate a).toNat < w.bytes))

/-- A guest byte belongs to the source range or the destination range of the transfer in the window (rule R266). An open-bus pass
reads no source. -/
def inFlight (s : State) (t : Window) (x : Word) : Bool :=
  (List.range t.count).any fun i =>
    inElement s x (t.job.dstAt i) t.job.width ||
      (t.job.pattern.isNone && inElement s x (t.job.srcAt i) t.job.width)

/-- A host store of `n` bytes at `a`, refused inside the window where it touches the transfer in flight (rule R266). -/
def hostStore (a : Word) (n : Nat) (s : State) (f : State → State) : Answer :=
  match s.window with
  | none => .next (f s)
  | some t =>
    if (List.range n).any (fun k => inFlight s t (a + BitVec.ofNat 32 k)) then .refused .windowStep else .next (f s)

/-- The guest address of a slot (rule R28). -/
def slotAddress (c : Channel) (off : Nat) : Word := BitVec.ofNat 32 (Config.iobaseDma + Config.chStride * c.val + off)

/-- The host stores the count slot (rule R29). -/
def hostCount (c : Channel) (n : Half) (s : State) : Answer :=
  hostStore (slotAddress c Config.offCnt) 2 s fun s => s.setSlots c { s.slots c with cnt := n }

/-- A byte store to a control half-word (rule R300; U19): refused where it changes bit 15, else a plain host write of the slot.
Inside the window rule R266 allows no host write of a control slot. -/
def controlByte (c : Channel) (k : Nat) (b : Byte) (s : State) : Answer :=
  let v := setByteOf (s.slots c).ctrl k b
  if s.window.isSome then .refused .windowStep
  else if ctlEn v = s.eOld c then .next (s.setCtrl c v)
  else .refused .controlByteStore

/-- A byte store of the host's CPU: plain memory, a slot of the register view, or nothing this model holds. -/
def hostByte (a : Word) (b : Byte) (s : State) : Answer :=
  match slotOf a with
  | some (c, o) =>
    if Config.offCtrl ≤ o then controlByte c (o - Config.offCtrl) b s
    else hostStore a 1 s fun s => s.setSlots c ((s.slots c).setByte o b)
  | none => hostStore a 1 s fun s => if (region a).plain then s.storeByte (s.xlate a) b else s

/-- A host store of an element into plain memory or into address and count slots; elsewhere nothing this model holds changes. -/
def hostElem (a : Word) (w : Width) (v : Word) (s : State) : Answer :=
  hostStore a w.bytes s fun s =>
    if (region a).plain then s.backWrite (s.xlate a) w v else s.slotWrite a w v

/-- A 16-bit store of the host's CPU. One to a control half-word is intercepted and presented as a `CMD` (rule R300). -/
def hostHalf (a : Word) (v : Half) (s : State) : Answer :=
  let a := alignDown a .w16
  match decodeRa a with
  | .ok _ => serveCmd a v s
  | .error _ => hostElem a .w16 (v.zeroExtend 32) s

/-- A 32-bit store of the host's CPU. One that covers a count and a control half-word is split: the count first, then a `CMD`
with the upper half (rule R300; decision D38). -/
def hostWord (a : Word) (v : Word) (s : State) : Answer :=
  let a := alignDown a .w32
  match decodeRa (a + 2#32) with
  | .ok c => andThen (hostCount c (v.extractLsb' 0 16) s) (serveCmd (a + 2#32) (v.extractLsb' 16 16))
  | .error _ => hostElem a .w32 v s

/-- A change of the display mode: refused inside the window (rule R266). -/
def hostDispMode (m : BitVec 3) (s : State) : Answer :=
  if s.window.isSome ∧ m ≠ s.dispMode then .refused .windowStep else .next { s with dispMode := m }

/-- The host's own nesting policy: not among the steps rule R266 lists for the window. -/
def hostNestPolicy (on : Bool) (s : State) : Answer :=
  if s.window.isSome then .refused .windowStep else .next { s with nestedIrqEnabled := on }

/-- A line of the run, taken now. -/
def serve (l : HostLine) (s : State) : Answer :=
  match l with
  | .cmd ra v => serveCmd ra v s
  | .ev e => serveEv e s
  | .sadw c a => hostStore (slotAddress c Config.offSad) 4 s fun s => s.setSlots c { s.slots c with sad := a }
  | .dadw c a => hostStore (slotAddress c Config.offDad) 4 s fun s => s.setSlots c { s.slots c with dad := a }
  | .cntw c n => hostCount c n s
  | .memw8 a b => hostByte a b s
  | .memw16 a v => hostHalf a v s
  | .memw32 a v => hostWord a v s
  | .dispMode m => hostDispMode m s
  | .drainSet => .next { s with drainRequest := true }
  | .irqAck mask => .next { s with irqPending := s.irqPending &&& ~~~mask }
  | .nestPolicy on => hostNestPolicy on s
  | .look => .next s

/-- `DMASET c, src, dst, n, v` (rule R112): three host stores, then the `CMD`, in that order. -/
def dmaSet (c : Channel) (src dst : Word) (n v : Half) : List HostLine :=
  [.sadw c src, .dadw c dst, .cntw c n, .cmd (ctrlAddress c) v]

/-! ### Which line is taken now -/

/-- The line is for the window that is open, and its element index has come. -/
def Offer.due (o : Offer) (t : Window) : Bool :=
  match o.inWindow with
  | some k => decide (k ≤ t.index)
  | none => false

/-- The line taken now and the state it is taken in. Between operations the next line, whatever it is; inside the window only a
line that is due there: another waits until the operation in service ends (rules R11, R266, R268). -/
def State.offered (s : State) : Option (HostLine × State) :=
  match s.script with
  | [] => none
  | o :: rest =>
    match s.window with
    | none => some (o.line, { s with script := rest })
    | some t => if o.due t then some (o.line, { s with script := rest }) else none

/-- Nothing is offered: the transfer in the window goes on, and an idle block stays as it is (rule R273: "idle hardware"). -/
def unattended (s : State) : Answer :=
  match s.window with
  | some t => serviceWindow t s
  | none => .next s

/-- A line placed so that the very next step takes it, inside an open window or outside. -/
def State.offerNow (s : State) (l : HostLine) : State := { s with script := ⟨some 0, l⟩ :: s.script }

/-- The transaction of an operation word: the strobe vector, or the `CMD` of the word's channel and new control word, with the
slot's enable bit set to the word's `E_old` (rule R94). -/
def State.offerWord (s : State) (o : OpWord) : State :=
  match o with
  | .ev e => s.offerNow (.ev e)
  | .dw d =>
    (s.setCtrl (dwChannel d) (withEn (s.slots (dwChannel d)).ctrl (dwOld d))).offerNow
      (.cmd (ctrlAddress (dwChannel d)) (dwValue d))

end Sys2Proof.Machine
end

