-- ==== Sys2Proof/Machine/Step.lean ====
section
/-! DEFINITION. One step of the machine. -/

namespace Sys2Proof.Machine

/-- One step: the line offered now is served; where none is, the transfer in the window goes on or the block idles. -/
def step (s : State) : Host.Outcome State Fault Refusal :=
  match s.offered with
  | some (l, t) => serve l t
  | none => unattended s

/-- The state in which the very next step runs the operation a table word encodes: its transaction is the next line offered, and
the control slot holds the old enable bit the word names. A word that is none of the table's is offered as the malformed vector
`0000`. -/
def State.withFetchWord (s : State) (nbits w : Nat) : State :=
  match opWordOf nbits w with
  | some o => s.offerWord o
  | none => s.offerNow (.ev 0#4)

end Sys2Proof.Machine
end

