-- ==== Sys2Proof/Machine/FastPath.lean ====
section
/-! DEFINITION. The eligibility check (42_eligibility.md) and the engine by the path it takes (rules R164, R167 to R170). The
path "is not architectural state" (rule R149) and the fast path is "a way of computing the same result in fewer bus operations"
(rule R160): the operations use `xfer`. This file gives the document's check and fast path so that their agreement with `xfer`
can be stated. -/

namespace Sys2Proof.Machine

/-- `span = (n - 1) * e` (rule R142; decision D29). -/
def spanOf (n : Nat) (w : Width) : Nat := (n - 1) * w.bytes

/-- A source region of the allow-list: a plain region or ROM (rule R143). -/
def srcAllowed (a : Word) : Bool := (region a).plain || decide (region a = .rom)

/-- A destination region of the allow-list: a plain region (rule R143). -/
def dstAllowed (a : Word) : Bool := (region a).plain

/-- `ELIG(src, dst, ss, ds, n, w)` (rule R146), on aligned addresses: true is `fast`. Rule R130 says that its test of the two ends of
the destination run is enough; where video RAM is in the run it is not (a run about the bank sub-range, or one from palette RAM into
it, can pass with a middle that is not linear). There the model keeps rule R146 as it is written (log entry 14). -/
def elig (s : State) (src dst : Word) (ss ds : StepDir) (n : Nat) (w : Width) : Bool :=
  decide (ss = .inc) &&
  decide (s.xlate (adv dst (n - 1) w ds) = s.xlate dst + BitVec.ofNat 32 (spanOf n w)) &&
  srcAllowed src && dstAllowed dst &&
  decide (sel (adv src (n - 1) w ss) = sel src) &&
  !decide (absDiff dst src < Config.overlapMin)

/-- The paths of rule R164. -/
inductive Path
  | empty
  | openBus
  | fastRam
  | fastRom
  | safe
  deriving DecidableEq, Repr

/-- The path rule R164 takes. -/
def pathOf (s : State) (src dst : Word) (n : Nat) (ss ds : StepDir) (w : Width) : Path :=
  if n = 0 then .empty
  else if alignDown src w < Config.openbusLimit then .openBus
  else if elig s (alignDown src w) (alignDown dst w) ss ds n w then
    (if region (alignDown src w) = .rom then .fastRom else .fastRam)
  else .safe

/-- `copy16` or `copy32` between backing addresses: `k` units from unit `i` on, in ascending order (rule R70; decision D46). -/
def copyUnits (w : Width) (ts td : Word) : Nat → Nat → State → State
  | _, 0, s => s
  | i, k + 1, s =>
    let o := BitVec.ofNat 32 (i * w.bytes)
    copyUnits w ts td (i + 1) k (s.backWrite (td + o) w (s.backRead (ts + o) w))

/-- An element of the cache block last fetched, at offset `k` (rule R69). -/
def State.blockElem (s : State) (k : Word) (w : Width) : Word :=
  match w with
  | .w16 => (s.blockByte (k + 1#32) ++ s.blockByte k).zeroExtend 32
  | .w32 => s.blockByte (k + 3#32) ++ s.blockByte (k + 2#32) ++ s.blockByte (k + 1#32) ++ s.blockByte k

/-- `copy16` or `copy32` from offset `o` of the block last fetched to a backing address: `k` units from unit `i` on. -/
def copyBlockUnits (w : Width) (o td : Word) : Nat → Nat → State → State
  | _, 0, s => s
  | i, k + 1, s =>
    let d := BitVec.ofNat 32 (i * w.bytes)
    copyBlockUnits w o td (i + 1) k (s.backWrite (td + d) w (s.blockElem (o + d) w))

/-- One run of the fast ROM path (rule R169): the guest address whose block is fetched, the offset in the transfer, the length
in bytes. -/
structure RomRun where
  address : Word
  offset : Nat
  length : Nat
  deriving DecidableEq, Repr

/-- The runs of `XFER.FASTROM` (rule R169), bounded by the block size; the first argument bounds their number. -/
def romRuns (p : Config.Params) (src : Word) (bytes : Nat) : Nat → Nat → List RomRun
  | 0, _ => []
  | fuel + 1, off =>
    if off < bytes then
      let a := src + BitVec.ofNat 32 off
      let len := min (2 ^ p.blockBits - (a &&& p.blockMask).toNat) (bytes - off)
      { address := a, offset := off, length := len } :: romRuns p src bytes fuel (off + len)
    else []

/-- One run: fetch the block, copy the overlapping sub-range. -/
def copyRun (w : Width) (td : Word) (s : State) (r : RomRun) : State :=
  copyBlockUnits w (r.address &&& s.params.blockMask) (td + BitVec.ofNat 32 r.offset) 0 (r.length / w.bytes)
    (s.getBlock r.address)

/-- `TR <- rep(BackRead(XLATE(dst) + (n-1)*e, e), w)`: the last element is read back from the destination (rule R170). -/
def State.loadImage (s : State) (td : Word) (n : Nat) (w : Width) : State :=
  { s with tr := rep (s.backRead (td + BitVec.ofNat 32 (spanOf n w)) w) w }

/-- `XFER.FAST` (rule R168) and the load of `TR` (rule R170), on aligned addresses. -/
def fastRam (src dst : Word) (n : Nat) (w : Width) (s : State) : State :=
  (copyUnits w (s.xlate src) (s.xlate dst) 0 n s).loadImage (s.xlate dst) n w

/-- `XFER.FASTROM` (rule R169) and the load of `TR` (rule R170), on aligned addresses. -/
def fastRom (src dst : Word) (n : Nat) (w : Width) (s : State) : State :=
  let bytes := n * w.bytes
  ((romRuns s.params src bytes bytes 0).foldl (copyRun w (s.xlate dst)) s).loadImage (s.xlate dst) n w

/-- The engine by its paths, as rule R164 writes it. -/
def xferByPath (src dst : Word) (n : Nat) (ss ds : StepDir) (w : Width) (s : State) : Answer :=
  match pathOf s src dst n ss ds w with
  | .empty => .next s
  | .openBus => xfer src dst n ss ds w s
  | .fastRam => .next (fastRam (alignDown src w) (alignDown dst w) n w s)
  | .fastRom => .next (fastRom (alignDown src w) (alignDown dst w) n w s)
  | .safe => xfer src dst n ss ds w s

end Sys2Proof.Machine
end

