-- ==== Sys2Proof/Safety.lean ====
section
/-! DEFINITION. The terms claims about the machine use: when an operation is accepted, what a transfer writes, when a run is linear
in the backing space, and the invariant of 10_state.md section 5. -/

namespace Sys2Proof

/-- The step as the integer of rule R12: +1, -1, 0. -/
def StepDir.toInt : StepDir → Int
  | .inc => 1
  | .dec => -1
  | .fix => 0

end Sys2Proof

namespace Sys2Proof.Machine

/-! ### Acceptance -/

/-- A `CMD` for channel `c` is accepted (rules R266, R294): the block is initialised, and no nesting window is open or the channel
is not the one that owns it. -/
abbrev State.acceptsCmd (s : State) (c : Channel) : Prop :=
  s.initialised = true ∧ (s.window = none ∨ c ≠ 3)

/-- The host offers a line for the nesting window of a transfer of `n` elements that would open now (rule R266). -/
abbrev State.hostInWindow (s : State) (n : Nat) : Prop := ∃ k ∈ s.nextInWindow, k ≤ n

/-- A host store of `n` bytes at `a` touches the source or destination range of the transfer in the window (rule R266). -/
abbrev State.touchesFlight (s : State) (t : Window) (a : Word) (n : Nat) : Prop :=
  ∃ k < n, inFlight s t (a + BitVec.ofNat 32 k) = true

/-- A host store of `n` bytes at `a` is one the host may make now: between operations, or inside the nesting window off the transfer
in flight (rule R266). -/
abbrev State.storeFree (s : State) (a : Word) (n : Nat) : Prop := ∀ t, s.window = some t → ¬ s.touchesFlight t a n

/-! ### What a transfer writes -/

/-- No element of the transfer touches a control half-word of the register view (rule R301). -/
abbrev Job.sparesControl (j : Job) (n : Nat) : Prop := ∀ i < n, coversByte isCtrlByte (j.dstAt i) j.width = false

/-- No element of the transfer touches the register view. -/
abbrev Job.sparesView (j : Job) (n : Nat) : Prop := ∀ i < n, coversByte isSlotByte (j.dstAt i) j.width = false

/-- The transfer reads no element from a region for which `p` holds: an open-bus pass reads none at all (rule R165). -/
abbrev Job.readsNone (j : Job) (n : Nat) (p : Region → Bool) : Prop :=
  j.pattern.isSome = true ∨ ∀ i < n, p (region (j.srcAt i)) = false

/-- A backing byte lies in the element of width `w` at backing address `b`. -/
abbrev inBacking (x b : Word) (w : Width) : Prop := (x - b).toNat < w.bytes

/-- A backing byte is stored to by the transfer: it lies in the translation of a plain destination element (rules R67, R174). -/
abbrev State.storedBy (s : State) (j : Job) (n : Nat) (x : Word) : Prop :=
  ∃ i < n, (region (j.dstAt i)).plain = true ∧ inBacking x (s.xlate (j.dstAt i)) j.width

/-- Two elements of width `w` at backing addresses `a` and `b` share no byte. -/
abbrev elementsApart (a b : Word) (w : Width) : Prop := ∀ x : Word, ¬ (inBacking x a w ∧ inBacking x b w)

/-- What no transfer touches (rule R173): the cursors, tags and flags of every channel, the control slots, the interrupt outputs, the
drain-request flag, the window and what the run supplies. Of the register view only address and count slots may differ, and only
where a device write of the transfer lands on one (rule R301). -/
structure TransferFrame (s t : State) : Prop where
  params : t.params = s.params
  initialised : t.initialised = s.initialised
  chans : t.chans = s.chans
  ctrl : ∀ c, (t.slots c).ctrl = (s.slots c).ctrl
  rom : t.rom = s.rom
  dispMode : t.dispMode = s.dispMode
  irqPending : t.irqPending = s.irqPending
  forcedIrqMask : t.forcedIrqMask = s.forcedIrqMask
  blankingIrqEnabled : t.blankingIrqEnabled = s.blankingIrqEnabled
  nestedIrqEnabled : t.nestedIrqEnabled = s.nestedIrqEnabled
  drainRequest : t.drainRequest = s.drainRequest
  drainView : t.drainView = s.drainView
  window : t.window = s.window
  script : t.script = s.script

/-- The ascending run of `n` elements from guest address `a` lies in plain regions and is linear in the backing space: every
element's translation lies where a linear copy puts it (rule R130). -/
abbrev State.linearRun (s : State) (a : Word) (n : Nat) (w : Width) : Prop :=
  ∀ i < n, (region (adv a i w .inc)).plain = true ∧
    s.xlate (adv a i w .inc) = s.xlate a + BitVec.ofNat 32 (i * w.bytes)

/-- The size in bytes of a plain region's canonical range, `P` of rule R130; 0 for a region that is not mirrored. -/
def canonicalSize : Region → Nat
  | .ewram => 0x40000
  | .iwram => 0x8000
  | .palette => 0x400
  | .vram => 0x20000
  | .oam => 0x400
  | .openBus => 0
  | .io => 0
  | .rom => 0
  | .save => 0
  | .unmapped => 0

/-- The guest address of the first byte of a transfer's destination footprint, and its length in bytes (rule R174). -/
def Job.footprint (j : Job) (n : Nat) : Word × Nat :=
  match j.dstStep with
  | .inc => (j.dst, n * j.width.bytes)
  | .dec => (j.dst - BitVec.ofNat 32 ((n - 1) * j.width.bytes), n * j.width.bytes)
  | .fix => (j.dst, j.width.bytes)

/-! ### Immediate transfers -/

/-- The number of elements a transfer of channel `c` moves (rule R99). -/
def State.count (s : State) (c : Channel) : Nat := effCount c (s.slots c).cnt

/-- The source address of an immediate start of channel `c` (rule R199). -/
def State.immSource (s : State) (c : Channel) : Word := rebase s.params (s.slots c).sad

/-- The transfer an immediate start of channel `c` with control word `v` and source step `ss` makes (rule R199). -/
def State.immJob (s : State) (c : Channel) (v : Half) (ss : StepDir) : Job :=
  mkJob (s.immSource c) (s.slots c).dad ss (dstep v) (wbits v) s.tr

/-- The state in which that transfer begins: the control slot stored and both cursors written from the start addresses. -/
def State.immStarted (s : State) (c : Channel) (v : Half) (ss : StepDir) : State :=
  { s with
    view := s.view.set c { s.view.get c with ctrl := v }
    chans := s.chans.set c { s.chans.get c with
      src := adv (s.immSource c) (s.count c) (wbits v) ss
      dst := adv (s.slots c).dad (s.count c) (wbits v) (dstep v) } }

/-- The events after a transfer of an operation: the code-invalidate request for the range written, where an element moved
(rule R79), then the completion interrupt, where the control word asks for one (rule R253). The latest event stands first. -/
def completionEvents (c : Channel) (irq : Bool) (j : Job) (n : Nat) : List Event :=
  (if irq then [.irqRaised c] else []) ++
    (if n = 0 then [] else
      [.icInvalidate (j.footprint n).1 ((j.footprint n).1 + BitVec.ofNat 32 ((j.footprint n).2 - 1))])

/-- The pending mask with channel `c`'s bit set where the control word asks for an interrupt (rule R253). -/
def pendingAfter (m : BitVec 16) (c : Channel) (irq : Bool) : BitVec 16 :=
  if irq then m ||| (1#16 <<< (8 + c.val)) else m

/-- What an immediate start leaves (rule R199), from the state `s` it was accepted in and the state `u` its transfer left: memory,
`TR`, the slots a device write landed on, the cache block and the device oracle are the transfer's; the rest is named. -/
structure ImmediateResult (s u t : State) (c : Channel) (v : Half) (ss : StepDir) (events : List Event) : Prop where
  mem : t.mem = u.mem
  tr : t.tr = u.tr
  block : t.block = u.block
  devAnswers : t.devAnswers = u.devAnswers
  devReads : t.devReads = u.devReads
  chans : t.chans = s.chans.set c {
    src := adv (s.immSource c) (s.count c) (wbits v) ss
    dst := adv (s.slots c).dad (s.count c) (wbits v) (dstep v)
    handler := if ctlRep v then .immediateCompleted else .inactive
    hb := (s.chan c).hb
    au := (s.chan c).au }
  view : t.view = u.view.set c { u.view.get c with ctrl := if ctlRep v then v else clearEn v }
  irqPending : t.irqPending = pendingAfter s.irqPending c (ctlIrq v)
  trace : t.trace = completionEvents c (ctlIrq v) (s.immJob c v ss) (s.count c) ++ events
  params : t.params = s.params
  initialised : t.initialised = s.initialised
  rom : t.rom = s.rom
  dispMode : t.dispMode = s.dispMode
  forcedIrqMask : t.forcedIrqMask = s.forcedIrqMask
  blankingIrqEnabled : t.blankingIrqEnabled = s.blankingIrqEnabled
  nestedIrqEnabled : t.nestedIrqEnabled = s.nestedIrqEnabled
  drainRequest : t.drainRequest = s.drainRequest
  drainView : t.drainView = s.drainView
  window : t.window = s.window
  script : t.script = s.script

/-! ### Triggered transfers -/

/-- The width at which an `HBLANK` strobe serves a channel with a handler tag; none where the tag ignores it (rules R24, R233). -/
def hblankServes : Handler → Option Width
  | .blankingTrigger16 => some .w16
  | .blankingTrigger32 => some .w32
  | .inactive => none
  | .immediateCompleted => none
  | .audioTrigger => none

/-- The width at which an `AUDIO` strobe serves a channel with a handler tag; none where the tag ignores it (rules R24, R233). -/
def audioServes : Handler → Option Width
  | .audioTrigger => some .w32
  | .inactive => none
  | .immediateCompleted => none
  | .blankingTrigger16 => none
  | .blankingTrigger32 => none

/-- The transfer a trigger of channel `c` makes at width `w` with source step `ss` (rule R232). -/
def State.triggerJob (s : State) (c : Channel) (w : Width) (ss : StepDir) : Job :=
  mkJob (s.chan c).src (s.triggerDst c (s.slots c).ctrl) ss (dstep (s.slots c).ctrl) w s.tr

/-- The channel record a trigger of channel `c` at width `w` with source step `ss` leaves (rules R232, R234, R239). -/
def State.triggeredChan (s : State) (c : Channel) (w : Width) (ss : StepDir) : Chan where
  src := adv (s.chan c).src (s.count c) w ss
  dst := if ctlDst (s.slots c).ctrl = 3#2 then (s.slots c).dad
    else adv (s.chan c).dst (s.count c) w (dstep (s.slots c).ctrl)
  handler := if ctlRep (s.slots c).ctrl then (s.chan c).handler else .inactive
  hb := (s.chan c).hb && ctlRep (s.slots c).ctrl
  au := (s.chan c).au && ctlRep (s.slots c).ctrl

/-- The control word a trigger of channel `c` leaves in the slot: kept under repeat, else with the enable bit reverted. -/
def State.triggeredCtrl (s : State) (c : Channel) : Half :=
  if ctlRep (s.slots c).ctrl then (s.slots c).ctrl else clearEn (s.slots c).ctrl

/-- Every channel a strobe serves can be served without touching the register view: its source control is not 3, and its
transfer stores to no slot. -/
abbrev State.canServe (s : State) (serves : Handler → Option Width) : Prop :=
  ∀ c w, serves (s.chan c).handler = some w →
    ∃ ss, sstep (s.slots c).ctrl = some ss ∧ (s.triggerJob c w ss).sparesView (s.count c)

/-- What a strobe that serves the tags `serves` leaves, the drain flag, `TR`, the cache block, the device oracle and the trace
apart: every channel whose tag it serves makes exactly one transfer, every other channel keeps its record and slots. -/
structure StrobeResult (serves : Handler → Option Width) (s t : State) : Prop where
  served : ∀ c w ss, serves (s.chan c).handler = some w → sstep (s.slots c).ctrl = some ss →
    t.chan c = s.triggeredChan c w ss ∧ t.slots c = { s.slots c with ctrl := s.triggeredCtrl c }
  others : ∀ c, serves (s.chan c).handler = none → t.chan c = s.chan c ∧ t.slots c = s.slots c
  pending : ∀ b, t.irqPending.getLsbD b = true ↔
    (s.irqPending.getLsbD b = true ∨
      ∃ c : Channel, b = 8 + c.val ∧ (serves (s.chan c).handler).isSome = true ∧ ctlIrq (s.slots c).ctrl = true)
  bytes : ∀ x, (∀ c w ss, serves (s.chan c).handler = some w → sstep (s.slots c).ctrl = some ss →
    ¬ s.storedBy (s.triggerJob c w ss) (s.count c) x) → t.byteAt x = s.byteAt x
  params : t.params = s.params
  initialised : t.initialised = s.initialised
  rom : t.rom = s.rom
  dispMode : t.dispMode = s.dispMode
  nestedIrqEnabled : t.nestedIrqEnabled = s.nestedIrqEnabled
  window : t.window = s.window
  script : t.script = s.script

/-! ### The invariant -/

/-- Channel `c`'s tag, flags and control slot agree: an armed or completed channel is enabled (rule R32), each flag says exactly
what the tag says (rule R34), and only a channel of `AUDIO_CH` is audio-armed (rule R202). -/
structure State.ChannelOk (s : State) (c : Channel) : Prop where
  enabled : (s.chan c).handler ≠ .inactive → ctlEn (s.slots c).ctrl = true
  blanking : (s.chan c).hb = true ↔
    ((s.chan c).handler = .blankingTrigger16 ∨ (s.chan c).handler = .blankingTrigger32)
  audio : (s.chan c).au = true ↔ (s.chan c).handler = .audioTrigger
  audioChannel : (s.chan c).au = true → c ∈ Config.audioCh

/-- The levels the block drives equal the OR of the flags (rule R35). -/
structure State.LevelsOk (s : State) : Prop where
  forcedBlank : s.forcedIrqMask.testBit s.params.forcedBlankBit = s.anyHb
  display : s.blankingIrqEnabled = s.anyHb
  forcedAudio : s.forcedIrqMask.testBit s.params.forcedAudioBit = s.anyAu

/-- An open nesting window (rules R265, R266): nested delivery is enabled, the transfer is within its bounds, and channel 3 is
still as its start left it, enabled with no handler. -/
structure State.WindowOk (s : State) (t : Window) : Prop where
  nested : s.nestedIrqEnabled = true
  bounds : t.index ≤ t.count ∧ 1 ≤ t.count ∧ t.count ≤ Config.maxCount
  started : ctlEn t.control = true
  slot : (s.slots 3).ctrl = t.control
  owner : (s.chan 3).handler = .inactive

/-- The invariant of an initialised machine. -/
structure State.Inv (s : State) : Prop where
  initialised : s.initialised = true
  params : s.params.ok = true
  memory : s.mem.wf
  channel : ∀ c, s.ChannelOk c
  levels : s.LevelsOk
  window : ∀ t, s.window = some t → s.WindowOk t

end Sys2Proof.Machine
end

