-- ==== Sys2Proof/Certificates/Slice0/Obligations.lean ====
section
/-! DEFINITION. The statements about the machine, for the provers. OBLIGATIONS.json gives each one its tier, its rules and the
sentence it formalises. -/

open Sys2Proof Sys2Proof.Machine

/-! ### Encoding -/

/-- Decoding the encoding of any well-formed operation gives it back, with every channel and every control word, as an operation
word and as a word of the opcode table. -/
def Obligations.DecodeOfEncodeIsTheInstruction : Prop :=
  ∀ i : Instr, i.WellFormed →
    decodeOp (encode i) = .ok i ∧ decodeTableWord (encode i).nbits (encode i).number = some i

/-- Whatever decodes, decodes to a well-formed operation whose encoding is the very word: no two words mean one operation. -/
def Obligations.EncodeOfDecodeIsTheWord : Prop :=
  ∀ (o : OpWord) (i : Instr), decodeOp o = .ok i → i.WellFormed ∧ encode i = o

/-- The decoding order of a `CMD` (rule R102): enable bits, then the external-request bit, then the start timing, then the
channel; and every decode word lies in exactly one row of the opcode table, the row of the operation decoded. -/
def Obligations.DecodingFollowsTheOrderOfRuleR102 : Prop :=
  (∀ (c : Channel) (v : Half),
    (ctlEn v = false → decodeDw (decodeWord c false v) = .ctrlUpd0 c v) ∧
    (ctlEn v = true → decodeDw (decodeWord c true v) = .ctrlUpd1 c v) ∧
    (ctlEn v = false → decodeDw (decodeWord c true v) = .ctrlStop c v) ∧
    (ctlEn v = true → ctlXreq v = true → decodeDw (decodeWord c false v) = .startXreq c v) ∧
    (ctlEn v = true → ctlXreq v = false → ctlTiming v = 0#2 → decodeDw (decodeWord c false v) = .startImm c v) ∧
    (ctlEn v = true → ctlXreq v = false → ctlTiming v = 1#2 → decodeDw (decodeWord c false v) = .startVbl c v) ∧
    (ctlEn v = true → ctlXreq v = false → ctlTiming v = 2#2 → decodeDw (decodeWord c false v) = .startHbl c v) ∧
    (ctlEn v = true → ctlXreq v = false → ctlTiming v = 3#2 →
      decodeDw (decodeWord 0 false v) = .startSpc0 v ∧ decodeDw (decodeWord 1 false v) = .startAud1 v ∧
      decodeDw (decodeWord 2 false v) = .startAud2 v ∧ decodeDw (decodeWord 3 false v) = .startSpc3 v)) ∧
  (∀ d : BitVec 19, ∃ r ∈ opcodeTable, r.covers d = true ∧ r.mnemonic = (decodeDw d).mnemonic ∧
    ∀ q ∈ opcodeTable, q.covers d = true → q = r)

/-- The one-hot event vector (rule R95): the four strobes, and no other vector is an operation. -/
def Obligations.EventVectorsAreOneHot : Prop :=
  decodeEv 0b0001#4 = .ok .init ∧ decodeEv 0b0010#4 = .ok .trigVblank ∧
  decodeEv 0b0100#4 = .ok .trigHblank ∧ decodeEv 0b1000#4 = .ok .trigAudio ∧
  ∀ e : BitVec 4, e ≠ 0b0001#4 → e ≠ 0b0010#4 → e ≠ 0b0100#4 → e ≠ 0b1000#4 → decodeEv e = .error .badEventVector

/-- Words written out bit by bit from the encodings of the operation rules decode to the operations they stand for. -/
def Obligations.WordsWrittenOutDecode : Prop :=
  decodeTableWord 24 0b0100000010001000000 = some (.ctrlUpd0 1 0x0440#16) ∧
  decodeTableWord 24 0b0011110001000000000 = some (.ctrlUpd1 0 0xE200#16) ∧
  decodeTableWord 24 0b1110010001000000000 = some (.ctrlStop 3 0x2200#16) ∧
  decodeTableWord 24 0b1101000100000000000 = some (.startXreq 3 0x8800#16) ∧
  decodeTableWord 24 0b1101000010000000000 = some (.startImm 3 0x8400#16) ∧
  decodeTableWord 24 0b1001001000000000000 = some (.startVbl 2 0x9000#16) ∧
  decodeTableWord 24 0b0001010001001000000 = some (.startHbl 0 0xA240#16) ∧
  decodeTableWord 24 0b0001011000000000000 = some (.startSpc0 0xB000#16) ∧
  decodeTableWord 24 0b0101011011001000000 = some (.startAud1 0xB640#16) ∧
  decodeTableWord 24 0b1001011011001000000 = some (.startAud2 0xB640#16) ∧
  decodeTableWord 24 0b1101011000000000000 = some (.startSpc3 0xB000#16) ∧
  decodeTableWord 8 0b0001 = some .init ∧ decodeTableWord 8 0b0010 = some .trigVblank ∧
  decodeTableWord 8 0b0100 = some .trigHblank ∧ decodeTableWord 8 0b1000 = some .trigAudio

/-- The channel of a `CMD` (rule R93): defined exactly for the four control slots. -/
def Obligations.RegisterAddressSelectsTheChannel : Prop :=
  (∀ (ra : Word) (c : Channel), decodeRa ra = .ok c ↔ ra.toNat = 0x040000B0 + 10 + 12 * c.val) ∧
  (∀ (ra : Word) (e : DecodeError), decodeRa ra = .error e →
    e = .notAControlSlot ∧ ra ∉ [0x040000BA#32, 0x040000C6#32, 0x040000D2#32, 0x040000DE#32]) ∧
  ctrlAddress 0 = 0x040000BA#32 ∧ ctrlAddress 1 = 0x040000C6#32 ∧ ctrlAddress 2 = 0x040000D2#32 ∧
  ctrlAddress 3 = 0x040000DE#32

/-- Steps and width of a control word (rules R96, R97). For source control 3 rule R96 has only the open parameter `SRCCTL3_STEP`,
and rule R104 directs a refusal: that `sstep` gives no step there is the model's form of that refusal (log entry 20). -/
def Obligations.StepsAndWidthOfAControlWord : Prop :=
  ∀ v : Half,
    (v.extractLsb' 5 2 = 0#2 → dstep v = .inc) ∧ (v.extractLsb' 5 2 = 1#2 → dstep v = .dec) ∧
    (v.extractLsb' 5 2 = 2#2 → dstep v = .fix) ∧ (v.extractLsb' 5 2 = 3#2 → dstep v = .inc) ∧
    (v.extractLsb' 7 2 = 0#2 → sstep v = some .inc) ∧ (v.extractLsb' 7 2 = 1#2 → sstep v = some .dec) ∧
    (v.extractLsb' 7 2 = 2#2 → sstep v = some .fix) ∧ (v.extractLsb' 7 2 = 3#2 → sstep v = none) ∧
    ((wbits v).bytes = if v.getLsbD 10 then 4 else 2)

/-- Cursor arithmetic (rule R98), over the integers: `(a + n * e * s) mod 2^32`; and the count of a transfer (rule R99): 0 means
the maximum on channel 3 only, and never more than the maximum is moved. -/
def Obligations.CursorArithmeticAndCount : Prop :=
  (∀ (a : Word) (n : Nat) (w : Width) (d : StepDir),
    ((adv a n w d).toNat : Int) = ((a.toNat : Int) + n * w.bytes * d.toInt) % 2 ^ 32) ∧
  (∀ (c : Channel) (n : Half),
    (c = 3 → n = 0#16 → effCount c n = 0x10000) ∧ (¬ (c = 3 ∧ n = 0#16) → effCount c n = n.toNat) ∧
    (c = 3 → 1 ≤ effCount c n) ∧ effCount c n ≤ 0x10000)

/-- The rebase (rule R100) lands in cartridge ROM for every choice of the open parameters rule R9 allows, and leaves every other
address alone; the source window that h-blank and audio starts reject (rule R103) is that window and cartridge space. -/
def Obligations.RebaseLandsInRomAndSuchSourcesAreRejected : Prop :=
  ∀ (p : Config.Params) (a : Word), p.ok = true →
    (p.rebaseLo ≤ a → a < p.rebaseHi → rebase p a = a + p.rebaseDelta ∧ region (rebase p a) = .rom) ∧
    (¬ (p.rebaseLo ≤ a ∧ a < p.rebaseHi) → rebase p a = a) ∧
    (disallowed p a = true ↔ ((p.rebaseLo ≤ a ∧ a < p.rebaseHi) ∨ 0x08000000 ≤ a.toNat))

/-! ### The Region Translator -/

/-- Translation in arithmetic (rules R122 to R127): the offset modulo the canonical size, in the canonical range of the region; in
video RAM the bank offset of the mode where the masked address falls in the sub-range; every other address as it is. -/
def Obligations.TranslationIsModuloTheCanonicalSize : Prop :=
  ∀ (p : Config.Params) (m : BitVec 3) (a : Word),
    (sel a = 0x02#8 → (xlate p m a).toNat = 0x02000000 + a.toNat % 0x40000) ∧
    (sel a = 0x03#8 → (xlate p m a).toNat = 0x03000000 + a.toNat % 0x8000) ∧
    (sel a = 0x05#8 → (xlate p m a).toNat = 0x05000000 + a.toNat % 0x400) ∧
    (sel a = 0x07#8 → (xlate p m a).toNat = 0x07000000 + a.toNat % 0x400) ∧
    (sel a = 0x06#8 →
      let v := 0x06000000 + a.toNat % 0x20000
      (p.vbankLo.toNat ≤ v ∧ v < p.vbankHi.toNat →
        (xlate p m a).toNat =
          (v + (if 3 ≤ m.toNat then p.vbankOffBitmap.toNat else p.vbankOffTile.toNat)) % 2 ^ 32) ∧
      (¬ (p.vbankLo.toNat ≤ v ∧ v < p.vbankHi.toNat) → (xlate p m a).toNat = v)) ∧
    (sel a ≠ 0x02#8 → sel a ≠ 0x03#8 → sel a ≠ 0x05#8 → sel a ≠ 0x06#8 → sel a ≠ 0x07#8 → xlate p m a = a)

/-- Mirrors collapse and translation is idempotent outside video RAM; in video RAM mirrors collapse at one mode (rule R129). -/
def Obligations.MirrorsCollapseAndTranslationIsIdempotent : Prop :=
  ∀ (p : Config.Params) (m : BitVec 3) (a : Word),
    (sel a = 0x02#8 → xlate p m a = xlate p m (a &&& 0xFF03FFFF#32)) ∧
    (sel a = 0x03#8 → xlate p m a = xlate p m (a &&& 0xFF007FFF#32)) ∧
    (sel a = 0x05#8 → xlate p m a = xlate p m (a &&& 0xFF0003FF#32)) ∧
    (sel a = 0x07#8 → xlate p m a = xlate p m (a &&& 0xFF0003FF#32)) ∧
    (sel a = 0x06#8 → xlate p m a = xlate p m (a &&& 0xFF01FFFF#32)) ∧
    (sel a ≠ 0x06#8 → xlate p m (xlate p m a) = xlate p m a)

/-- Linearity (rule R130). Outside video RAM a run inside one selector translates linearly exactly when its offset stays in the
canonical range; in video RAM it does when moreover both ends lie on one side of either bank bound, or the mode's offset is 0.
Every address inside such a run translates linearly too. -/
def Obligations.TranslationIsLinearInsideACanonicalRange : Prop :=
  ∀ (p : Config.Params) (m : BitVec 3) (a : Word) (k : Nat),
    (region a).plain = true → a.toNat / 2 ^ 24 = (a.toNat + k) / 2 ^ 24 →
    (region a ≠ .vram →
      (xlate p m (a + BitVec.ofNat 32 k) = xlate p m a + BitVec.ofNat 32 k ↔
        a.toNat % canonicalSize (region a) + k < canonicalSize (region a)) ∧
      (a.toNat % canonicalSize (region a) + k < canonicalSize (region a) →
        ∀ j ≤ k, xlate p m (a + BitVec.ofNat 32 j) = xlate p m a + BitVec.ofNat 32 j)) ∧
    (region a = .vram → a.toNat % 0x20000 + k < 0x20000 →
      (let v := 0x06000000 + a.toNat % 0x20000
       ((v < p.vbankLo.toNat ↔ v + k < p.vbankLo.toNat) ∧ (v < p.vbankHi.toNat ↔ v + k < p.vbankHi.toNat)) ∨
        (if 3 ≤ m.toNat then p.vbankOffBitmap else p.vbankOffTile) = 0#32) →
      ∀ j ≤ k, xlate p m (a + BitVec.ofNat 32 j) = xlate p m a + BitVec.ofNat 32 j)

/-- Translation keeps alignment to 2 and to 4 for every choice of the open parameters rule R9 allows (rule R131). -/
def Obligations.TranslationKeepsAlignment : Prop :=
  ∀ (p : Config.Params) (m : BitVec 3) (a : Word), p.ok = true →
    (a.toNat % 2 = 0 → (xlate p m a).toNat % 2 = 0) ∧ (a.toNat % 4 = 0 → (xlate p m a).toNat % 4 = 0)

/-- The corner cases of translation (rule R132): no linearity across a selector change, no mask changes the selector, and the
display mode matters for video RAM inside the bank sub-range only. -/
def Obligations.CornerCasesOfTranslation : Prop :=
  ∀ (p : Config.Params) (m k : BitVec 3) (a : Word),
    (xlate p m 0x02FFFFFF#32 = 0x0203FFFF#32 ∧ xlate p m (0x02FFFFFF#32 + 1#32) = 0x03000000#32) ∧
    (∀ mask ∈ [0xFF03FFFF#32, 0xFF007FFF#32, 0xFF0003FF#32, 0xFF01FFFF#32], sel (a &&& mask) = sel a) ∧
    (sel a ≠ 0x06#8 → xlate p m a = xlate p k a) ∧
    (sel a = 0x06#8 → ¬ (p.vbankLo ≤ a &&& 0xFF01FFFF#32 ∧ a &&& 0xFF01FFFF#32 < p.vbankHi) → xlate p m a = xlate p k a)

/-! ### Memory -/

/-- A write to a plain region is read back at the same width; every byte outside the element, and everything else, is as before.
-/
def Obligations.AWriteToAPlainRegionIsReadBack : Prop :=
  ∀ (s : State) (a : Word) (w : Width) (v : Word), s.mem.wf → (region a).plain = true →
    ∃ m, s.memWrite a w v = .next { s with mem := m } ∧
      State.memRead { s with mem := m } a w = (elem w v, { s with mem := m }) ∧
      (∀ x, ¬ inBacking x (s.xlate a) w → m.read x.toNat = s.byteAt x) ∧ m.wf

/-- Elements are little-endian (rule R62): each byte of a write lands at its place, and a 32-bit read of two 16-bit elements has
the one at the lower address in bits 15:0. -/
def Obligations.ElementsAreLittleEndian : Prop :=
  ∀ (s : State) (b : Word) (w : Width) (v lo hi : Word), s.mem.wf →
    (∀ k < w.bytes, (s.backWrite b w v).byteAt (b + BitVec.ofNat 32 k) = v.extractLsb' (8 * k) 8) ∧
    ((s.backWrite b .w16 lo).backWrite (b + 2#32) .w16 hi).backRead b .w32 = hi.extractLsb' 0 16 ++ lo.extractLsb' 0 16

/-- Accesses outside the plain regions (rules R66, R67): an unreadable element is the open-bus value, a write to ROM, to the
open-bus range or to unmapped space is dropped, a device read takes the oracle's next answer (the oracle's form is the model's:
log entry 8) and is recorded, a device write is recorded. -/
def Obligations.AccessesOutsidePlainRegions : Prop :=
  ∀ (s : State) (a : Word) (w : Width) (v : Word),
    (region a = .openBus ∨ region a = .unmapped → s.memRead a w = (elem w s.tr, s)) ∧
    (region a = .openBus ∨ region a = .unmapped ∨ region a = .rom → s.memWrite a w v = .next s) ∧
    (region a = .io ∨ region a = .save →
      let x := elem w (s.devAnswers.headD (Config.deviceValue s.devReads))
      s.memRead a w = (x, { s with
        devAnswers := s.devAnswers.tail, devReads := s.devReads + 1, trace := .devRead a w x :: s.trace }) ∧
      (coversByte isSlotByte a w = false → s.memWrite a w v = .next { s with trace := .devWrite a w v :: s.trace }))

/-- A transfer's write into the register view (rule R301; how the register file stores it is log entry 10): an address slot or a
count slot is stored and the write recorded; a write that touches a control half-word is refused. -/
def Obligations.WritesIntoTheRegisterView : Prop :=
  ∀ (s : State) (c : Channel) (v : Word),
    s.memWrite (slotAddress c 0) .w32 v =
      .next { s with
        view := s.view.set c { s.view.get c with sad := v }, trace := .devWrite (slotAddress c 0) .w32 v :: s.trace } ∧
    s.memWrite (slotAddress c 4) .w32 v =
      .next { s with
        view := s.view.set c { s.view.get c with dad := v }, trace := .devWrite (slotAddress c 4) .w32 v :: s.trace } ∧
    s.memWrite (slotAddress c 8) .w16 v =
      .next { s with
        view := s.view.set c { s.view.get c with cnt := v.extractLsb' 0 16 }
        trace := .devWrite (slotAddress c 8) .w16 v :: s.trace } ∧
    s.memWrite (slotAddress c 8) .w32 v = .refused .controlSlotWrite ∧
    s.memWrite (slotAddress c 10) .w16 v = .refused .controlSlotWrite

/-- A ROM element (rule R68): its bytes are the ROM's bytes from the address on, whatever the block size, and it lies inside one
block, the aligned one around the address. -/
def Obligations.ARomElementIsReadFromOneBlock : Prop :=
  ∀ (s : State) (a : Word) (w : Width), s.params.ok = true → a.toNat % w.bytes = 0 →
    (∀ k < w.bytes, ((s.romElem a w).1).extractLsb' (8 * k) 8 = romRead s.rom (a.toNat + k)) ∧
    elem w (s.romElem a w).1 = (s.romElem a w).1 ∧
    a.toNat % 2 ^ s.params.blockBits + w.bytes ≤ 2 ^ s.params.blockBits ∧
    (s.romElem a w).2 = { s with block := some (BitVec.ofNat 32 (a.toNat - a.toNat % 2 ^ s.params.blockBits)) }

/-- No step changes the contents of ROM or a parameter (rules R9, R68). -/
def Obligations.RomAndParametersNeverChange : Prop :=
  ∀ s t : State, step s = .next t → t.rom = s.rom ∧ t.params = s.params

/-! ### Eligibility and the two paths -/

/-- The conditions of the check (rules R141, R142, R145, R150): the overlap guard is symmetric, rejects a distance of 31 and
passes 32; one element never fails the two end conditions; a fixed destination of several elements always does; a source step that
is not positive is always rejected. -/
def Obligations.ConditionsOfTheEligibilityCheck : Prop :=
  (∀ (s : State) (src dst : Word) (ss ds : StepDir) (n : Nat) (w : Width),
    (dst.toNat < src.toNat + 32 ∧ src.toNat < dst.toNat + 32 → elig s src dst ss ds n w = false) ∧
    (elig s src dst ss ds 1 w = true ↔
      (ss = .inc ∧ srcAllowed src = true ∧ dstAllowed dst = true ∧
        (src.toNat + 32 ≤ dst.toNat ∨ dst.toNat + 32 ≤ src.toNat))) ∧
    (1 < n → n ≤ 0x10000 → elig s src dst ss .fix n w = false) ∧
    (ss ≠ .inc → elig s src dst ss ds n w = false)) ∧
  elig State.reset 0x02000000#32 0x02000020#32 .inc .inc 4 .w32 = true ∧
  elig State.reset 0x02000020#32 0x02000000#32 .inc .inc 4 .w32 = true ∧
  elig State.reset 0x02000000#32 0x0200001F#32 .inc .inc 4 .w32 = false

/-- Outside video RAM the check's test of the two ends is enough (rule R130): an eligible ascending destination that stays inside
one selector is linear throughout, and so is a plain source, whose selector the check tests itself, under premise P1 of rule R147.
(The check does not compare the selectors of the destination run; one that enters video RAM is log entry 14.) -/
def Obligations.EligibleRunsAreLinearOutsideVideoRam : Prop :=
  ∀ (s : State) (src dst : Word) (ds : StepDir) (n : Nat) (w : Width),
    1 ≤ n → n ≤ 0x10000 → elig s src dst .inc ds n w = true → (ds = .inc ∨ n = 1) →
    (region dst ≠ .vram → sel (adv dst (n - 1) w .inc) = sel dst → s.linearRun dst n w) ∧
    ((region src).plain = true → region src ≠ .vram →
      s.xlate (adv src (n - 1) w .inc) = s.xlate src + BitVec.ofNat 32 ((n - 1) * w.bytes) → s.linearRun src n w)

/-- Fast path from RAM and safe path agree (rule R147): under premises P0 and P2 and where both runs are linear in the backing
space (P1 and condition 2, at every element), the single linear copy and the load of `TR` leave exactly the state the element-wise
walk leaves. The copy primitive moves its units in ascending order (rule R70; log entry 23). -/
def Obligations.FastRamPathAgreesWithTheSafePath : Prop :=
  ∀ (s : State) (src dst : Word) (ss ds : StepDir) (n : Nat) (w : Width),
    s.mem.wf → n ≤ 0x10000 → pathOf s src dst n ss ds w = .fastRam →
    (ds = .inc ∨ n = 1) →
    s.linearRun (alignDown src w) n w → s.linearRun (alignDown dst w) n w →
    32 ≤ absDiff (s.xlate (alignDown dst w)) (s.xlate (alignDown src w)) →
    xfer src dst n ss ds w s = .next (fastRam (alignDown src w) (alignDown dst w) n w s)

/-- Fast path from ROM and safe path agree (rules R147, R169): for every block size, copying block by block leaves exactly the
state the element-wise walk leaves. A block is what rule R68 says, and the copy primitive moves its units in ascending order (rule
R70; log entry 23). -/
def Obligations.FastRomPathAgreesWithTheSafePath : Prop :=
  ∀ (s : State) (src dst : Word) (ss ds : StepDir) (n : Nat) (w : Width),
    s.params.ok = true → s.mem.wf → n ≤ 0x10000 → pathOf s src dst n ss ds w = .fastRom →
    (ds = .inc ∨ n = 1) → s.linearRun (alignDown dst w) n w →
    xfer src dst n ss ds w s = .next (fastRom (alignDown src w) (alignDown dst w) n w s)

/-! ### The Bulk Transfer Engine -/

/-- A transfer of no element (rule R162) changes nothing, `TR` included, and issues no request. -/
def Obligations.ATransferOfNoElementDoesNothing : Prop :=
  ∀ (s : State) (src dst : Word) (ss ds : StepDir) (w : Width),
    xfer src dst 0 ss ds w s = .next s ∧ pathOf s src dst 0 ss ds w = .empty ∧
    s.requestCodeInvalidate dst 0 ds w = s

/-- The open-bus pass (rules R163, R165): every destination element gets the pattern taken from `TR`, which is loaded with its
image; no source is read, and neither the source address nor its step matters. That the pattern is the low bits of `TR` is the
default of rule R165, a parameter of the block, which the model takes (log entry 19). -/
def Obligations.OpenBusPassWritesThePattern : Prop :=
  ∀ (s : State) (src dst : Word) (ss ds : StepDir) (n : Nat) (w : Width),
    s.params.ok = true → s.mem.wf → alignDown src w < 0x02000000#32 → n ≠ 0 →
    (mkJob src dst ss ds w s.tr).sparesControl n →
    ∃ t, xfer src dst n ss ds w s = .next t ∧
      (w = .w32 → t.tr = s.tr) ∧ (w = .w16 → t.tr = s.tr.extractLsb' 0 16 ++ s.tr.extractLsb' 0 16) ∧
      (∀ i < n, (region (adv (alignDown dst w) i w ds)).plain = true →
        t.backRead (s.xlate (adv (alignDown dst w) i w ds)) w = elem w s.tr) ∧
      (∀ x, ¬ s.storedBy (mkJob src dst ss ds w s.tr) n x → t.byteAt x = s.byteAt x) ∧
      TransferFrame s t ∧ t.devAnswers = s.devAnswers ∧ t.devReads = s.devReads ∧ t.block = s.block ∧
      ∀ src' ss', alignDown src' w < 0x02000000#32 → xfer src' dst n ss' ds w s = .next t

/-- A transfer changes only destination memory, `TR` and what device accesses touch (rule R173; that a device write may land on an
address or count slot is rule R301 and log entry 10), and every byte outside the destination footprint is as before. The cache
block changes only where a ROM element is read, the oracle moves on only where a device element is, and the record of the ports
grows only where a device is read or written. -/
def Obligations.ATransferLeavesChannelStateAlone : Prop :=
  ∀ (s t : State) (src dst : Word) (ss ds : StepDir) (n : Nat) (w : Width), xfer src dst n ss ds w s = .next t →
    TransferFrame s t ∧
    (∀ x, ¬ s.storedBy (mkJob src dst ss ds w s.tr) n x → t.byteAt x = s.byteAt x) ∧
    ((mkJob src dst ss ds w s.tr).sparesView n → t.view = s.view) ∧
    ((mkJob src dst ss ds w s.tr).readsNone n (fun r => decide (r = .rom)) → t.block = s.block) ∧
    ((mkJob src dst ss ds w s.tr).readsNone n Region.device →
      t.devAnswers = s.devAnswers ∧ t.devReads = s.devReads ∧
      ((∀ i < n, (region ((mkJob src dst ss ds w s.tr).dstAt i)).device = false) → t.trace = s.trace))

/-- The destination footprint as a guest byte range (rule R174): `[dst, dst+n*e)`, `[dst-(n-1)*e, dst+e)` or `[dst, dst+e)`. -/
def Obligations.FootprintIsAGuestByteRange : Prop :=
  ∀ (src dst tr x : Word) (ss ds : StepDir) (n : Nat) (w : Width), 1 ≤ n → n ≤ 0x10000 →
    ((∃ i < n, ((x - (mkJob src dst ss ds w tr).dstAt i).toNat < w.bytes)) ↔
      (x - ((mkJob src dst ss ds w tr).footprint n).1).toNat < ((mkJob src dst ss ds w tr).footprint n).2)

/-- A transfer copies: where source and destination elements are plain, the destination elements share no byte with one another
nor with a source element, the transfer is made, each destination element holds what its source element held, every other byte is
as before, `TR` holds the image of the last element, and nothing else changes: neither the channels, the slots and the outputs nor
the cache block, the device oracle and the record of the ports. -/
def Obligations.ATransferCopiesItsSource : Prop :=
  ∀ (s : State) (src dst : Word) (ss ds : StepDir) (n : Nat) (w : Width),
    let from_ := fun i => adv (alignDown src w) i w ss
    let to_ := fun i => adv (alignDown dst w) i w ds
    s.mem.wf → n ≠ 0 → ¬ alignDown src w < 0x02000000#32 →
    (∀ i < n, (region (from_ i)).plain = true ∧ (region (to_ i)).plain = true) →
    (∀ i < n, ∀ j < n, i ≠ j → elementsApart (s.xlate (to_ i)) (s.xlate (to_ j)) w) →
    (∀ i < n, ∀ j < n, elementsApart (s.xlate (from_ i)) (s.xlate (to_ j)) w) →
    ∃ t, xfer src dst n ss ds w s = .next t ∧
      (∀ i < n, t.backRead (s.xlate (to_ i)) w = s.backRead (s.xlate (from_ i)) w) ∧
      (∀ x, (∀ i < n, ¬ inBacking x (s.xlate (to_ i)) w) → t.byteAt x = s.byteAt x) ∧
      t.tr = rep (s.backRead (s.xlate (from_ (n - 1))) w) w ∧ TransferFrame s t ∧ t.view = s.view ∧
      t.block = s.block ∧ t.trace = s.trace ∧ t.devAnswers = s.devAnswers ∧ t.devReads = s.devReads

/-- `TR` after any transfer that moved an element (rules R27, R170, R172): it is the image of the last element as it was read in
the state all earlier moves left, whether its write was stored, dropped or handed to a device (the open-bus pass, which reads
nothing, has a statement of its own); both halves agree after a 16-bit one; and where the last element was written to a plain
region, `TR` is the image of what now stands there. -/
def Obligations.TheTransferRegisterHoldsTheLastElement : Prop :=
  ∀ (s t : State) (src dst : Word) (ss ds : StepDir) (n : Nat) (w : Width), s.mem.wf → n ≠ 0 →
    xfer src dst n ss ds w s = .next t →
    (¬ alignDown src w < 0x02000000#32 →
      ∃ u, moveFrom (mkJob src dst ss ds w s.tr) 0 (n - 1) s = .next u ∧
        t.tr = rep (u.memRead (adv (alignDown src w) (n - 1) w ss) w).1 w) ∧
    (w = .w16 → t.tr.extractLsb' 16 16 = t.tr.extractLsb' 0 16) ∧
    ((region (adv (alignDown dst w) (n - 1) w ds)).plain = true →
      t.tr = rep (t.backRead (s.xlate (adv (alignDown dst w) (n - 1) w ds)) w) w)

/-! ### The Channel State Machine -/

/-- `CTRL.UPD0` and `CTRL.UPD1` (rules R196, R197): each completes, the control slot holds the new word; handler, flags, cursors,
outputs and all else do not change. -/
def Obligations.UpdatesStoreTheControlWordOnly : Prop :=
  ∀ (c : Channel) (v : Half) (s : State), s.acceptsCmd c →
    exec (.ctrlUpd0 c v) s = .next { s with view := s.view.set c { s.view.get c with ctrl := v } } ∧
    exec (.ctrlUpd1 c v) s = .next { s with view := s.view.set c { s.view.get c with ctrl := v } }

/-- The starts that start nothing (rules R200, R203, R204): external request, v-blank, special timing on channels 0 and 3. Each
completes with the control slot holding the new word and nothing else changed. -/
def Obligations.IgnoredStartsStoreTheControlWordOnly : Prop :=
  ∀ (c : Channel) (v : Half) (s : State),
    let stored := fun d : Channel => { s with view := s.view.set d { s.view.get d with ctrl := v } }
    (s.acceptsCmd c → exec (.startXreq c v) s = .next (stored c)) ∧
    (s.acceptsCmd c → exec (.startVbl c v) s = .next (stored c)) ∧
    (s.acceptsCmd 0 → exec (.startSpc0 v) s = .next (stored 0)) ∧
    (s.acceptsCmd 3 → exec (.startSpc3 v) s = .next (stored 3))

/-- `CTRL.STOP` (rules R193, R198): it completes; the slot holds the new word, the channel's flags are 0 and its handler is
inactive, the shared levels are the OR of the other channels' flags; cursors, the drain request and all else are as before. -/
def Obligations.StopClearsTheChannelAndReevaluatesTheLevels : Prop :=
  ∀ (c : Channel) (v : Half) (s : State), s.acceptsCmd c →
    ∃ b a : Bool,
      (b = true ↔ ∃ d, d ≠ c ∧ (s.chan d).hb = true) ∧ (a = true ↔ ∃ d, d ≠ c ∧ (s.chan d).au = true) ∧
      exec (.ctrlStop c v) s = .next { s with
        view := s.view.set c { s.view.get c with ctrl := v }
        chans := s.chans.set c { s.chans.get c with hb := false, au := false, handler := .inactive }
        forcedIrqMask :=
          setMaskBit (setMaskBit s.forcedIrqMask s.params.forcedBlankBit b) s.params.forcedAudioBit a
        blankingIrqEnabled := b
        trace := .sharedEnables b a :: s.trace }

/-- The shared enables (rule R256): after `updateSharedEnables` the three levels are the OR of the flags and no other bit of the
forced mask, and nothing else but the record of the outputs, has changed. -/
def Obligations.SharedEnablesAreTheOrOfTheFlags : Prop :=
  ∀ s : State, s.params.ok = true →
    let t := s.updateSharedEnables
    (t.forcedIrqMask.testBit s.params.forcedBlankBit = true ↔ ∃ c, (s.chan c).hb = true) ∧
    (t.blankingIrqEnabled = true ↔ ∃ c, (s.chan c).hb = true) ∧
    (t.forcedIrqMask.testBit s.params.forcedAudioBit = true ↔ ∃ c, (s.chan c).au = true) ∧
    (∀ b, b ≠ s.params.forcedBlankBit → b ≠ s.params.forcedAudioBit →
      t.forcedIrqMask.testBit b = s.forcedIrqMask.testBit b) ∧
    ∃ m b e, t = { s with forcedIrqMask := m, blankingIrqEnabled := b, trace := e :: s.trace }

/-- The last holder lowers a shared requirement, a sibling keeps it (rule R257): after a stop, and after the deactivation of a
triggered channel, each level is asserted exactly if another channel holds its flag. -/
def Obligations.OnlyTheLastHolderLowersASharedLevel : Prop :=
  ∀ (c : Channel) (v : Half) (s : State), s.params.ok = true →
    let levels := fun t : State =>
      (t.forcedIrqMask.testBit s.params.forcedBlankBit = true ↔ ∃ d, d ≠ c ∧ (s.chan d).hb = true) ∧
      (t.blankingIrqEnabled = true ↔ ∃ d, d ≠ c ∧ (s.chan d).hb = true) ∧
      (t.forcedIrqMask.testBit s.params.forcedAudioBit = true ↔ ∃ d, d ≠ c ∧ (s.chan d).au = true)
    (s.acceptsCmd c → ∃ t, exec (.ctrlStop c v) s = .next t ∧ levels t) ∧ levels (s.deactivate c)

/-- `CTRL.START.HBL` (rule R201): it completes. From a disallowed source only the control slot changes; else the cursors are the
registers, the blanking flag is set, the handler records the width, the levels are re-evaluated; all else is as before. -/
def Obligations.HblankStartArmsOrIsDropped : Prop :=
  ∀ (c : Channel) (v : Half) (s : State), s.acceptsCmd c →
    (disallowed s.params (s.slots c).sad = true →
      exec (.startHbl c v) s = .next { s with view := s.view.set c { s.view.get c with ctrl := v } }) ∧
    (disallowed s.params (s.slots c).sad = false →
      ∃ a : Bool, (a = true ↔ ∃ d, (s.chan d).au = true) ∧
      exec (.startHbl c v) s = .next { s with
        view := s.view.set c { s.view.get c with ctrl := v }
        chans := s.chans.set c {
          src := (s.slots c).sad, dst := (s.slots c).dad, hb := true, au := (s.chan c).au
          handler := if v.getLsbD 10 then .blankingTrigger32 else .blankingTrigger16 }
        forcedIrqMask :=
          setMaskBit (setMaskBit s.forcedIrqMask s.params.forcedBlankBit true) s.params.forcedAudioBit a
        blankingIrqEnabled := true
        trace := .sharedEnables true a :: s.trace })

/-- `CTRL.START.AUD1` and `CTRL.START.AUD2` (rule R202): each completes. From a disallowed source only the control slot changes,
the drain request included; else the cursors are the registers, the drain request is cleared and released, the audio flag and
handler are set, the levels are re-evaluated; all else is as before. -/
def Obligations.AudioStartArmsOrIsDropped : Prop :=
  ∀ (c : Channel) (v : Half) (s : State), s.acceptsCmd c → (c = 1 ∨ c = 2) →
    let i : Instr := if c = 1 then .startAud1 v else .startAud2 v
    (disallowed s.params (s.slots c).sad = true →
      exec i s = .next { s with view := s.view.set c { s.view.get c with ctrl := v } }) ∧
    (disallowed s.params (s.slots c).sad = false →
      ∃ b : Bool, (b = true ↔ ∃ d, (s.chan d).hb = true) ∧
      exec i s = .next { s with
        view := s.view.set c { s.view.get c with ctrl := v }
        chans := s.chans.set c {
          src := (s.slots c).sad, dst := (s.slots c).dad, hb := (s.chan c).hb, au := true, handler := .audioTrigger }
        drainRequest := false
        drainView := false
        forcedIrqMask :=
          setMaskBit (setMaskBit s.forcedIrqMask s.params.forcedBlankBit b) s.params.forcedAudioBit true
        blankingIrqEnabled := b
        trace := .sharedEnables b true :: .releaseDrain :: s.trace })

/-- `CTRL.START.IMM` on channels 0 to 2 (rule R199): it completes; the transfer is made at once from the started state, with the
cursors already advanced; then the request, the interrupt if asked for, and the deactivation or the no-operation handler; bytes
outside the destination footprint, and all else, are as before. -/
def Obligations.ImmediateStartTransfersAtOnce : Prop :=
  ∀ (c : Channel) (v : Half) (ss : StepDir) (s : State), s.acceptsCmd c → c ≠ 3 → sstep v = some ss →
    (s.immJob c v ss).sparesControl (s.count c) →
    ∃ u t, xfer (s.immSource c) (s.slots c).dad (s.count c) ss (dstep v) (wbits v) (s.immStarted c v ss) = .next u ∧
      exec (.startImm c v) s = .next t ∧ ImmediateResult s u t c v ss u.trace ∧
      (∀ x, ¬ s.storedBy (s.immJob c v ss) (s.count c) x → t.byteAt x = s.byteAt x) ∧
      ((s.immJob c v ss).sparesView (s.count c) →
        t.view = s.view.set c { s.view.get c with ctrl := if ctlRep v then v else clearEn v })

/-- `CTRL.START.IMM` on channel 3 (rules R199, R265), where the host takes no step inside the window (how a run places one there
is log entry 9): the same, with the transfer bracketed by the nesting window, after which the prior nesting policy stands. -/
def Obligations.ImmediateStartOnChannelThreeIsBracketed : Prop :=
  ∀ (v : Half) (ss : StepDir) (s : State), s.acceptsCmd 3 → sstep v = some ss →
    (s.immJob 3 v ss).sparesControl (s.count 3) → ¬ s.hostInWindow (s.count 3) →
    ∃ w u t, w.savedNest = s.nestedIrqEnabled ∧
      xfer (s.immSource 3) (s.slots 3).dad (s.count 3) ss (dstep v) (wbits v)
        { s.immStarted 3 v ss with
          nestedIrqEnabled := true, window := some w, trace := .nestDelivery true :: s.trace } = .next u ∧
      exec (.startImm 3 v) s = .next t ∧
      ImmediateResult s u t 3 v ss (.nestDelivery s.nestedIrqEnabled :: u.trace) ∧
      (∀ x, ¬ s.storedBy (s.immJob 3 v ss) (s.count 3) x → t.byteAt x = s.byteAt x) ∧
      ((s.immJob 3 v ss).sparesView (s.count 3) →
        t.view = s.view.set 3 { s.view.get 3 with ctrl := if ctlRep v then v else clearEn v })

/-- `CTRL.START.IMM` on channel 3 where the host offers a step for the window (rules R265, R266; the form is log entry 9): the
operation stays in service with no element moved, the cursors final, the enable bit still set, nested delivery enabled and the
prior policy saved. -/
def Obligations.TheNestingWindowOpensBeforeTheFirstElement : Prop :=
  ∀ (v : Half) (ss : StepDir) (s : State), s.acceptsCmd 3 → sstep v = some ss → s.hostInWindow (s.count 3) →
    exec (.startImm 3 v) s = .next { s.immStarted 3 v ss with
      nestedIrqEnabled := true
      window := some {
        job := s.immJob 3 v ss, count := s.count 3, index := 0, control := v
        savedNest := s.nestedIrqEnabled, lastImage := s.tr }
      trace := .nestDelivery true :: s.trace }

/-- One element moved in the window and then the rest is the whole rest (rules R75, R266): moving element by element changes
nothing the transfer leaves (the two forms are log entry 9). -/
def Obligations.ElementByElementInTheWindowIsTheWholeTransfer : Prop :=
  ∀ (t : Window) (s : State), s.window = some t → t.index < t.count →
    andThen (advanceWindow t s) (fun u => match u.window with
      | some t' => finishWindow t' u
      | none => .next u) = finishWindow t s

/-- The end of the window (rules R265, R266): where no line is offered for this window any more, whatever waits behind it, and the
rest of the transfer touches no control half-word, the step closes it (log entries 9 and 12); the lines that wait still wait, the
prior nesting policy stands again, `TR` holds the transfer's last element whatever nested steps did after it, and the completion
has been made. -/
def Obligations.TheNestingWindowClosesAndRestoresThePolicy : Prop :=
  ∀ (t : Window) (s : State), s.window = some t → ¬ s.hostInWindow t.count → t.index ≤ t.count →
    t.job.sparesControl t.count →
    ∃ u r, moveFrom t.job t.index (t.count - t.index) s = .next u ∧ step s = .next r ∧
      r.window = none ∧ r.script = s.script ∧ r.nestedIrqEnabled = t.savedNest ∧ r.mem = u.mem ∧ r.block = u.block ∧
      r.devAnswers = u.devAnswers ∧ r.devReads = u.devReads ∧
      r.irqPending = pendingAfter s.irqPending 3 (ctlIrq t.control) ∧
      r.trace = completionEvents 3 (ctlIrq t.control) (mkJob t.job.src t.job.dst t.job.srcStep t.job.dstStep t.job.width 0#32)
        t.count ++ .nestDelivery t.savedNest :: u.trace ∧
      (∀ p, t.job.pattern = some p → r.tr = rep p t.job.width) ∧
      (t.job.pattern = none → r.tr = if t.index < t.count then u.tr else t.lastImage) ∧
      r.chans = s.chans.set 3 { s.chans.get 3 with
        handler := if ctlRep t.control then .immediateCompleted else .inactive } ∧
      (∀ c, (r.slots c).ctrl =
        if c = 3 ∧ ctlRep t.control = false then clearEn (s.slots 3).ctrl else (s.slots c).ctrl)

/-- Source control 3 (rule R104): an immediate start and a triggered transfer are refused; every operation that makes no transfer
stores the word like any other and completes. -/
def Obligations.SourceControlThreeIsRefusedByTransfersOnly : Prop :=
  ∀ (c : Channel) (v : Half) (w : Width) (s : State),
    (s.acceptsCmd c → ctlSrc v = 3#2 → exec (.startImm c v) s = .refused .srcCtlIllegal) ∧
    (ctlSrc (s.slots c).ctrl = 3#2 → periodic c w s = .refused .srcCtlIllegal) ∧
    (ctlSrc v = 3#2 → ∀ i ∈ ([.ctrlUpd0 c v, .ctrlUpd1 c v, .ctrlStop c v, .startXreq c v, .startVbl c v,
        .startHbl c v] : List Instr),
      s.acceptsCmd c → ∃ t, exec i s = .next t ∧ (t.slots c).ctrl = v) ∧
    (ctlSrc v = 3#2 → (s.initialised = true ∧ s.window = none) →
      (∃ t, exec (.startSpc0 v) s = .next t ∧ (t.slots 0).ctrl = v) ∧
      (∃ t, exec (.startAud1 v) s = .next t ∧ (t.slots 1).ctrl = v) ∧
      (∃ t, exec (.startAud2 v) s = .next t ∧ (t.slots 2).ctrl = v) ∧
      (∃ t, exec (.startSpc3 v) s = .next t ∧ (t.slots 3).ctrl = v))

/-! ### Triggered transfers -/

/-- `PERIODIC` (rules R232, R234, R239): one transfer from the cursors as they were (the destination from the register under
reload), with the cursors advanced first, at the width given; then the request, the interrupt and, without repeat, the
deactivation. -/
def Obligations.OneTriggerIsOneTransfer : Prop :=
  ∀ (c : Channel) (w : Width) (ss : StepDir) (s : State), sstep (s.slots c).ctrl = some ss →
    (s.triggerJob c w ss).sparesControl (s.count c) →
    let k := (s.slots c).ctrl
    let dst := if ctlDst k = 3#2 then (s.slots c).dad else (s.chan c).dst
    let started := { s with chans := s.chans.set c { s.chans.get c with
      src := adv (s.chan c).src (s.count c) w ss
      dst := if ctlDst k = 3#2 then (s.slots c).dad else adv (s.chan c).dst (s.count c) w (dstep k) } }
    ∃ u t, xfer (s.chan c).src dst (s.count c) ss (dstep k) w started = .next u ∧ periodic c w s = .next t ∧
      t.mem = u.mem ∧ t.tr = u.tr ∧ t.chan c = s.triggeredChan c w ss ∧
      (∀ d, d ≠ c → t.chan d = s.chan d) ∧
      (t.slots c = { u.slots c with ctrl := s.triggeredCtrl c }) ∧ (∀ d, d ≠ c → t.slots d = u.slots d) ∧
      t.irqPending = pendingAfter s.irqPending c (ctlIrq k) ∧
      (ctlRep k = true → t.trace = completionEvents c (ctlIrq k) (s.triggerJob c w ss) (s.count c) ++ u.trace ∧
        t.forcedIrqMask = s.forcedIrqMask ∧ t.blankingIrqEnabled = s.blankingIrqEnabled) ∧
      (ctlRep k = false → ∃ b a, t.trace = .sharedEnables b a ::
          (completionEvents c (ctlIrq k) (s.triggerJob c w ss) (s.count c) ++ u.trace) ∧
        (b = true ↔ ∃ d, d ≠ c ∧ (s.chan d).hb = true) ∧ t.blankingIrqEnabled = b) ∧
      t.drainRequest = s.drainRequest ∧ t.nestedIrqEnabled = s.nestedIrqEnabled ∧ t.window = s.window

/-- `TRIG.HBLANK` (rules R230, R231, R235): the channels are served one after another in ascending order (an order the model takes
from decision D17, log entry 21), each by its handler when its turn comes: `PERIODIC` at the width a blanking handler records,
nothing for any other. Where no transfer of the strobe stores to the register view, it completes; every channel whose handler is a
blanking one makes exactly one transfer and has the record and control slot rules R232 and R234 give; every other channel is as
before; the drain request is not touched. (A transfer that stores to address or count slots changes what later channels read: the
first two clauses say that form.) -/
def Obligations.HblankServesEveryBlankingChannelOnce : Prop :=
  ∀ s : State, s.initialised = true →
    exec .trigHblank s =
      andThen (andThen (andThen (hblankChannel 0 s) (hblankChannel 1)) (hblankChannel 2)) (hblankChannel 3) ∧
    (∀ c u, hblankChannel c u = match hblankServes (u.chan c).handler with
      | some w => periodic c w u
      | none => .next u) ∧
    (s.canServe hblankServes →
      ∃ t1 t2 t3 t, hblankChannel 0 s = .next t1 ∧ hblankChannel 1 t1 = .next t2 ∧ hblankChannel 2 t2 = .next t3 ∧
        hblankChannel 3 t3 = .next t ∧ exec .trigHblank s = .next t ∧ StrobeResult hblankServes s t ∧
        t.drainRequest = s.drainRequest ∧ t.drainView = s.drainView ∧
        (s.params.ok = true → s.LevelsOk → t.LevelsOk) ∧
        ((∀ c, hblankServes (s.chan c).handler = none) → t = s))

/-- `TRIG.AUDIO` (rules R230, R231, R236). Without an audio-armed channel nothing happens, the flag included; with one and no
request only the acquire does (the block's own view of the flag is log entry 15); with one and a request the flag is cleared and
released, and then the channels are served in ascending order (decision D17, log entry 21), an audio-armed one by `PERIODIC` at 32
bits, any other by nothing. Where no transfer of the strobe stores to the register view, it completes; every audio-armed channel
makes exactly one transfer and has the record and control slot rules R232 and R234 give. (A transfer that stores to address or
count slots changes what later channels read: the clauses before say that form.) -/
def Obligations.AudioServesEveryAudioChannelOnARequest : Prop :=
  ∀ s : State, s.initialised = true →
    ((∀ c, (s.chan c).handler ≠ .audioTrigger) → exec .trigAudio s = .next s) ∧
    ((∃ c, (s.chan c).handler = .audioTrigger) → s.drainRequest = false →
      exec .trigAudio s = .next { s with drainView := false, trace := .acquireDrain :: s.trace }) ∧
    (∀ c u, audioChannel c u = match audioServes (u.chan c).handler with
      | some w => periodic c w u
      | none => .next u) ∧
    ((∃ c, (s.chan c).handler = .audioTrigger) → s.drainRequest = true →
      let s0 := { s with
        drainRequest := false, drainView := false, trace := .releaseDrain :: .acquireDrain :: s.trace }
      exec .trigAudio s =
        andThen (andThen (andThen (audioChannel 0 s0) (audioChannel 1)) (audioChannel 2)) (audioChannel 3) ∧
      (s.canServe audioServes →
        ∃ t1 t2 t3 t, audioChannel 0 s0 = .next t1 ∧ audioChannel 1 t1 = .next t2 ∧ audioChannel 2 t2 = .next t3 ∧
          audioChannel 3 t3 = .next t ∧ exec .trigAudio s = .next t ∧ StrobeResult audioServes s t ∧
          t.drainRequest = false ∧ t.drainView = false ∧ (s.params.ok = true → s.LevelsOk → t.LevelsOk)))

/-- `TRIG.VBLANK` (rule R237): it completes and changes nothing. -/
def Obligations.VblankChangesNothing : Prop :=
  ∀ s : State, s.initialised = true → exec .trigVblank s = .next s

/-! ### Interrupts, cursors, the drain request -/

/-- The pending mask (rules R253, R254): no operation clears a bit, and a bit is set only by an immediate start, or by a strobe
that finds the channel armed for it, of the channel whose bit it is and whose control word asks for the interrupt. -/
def Obligations.OnlyCompletedTransfersRaiseInterrupts : Prop :=
  ∀ (i : Instr) (s t : State), exec i s = .next t →
    (∀ b, s.irqPending.getLsbD b = true → t.irqPending.getLsbD b = true) ∧
    (∀ b, t.irqPending.getLsbD b = true → s.irqPending.getLsbD b = false →
      ∃ c : Channel, b = 8 + c.val ∧
        ((∃ v, i = .startImm c v ∧ ctlIrq v = true) ∨
         (i = .trigHblank ∧ (hblankServes (s.chan c).handler).isSome = true ∧ ctlIrq (s.slots c).ctrl = true) ∨
         (i = .trigAudio ∧ (audioServes (s.chan c).handler).isSome = true ∧ ctlIrq (s.slots c).ctrl = true)))

/-- The cursors of a channel (rules R21 to R23): only a start of the channel, a strobe that finds it armed and `INIT` write them;
a control-register write that leaves the enable bit unchanged and a host write of a slot do not. -/
def Obligations.OnlyStartsAndTriggersMoveTheCursors : Prop :=
  (∀ (i : Instr) (s t : State) (c : Channel), exec i s = .next t →
    ((t.chan c).src ≠ (s.chan c).src ∨ (t.chan c).dst ≠ (s.chan c).dst) →
      (∃ v, i = .startImm c v) ∨ (∃ v, i = .startHbl c v) ∨ (c = 1 ∧ ∃ v, i = .startAud1 v) ∨
      (c = 2 ∧ ∃ v, i = .startAud2 v) ∨ i = .init ∨
      (i = .trigHblank ∧ (hblankServes (s.chan c).handler).isSome = true) ∨
      (i = .trigAudio ∧ (audioServes (s.chan c).handler).isSome = true)) ∧
  (∀ (ra : Word) (v : Half) (c : Channel) (s t : State), decodeRa ra = .ok c → ctlEn v = ctlEn (s.slots c).ctrl →
    serveCmd ra v s = .next t → t.chans = s.chans) ∧
  (∀ (c : Channel) (a : Word) (n : Half) (s t : State),
    (serve (.sadw c a) s = .next t ∨ serve (.dadw c a) s = .next t ∨ serve (.cntw c n) s = .next t) → t.chans = s.chans)

/-- The drain request (rules R260, R263): no operation sets it, and it is cleared in two places only, an audio start from an
allowed source and an audio strobe that finds an audio-armed channel and the request set; the producer's step sets it and touches
nothing else. -/
def Obligations.TheDrainRequestIsClearedInTwoPlaces : Prop :=
  (∀ (i : Instr) (s t : State), exec i s = .next t →
    (s.drainRequest = false → t.drainRequest = false) ∧
    (s.drainRequest = true → t.drainRequest = false →
      (i = .trigAudio ∧ ∃ c, (s.chan c).handler = .audioTrigger) ∨
      (∃ v, i = .startAud1 v ∧ disallowed s.params (s.slots 1).sad = false) ∨
      (∃ v, i = .startAud2 v ∧ disallowed s.params (s.slots 2).sad = false))) ∧
  (∀ s : State, serve .drainSet s = .next { s with drainRequest := true })

/-! ### Reset, the host, runs -/

/-- `INIT` (rules R290, R291, R292): it completes at any time outside a nesting window, from an initialised block or not: all
cursors zero, no channel armed, the flags 0, the three levels low; `TR`, the register view, the pending mask, the nesting policy,
the drain request and memory are not written. -/
def Obligations.InitResetsTheChannelsAndNothingElse : Prop :=
  ∀ s : State, s.window = none →
    exec .init s = .next { s with
      initialised := true
      chans := Quad.all { src := 0#32, dst := 0#32, handler := .inactive, hb := false, au := false }
      forcedIrqMask :=
        setMaskBit (setMaskBit s.forcedIrqMask s.params.forcedBlankBit false) s.params.forcedAudioBit false
      blankingIrqEnabled := false
      trace := .sharedEnables false false :: s.trace }

/-- What is refused (rules R109, R266, R294): any operation but `INIT` before the first `INIT`; inside the nesting window a `CMD`
for channel 3, `INIT`, a change of the display mode, and a host write of any width, to memory or to an address or count slot, that
touches the source range or the destination range of the transfer in flight (every byte of an element belongs to its range; that a
byte does too through a mirror is log entry 17); a `CMD` whose address is no control slot; a malformed event vector. A 16-bit
store to a control half-word is a `CMD` and no such write, and so is the upper half of a 32-bit one (rule R300). -/
def Obligations.WhatIsRefused : Prop :=
  ∀ s : State,
    (s.initialised = false → ∀ i, i ≠ .init → exec i s = .refused .notInitialised) ∧
    (∀ t, s.window = some t → s.initialised = true →
      (∀ e v, exec (decodeDw (decodeWord 3 e v)) s = .refused .nestedChannel3) ∧
      exec .init s = .refused .initInWindow ∧
      (∀ m, m ≠ s.dispMode → serve (.dispMode m) s = .refused .windowStep) ∧
      (∀ i < t.count, ∀ k < t.job.width.bytes,
        inFlight s t (t.job.dstAt i + BitVec.ofNat 32 k) = true ∧
        (t.job.pattern = none → inFlight s t (t.job.srcAt i + BitVec.ofNat 32 k) = true)) ∧
      (∀ x b, inFlight s t x = true → serve (.memw8 x b) s = .refused .windowStep) ∧
      (∀ a v, (∀ c, alignDown a .w16 ≠ ctrlAddress c) → s.touchesFlight t (alignDown a .w16) 2 →
        serve (.memw16 a v) s = .refused .windowStep) ∧
      (∀ a v, (∀ c, alignDown a .w32 + 2#32 ≠ ctrlAddress c) → s.touchesFlight t (alignDown a .w32) 4 →
        serve (.memw32 a v) s = .refused .windowStep) ∧
      (∀ c x, s.touchesFlight t (slotAddress c 0) 4 → serve (.sadw c x) s = .refused .windowStep) ∧
      (∀ c x, s.touchesFlight t (slotAddress c 4) 4 → serve (.dadw c x) s = .refused .windowStep) ∧
      (∀ c n v, s.touchesFlight t (slotAddress c 8) 2 →
        serve (.cntw c n) s = .refused .windowStep ∧ serve (.memw32 (slotAddress c 8) v) s = .refused .windowStep)) ∧
    (∀ ra v e, decodeRa ra = .error e → serve (.cmd ra v) s = .refused .notAControlSlot) ∧
    (∀ x e, decodeEv x = .error e → serve (.ev x) s = .refused .badEventVector)

/-- The host's stores to the control half-word (rule R300; log entry 16), outside the nesting window: a 16-bit store is a `CMD`, a
32-bit store over count and control is the count store and then a `CMD`, a byte store that changes bit 15 is refused and one that
does not is a plain write of the slot. -/
def Obligations.HostStoresToAControlHalfWord : Prop :=
  ∀ (c : Channel) (s : State), s.window = none →
    (∀ v, serve (.memw16 (ctrlAddress c) v) s = serve (.cmd (ctrlAddress c) v) s) ∧
    (∀ v : Word, serve (.memw32 (ctrlAddress c - 2#32) v) s =
      serve (.cmd (ctrlAddress c) (v.extractLsb' 16 16))
        { s with view := s.view.set c { s.view.get c with cnt := v.extractLsb' 0 16 } }) ∧
    (∀ b, serve (.memw8 (ctrlAddress c) b) s = .next { s with
      view := s.view.set c { s.view.get c with ctrl := (s.view.get c).ctrl.extractLsb' 8 8 ++ b } }) ∧
    (∀ b : Byte, (b.getLsbD 7 = ctlEn (s.slots c).ctrl →
        serve (.memw8 (ctrlAddress c + 1#32) b) s = .next { s with
          view := s.view.set c { s.view.get c with ctrl := b ++ (s.view.get c).ctrl.extractLsb' 0 8 } }) ∧
      (b.getLsbD 7 ≠ ctlEn (s.slots c).ctrl →
        serve (.memw8 (ctrlAddress c + 1#32) b) s = .refused .controlByteStore))

/-- The host's stores elsewhere (rules R19, R28, R29; their form is log entry 16), between operations, and inside the nesting
window where they stay off the transfer in flight: a store to a plain region lands, aligned down, at the translated address and
changes nothing else; `SADW`, `DADW` and `CNTW` write their slot and nothing else, and the store of the slot's own width at its
address does the same; the store of any one byte of an address or count slot, or of either half of an address slot, changes that
byte or half and nothing else; a store that lands neither in a plain region nor on the register view changes nothing the model
holds. -/
def Obligations.HostStoresLandWhereTheyAreAddressed : Prop :=
  ∀ s : State,
    (∀ a b, (region a).plain = true → s.storeFree a 1 →
      serve (.memw8 a b) s = .next { s with mem := s.mem.write (s.xlate a).toNat b }) ∧
    (∀ a v, (region a).plain = true → s.storeFree (alignDown a .w16) 2 →
      serve (.memw16 a v) s = .next (s.backWrite (s.xlate (alignDown a .w16)) .w16 (v.zeroExtend 32))) ∧
    (∀ a v, (region a).plain = true → s.storeFree (alignDown a .w32) 4 →
      serve (.memw32 a v) s = .next (s.backWrite (s.xlate (alignDown a .w32)) .w32 v)) ∧
    (∀ c x, s.storeFree (slotAddress c 0) 4 →
      serve (.sadw c x) s = .next { s with view := s.view.set c { s.view.get c with sad := x } } ∧
      serve (.memw32 (slotAddress c 0) x) s = serve (.sadw c x) s) ∧
    (∀ c x, s.storeFree (slotAddress c 4) 4 →
      serve (.dadw c x) s = .next { s with view := s.view.set c { s.view.get c with dad := x } } ∧
      serve (.memw32 (slotAddress c 4) x) s = serve (.dadw c x) s) ∧
    (∀ c n, s.storeFree (slotAddress c 8) 2 →
      serve (.cntw c n) s = .next { s with view := s.view.set c { s.view.get c with cnt := n } } ∧
      serve (.memw16 (slotAddress c 8) n) s = serve (.cntw c n) s) ∧
    (∀ c b, ∀ k < 4, s.storeFree (slotAddress c k) 1 →
      ∃ x, serve (.memw8 (slotAddress c k) b) s = .next { s with view := s.view.set c { s.view.get c with sad := x } } ∧
        ∀ j < 4, x.extractLsb' (8 * j) 8 = if j = k then b else (s.view.get c).sad.extractLsb' (8 * j) 8) ∧
    (∀ c b, ∀ k < 4, s.storeFree (slotAddress c (4 + k)) 1 →
      ∃ x, serve (.memw8 (slotAddress c (4 + k)) b) s = .next { s with view := s.view.set c { s.view.get c with dad := x } } ∧
        ∀ j < 4, x.extractLsb' (8 * j) 8 = if j = k then b else (s.view.get c).dad.extractLsb' (8 * j) 8) ∧
    (∀ c b, ∀ k < 2, s.storeFree (slotAddress c (8 + k)) 1 →
      ∃ x, serve (.memw8 (slotAddress c (8 + k)) b) s = .next { s with view := s.view.set c { s.view.get c with cnt := x } } ∧
        ∀ j < 2, x.extractLsb' (8 * j) 8 = if j = k then b else (s.view.get c).cnt.extractLsb' (8 * j) 8) ∧
    (∀ c v, s.storeFree (slotAddress c 0) 2 →
      serve (.memw16 (slotAddress c 0) v) s = .next { s with
        view := s.view.set c { s.view.get c with sad := (s.view.get c).sad.extractLsb' 16 16 ++ v } }) ∧
    (∀ c v, s.storeFree (slotAddress c 2) 2 →
      serve (.memw16 (slotAddress c 2) v) s = .next { s with
        view := s.view.set c { s.view.get c with sad := v ++ (s.view.get c).sad.extractLsb' 0 16 } }) ∧
    (∀ c v, s.storeFree (slotAddress c 4) 2 →
      serve (.memw16 (slotAddress c 4) v) s = .next { s with
        view := s.view.set c { s.view.get c with dad := (s.view.get c).dad.extractLsb' 16 16 ++ v } }) ∧
    (∀ c v, s.storeFree (slotAddress c 6) 2 →
      serve (.memw16 (slotAddress c 6) v) s = .next { s with
        view := s.view.set c { s.view.get c with dad := v ++ (s.view.get c).dad.extractLsb' 0 16 } }) ∧
    (∀ a b, (region a).plain = false → isSlotByte a = false → s.storeFree a 1 → serve (.memw8 a b) s = .next s) ∧
    (∀ a v, (region a).plain = false → coversByte isSlotByte (alignDown a .w16) .w16 = false →
      s.storeFree (alignDown a .w16) 2 → serve (.memw16 a v) s = .next s) ∧
    (∀ a v, (region a).plain = false → coversByte isSlotByte (alignDown a .w32) .w32 = false →
      s.storeFree (alignDown a .w32) 4 → serve (.memw32 a v) s = .next s)

/-- A step runs the operation offered (that a run is a script in State is log entry 1): the next line of the run is taken off and
its operation executed, between operations whatever place it names, inside the nesting window when its element index has come. -/
def Obligations.AStepRunsTheOperationOffered : Prop :=
  ∀ (s : State) (k : Option Nat) (rest : List Offer) (c : Channel) (v : Half) (e : BitVec 4) (i : Instr),
    (s.window = none ∨ ∃ t j, s.window = some t ∧ k = some j ∧ j ≤ t.index) →
    (s.script = ⟨k, .cmd (ctrlAddress c) v⟩ :: rest →
      step s = exec (decodeDw (decodeWord c (ctlEn (s.slots c).ctrl) v)) { s with script := rest }) ∧
    (s.script = ⟨k, .ev e⟩ :: rest → decodeEv e = .ok i → step s = exec i { s with script := rest })

/-- The machine placed before a word of the opcode table (log entry 1) runs the operation that word encodes, in the state as it
was but for the control slot's enable bit, which is the word's `E_old`. -/
def Obligations.AStepRunsTheTableWord : Prop :=
  ∀ s : State,
    (∀ d : BitVec 19, step (s.withFetchWord 24 d.toNat) =
      exec (decodeDw d) (s.setCtrl (dwChannel d) (withEn (s.slots (dwChannel d)).ctrl (d.getLsbD 16)))) ∧
    (∀ (e : BitVec 4) (i : Instr), decodeEv e = .ok i → step (s.withFetchWord 8 e.toNat) = exec i s) ∧
    (∀ d : BitVec 19, ctlEn (withEn (s.slots (dwChannel d)).ctrl (d.getLsbD 16)) = d.getLsbD 16)

/-- A line that is not due waits, and the transfer goes on meanwhile (rules R11, R266, R268; the form is log entries 9 and 11;
when an open-bus pass loads `TR` is log entry 12). Inside the window a step leaves the lines of the run as they are while the next
one is not due. It moves exactly one element while the next line is for this window and a later element; it ends the operation
once no line is for this window. With no line offered and nothing in service a step leaves the whole machine as it is. -/
def Obligations.ALineThatIsNotDueWaits : Prop :=
  ∀ (s : State) (o : Offer) (rest : List Offer) (t : Window),
    (s.window = some t → s.script = o :: rest → o.due t = false → ∀ r, step s = .next r → r.script = o :: rest) ∧
    (s.window = some t → s.script = o :: rest → (∃ k, o.inWindow = some k ∧ t.index < k ∧ k ≤ t.count) →
      step s = advanceWindow t s ∧
      ∀ u, moveOne t.job t.index s = .next u → step s = .next { u with
        window := some { t with
          index := t.index + 1
          lastImage := match t.job.pattern with
            | some p => rep p t.job.width
            | none => u.tr } }) ∧
    (s.window = some t → ¬ s.hostInWindow t.count → t.index ≤ t.count → step s = finishWindow t s) ∧
    (s.window = none → s.script = [] → step s = .next s)

/-! ### Invariants -/

/-- Reset meets the invariant. -/
def Obligations.ResetMeetsTheInvariant : Prop := State.reset.Inv

/-- What the invariant says of a channel (rules R32, R33): an active handler only on an enabled channel, at most one flag. -/
def Obligations.TheInvariantGivesRulesR32AndR33 : Prop :=
  ∀ (s : State) (c : Channel), s.Inv →
    ((s.chan c).handler ≠ .inactive → (s.slots c).ctrl.getLsbD 15 = true) ∧
    ¬ ((s.chan c).hb = true ∧ (s.chan c).au = true)

/-- Every step keeps the invariant, whatever is offered (rules R32 to R35): an active handler only on an enabled channel, each
flag what the handler says, the levels the OR of the flags, the memory canonical, a nesting window within its bounds with nested
delivery enabled. -/
def Obligations.EveryStepKeepsTheInvariant : Prop :=
  ∀ s t : State, s.Inv → step s = .next t → t.Inv
end

