-- ==== Sys2Proof/Laws/Memory.lean ====
section
/-! SUPPORT. The laws of backing memory: a read after a write, and that a write keeps the canonical form. -/

namespace Sys2Proof.Machine

/-- A write leaves every other byte alone, in any memory. -/
theorem Memory.read_write_other (m : Memory) {a b : Nat} (h : b ≠ a) (v : Byte) :
    (Memory.write m a v).read b = m.read b := by
  induction m with
  | nil =>
    unfold Memory.write
    split
    · rfl
    · simp [Memory.read, Ne.symm h]
  | cons c m ih =>
    obtain ⟨k, x⟩ := c
    simp only [Memory.write]
    split
    · simp only [Memory.read, ih]
    · split
      · rename_i hk; subst hk
        split <;> simp [Memory.read, Ne.symm h]
      · split
        · rfl
        · simp [Memory.read, Ne.symm h]

/-- An address below every listed one reads as an unlisted byte. -/
theorem Memory.read_unlisted {m : Memory} {a : Nat} (h : ∀ c ∈ m, c.1 ≠ a) : m.read a = unlistedByte := by
  induction m with
  | nil => rfl
  | cons c m ih =>
    obtain ⟨k, x⟩ := c
    simp only [Memory.read]
    rw [if_neg (h (k, x) (by simp))]
    exact ih fun c hc => h c (by simp [hc])

/-- A canonical memory reads, after a write, the byte written. -/
theorem Memory.read_write_same {m : Memory} (hm : m.wf) (a : Nat) (v : Byte) : (Memory.write m a v).read a = v := by
  obtain ⟨hs, -⟩ := hm
  induction m with
  | nil =>
    unfold Memory.write
    split
    · rename_i h; simp [Memory.read, h]
    · simp [Memory.read]
  | cons c m ih =>
    obtain ⟨k, x⟩ := c
    rw [List.pairwise_cons] at hs
    simp only [Memory.write]
    split
    · rename_i hk
      simp only [Memory.read]
      rw [if_neg (Nat.ne_of_lt hk)]
      exact ih hs.2
    · rename_i hk
      split
      · rename_i he; subst he
        split
        · rename_i hv
          rw [hv]
          exact Memory.read_unlisted fun c hc => Nat.ne_of_gt (hs.1 c hc)
        · simp [Memory.read]
      · rename_i he
        split
        · rename_i hv
          rw [hv]
          refine Memory.read_unlisted fun c hc => ?_
          rcases List.mem_cons.1 hc with rfl | hc
          · exact he
          · have := hs.1 c hc
            simp only at this
            omega
        · simp [Memory.read]

/-- What is listed after a write: the byte written, or what was listed. -/
theorem Memory.mem_write {m : Memory} {a : Nat} {v : Byte} {c : Host.Cell} (h : c ∈ Memory.write m a v) :
    (c = (a, v) ∧ v ≠ unlistedByte) ∨ c ∈ m := by
  induction m with
  | nil =>
    unfold Memory.write at h
    split at h
    · cases h
    · rename_i hv
      simp only [List.mem_singleton] at h
      exact .inl ⟨h, hv⟩
  | cons d m ih =>
    obtain ⟨k, x⟩ := d
    simp only [Memory.write] at h
    split at h
    · rcases List.mem_cons.1 h with rfl | h
      · exact .inr (by simp)
      · rcases ih h with h | h
        · exact .inl h
        · exact .inr (by simp [h])
    · split at h
      · split at h
        · exact .inr (by simp [h])
        · rename_i hv
          rcases List.mem_cons.1 h with rfl | h
          · exact .inl ⟨rfl, hv⟩
          · exact .inr (by simp [h])
      · split at h
        · exact .inr h
        · rename_i hv
          rcases List.mem_cons.1 h with rfl | h
          · exact .inl ⟨rfl, hv⟩
          · exact .inr h

/-- A write of a byte of the 32-bit backing space keeps the canonical form. -/
theorem Memory.write_wf {m : Memory} (hm : m.wf) {a : Nat} (ha : a < 2 ^ 32) (v : Byte) : (Memory.write m a v).wf := by
  refine ⟨?_, ?_⟩
  · obtain ⟨hs, -⟩ := hm
    induction m with
    | nil =>
      unfold Memory.write
      split <;> simp
    | cons d m ih =>
      obtain ⟨k, x⟩ := d
      have hd := List.pairwise_cons.1 hs
      simp only [Memory.write]
      split
      · rename_i hk
        refine List.pairwise_cons.2 ⟨fun c hc => ?_, ih hd.2⟩
        rcases Memory.mem_write hc with ⟨rfl, -⟩ | hc
        · exact hk
        · exact hd.1 c hc
      · rename_i hk
        split
        · rename_i he; subst he
          split
          · exact hd.2
          · exact List.pairwise_cons.2 ⟨hd.1, hd.2⟩
        · rename_i he
          split
          · exact hs
          · refine List.pairwise_cons.2 ⟨fun c hc => ?_, hs⟩
            rcases List.mem_cons.1 hc with rfl | hc
            · show a < k
              omega
            · have := hd.1 c hc
              simp only at this ⊢
              omega
  · intro c hc
    rcases Memory.mem_write hc with ⟨rfl, hv⟩ | hc
    · exact ⟨ha, hv⟩
    · exact hm.2 c hc

end Sys2Proof.Machine
end

