-- ==== Sys2Proof/Laws/State.lean ====
section
/-! SUPPORT. The bank of four, and one lemma per field per update of State, each true by rfl: later proofs never unfold a record
update. -/

namespace Sys2Proof

@[simp] theorem Quad.get_set_same {α : Type} (q : Quad α) (c : Channel) (x : α) : (q.set c x).get c = x := by
  match c with
  | 0 => rfl
  | 1 => rfl
  | 2 => rfl
  | 3 => rfl

@[simp] theorem Quad.get_set_other {α : Type} (q : Quad α) {c d : Channel} (h : d ≠ c) (x : α) :
    (q.set c x).get d = q.get d := by
  match c, d with
  | 0, 0 => exact absurd rfl h
  | 0, 1 => rfl
  | 0, 2 => rfl
  | 0, 3 => rfl
  | 1, 0 => rfl
  | 1, 1 => exact absurd rfl h
  | 1, 2 => rfl
  | 1, 3 => rfl
  | 2, 0 => rfl
  | 2, 1 => rfl
  | 2, 2 => exact absurd rfl h
  | 2, 3 => rfl
  | 3, 0 => rfl
  | 3, 1 => rfl
  | 3, 2 => rfl
  | 3, 3 => exact absurd rfl h

theorem Quad.get_set {α : Type} (q : Quad α) (c d : Channel) (x : α) :
    (q.set c x).get d = if d = c then x else q.get d := by
  by_cases h : d = c
  · subst h; simp
  · simp [h]

@[simp] theorem Quad.set_set {α : Type} (q : Quad α) (c : Channel) (x y : α) : (q.set c x).set c y = q.set c y := by
  match c with
  | 0 => rfl
  | 1 => rfl
  | 2 => rfl
  | 3 => rfl

@[simp] theorem Quad.set_get {α : Type} (q : Quad α) (c : Channel) : q.set c (q.get c) = q := by
  match c with
  | 0 => rfl
  | 1 => rfl
  | 2 => rfl
  | 3 => rfl

@[simp] theorem Quad.get_all {α : Type} (x : α) (c : Channel) : (Quad.all x).get c = x := by
  match c with
  | 0 => rfl
  | 1 => rfl
  | 2 => rfl
  | 3 => rfl

theorem Quad.ext_get {α : Type} {p q : Quad α} (h : ∀ c, p.get c = q.get c) : p = q := by
  cases p; cases q
  simp only [Quad.mk.injEq]
  exact ⟨h 0, h 1, h 2, h 3⟩

namespace Machine

theorem State.chan_def (s : State) (c : Channel) : s.chan c = s.chans.get c := rfl
theorem State.slots_def (s : State) (c : Channel) : s.slots c = s.view.get c := rfl

@[simp] theorem State.setChan_params (s : State) (c : Channel) (x : Chan) : (s.setChan c x).params = s.params := rfl
@[simp] theorem State.setChan_initialised (s : State) (c : Channel) (x : Chan) : (s.setChan c x).initialised = s.initialised := rfl
@[simp] theorem State.setChan_chans (s : State) (c : Channel) (x : Chan) : (s.setChan c x).chans = s.chans.set c x := rfl
@[simp] theorem State.setChan_view (s : State) (c : Channel) (x : Chan) : (s.setChan c x).view = s.view := rfl
@[simp] theorem State.setChan_tr (s : State) (c : Channel) (x : Chan) : (s.setChan c x).tr = s.tr := rfl
@[simp] theorem State.setChan_mem (s : State) (c : Channel) (x : Chan) : (s.setChan c x).mem = s.mem := rfl
@[simp] theorem State.setChan_rom (s : State) (c : Channel) (x : Chan) : (s.setChan c x).rom = s.rom := rfl
@[simp] theorem State.setChan_block (s : State) (c : Channel) (x : Chan) : (s.setChan c x).block = s.block := rfl
@[simp] theorem State.setChan_dispMode (s : State) (c : Channel) (x : Chan) : (s.setChan c x).dispMode = s.dispMode := rfl
@[simp] theorem State.setChan_irqPending (s : State) (c : Channel) (x : Chan) : (s.setChan c x).irqPending = s.irqPending := rfl
@[simp] theorem State.setChan_forcedIrqMask (s : State) (c : Channel) (x : Chan) : (s.setChan c x).forcedIrqMask = s.forcedIrqMask := rfl
@[simp] theorem State.setChan_blankingIrqEnabled (s : State) (c : Channel) (x : Chan) : (s.setChan c x).blankingIrqEnabled = s.blankingIrqEnabled := rfl
@[simp] theorem State.setChan_nestedIrqEnabled (s : State) (c : Channel) (x : Chan) : (s.setChan c x).nestedIrqEnabled = s.nestedIrqEnabled := rfl
@[simp] theorem State.setChan_drainRequest (s : State) (c : Channel) (x : Chan) : (s.setChan c x).drainRequest = s.drainRequest := rfl
@[simp] theorem State.setChan_drainView (s : State) (c : Channel) (x : Chan) : (s.setChan c x).drainView = s.drainView := rfl
@[simp] theorem State.setChan_window (s : State) (c : Channel) (x : Chan) : (s.setChan c x).window = s.window := rfl
@[simp] theorem State.setChan_devAnswers (s : State) (c : Channel) (x : Chan) : (s.setChan c x).devAnswers = s.devAnswers := rfl
@[simp] theorem State.setChan_devReads (s : State) (c : Channel) (x : Chan) : (s.setChan c x).devReads = s.devReads := rfl
@[simp] theorem State.setChan_trace (s : State) (c : Channel) (x : Chan) : (s.setChan c x).trace = s.trace := rfl
@[simp] theorem State.setChan_script (s : State) (c : Channel) (x : Chan) : (s.setChan c x).script = s.script := rfl
@[simp] theorem State.setChan_slots (s : State) (c : Channel) (x : Chan) (d : Channel) : (s.setChan c x).slots d = s.slots d := rfl
@[simp] theorem State.setChan_eOld (s : State) (c : Channel) (x : Chan) (d : Channel) : (s.setChan c x).eOld d = s.eOld d := rfl
@[simp] theorem State.setChan_byteAt (s : State) (c : Channel) (x : Chan) (y : Word) : (s.setChan c x).byteAt y = s.byteAt y := rfl
@[simp] theorem State.setChan_xlate (s : State) (c : Channel) (x : Chan) (y : Word) : (s.setChan c x).xlate y = s.xlate y := rfl
@[simp] theorem State.setChan_nextInWindow (s : State) (c : Channel) (x : Chan) : (s.setChan c x).nextInWindow = s.nextInWindow := rfl

@[simp] theorem State.setSlots_params (s : State) (c : Channel) (x : Slots) : (s.setSlots c x).params = s.params := rfl
@[simp] theorem State.setSlots_initialised (s : State) (c : Channel) (x : Slots) : (s.setSlots c x).initialised = s.initialised := rfl
@[simp] theorem State.setSlots_chans (s : State) (c : Channel) (x : Slots) : (s.setSlots c x).chans = s.chans := rfl
@[simp] theorem State.setSlots_view (s : State) (c : Channel) (x : Slots) : (s.setSlots c x).view = s.view.set c x := rfl
@[simp] theorem State.setSlots_tr (s : State) (c : Channel) (x : Slots) : (s.setSlots c x).tr = s.tr := rfl
@[simp] theorem State.setSlots_mem (s : State) (c : Channel) (x : Slots) : (s.setSlots c x).mem = s.mem := rfl
@[simp] theorem State.setSlots_rom (s : State) (c : Channel) (x : Slots) : (s.setSlots c x).rom = s.rom := rfl
@[simp] theorem State.setSlots_block (s : State) (c : Channel) (x : Slots) : (s.setSlots c x).block = s.block := rfl
@[simp] theorem State.setSlots_dispMode (s : State) (c : Channel) (x : Slots) : (s.setSlots c x).dispMode = s.dispMode := rfl
@[simp] theorem State.setSlots_irqPending (s : State) (c : Channel) (x : Slots) : (s.setSlots c x).irqPending = s.irqPending := rfl
@[simp] theorem State.setSlots_forcedIrqMask (s : State) (c : Channel) (x : Slots) : (s.setSlots c x).forcedIrqMask = s.forcedIrqMask := rfl
@[simp] theorem State.setSlots_blankingIrqEnabled (s : State) (c : Channel) (x : Slots) : (s.setSlots c x).blankingIrqEnabled = s.blankingIrqEnabled := rfl
@[simp] theorem State.setSlots_nestedIrqEnabled (s : State) (c : Channel) (x : Slots) : (s.setSlots c x).nestedIrqEnabled = s.nestedIrqEnabled := rfl
@[simp] theorem State.setSlots_drainRequest (s : State) (c : Channel) (x : Slots) : (s.setSlots c x).drainRequest = s.drainRequest := rfl
@[simp] theorem State.setSlots_drainView (s : State) (c : Channel) (x : Slots) : (s.setSlots c x).drainView = s.drainView := rfl
@[simp] theorem State.setSlots_window (s : State) (c : Channel) (x : Slots) : (s.setSlots c x).window = s.window := rfl
@[simp] theorem State.setSlots_devAnswers (s : State) (c : Channel) (x : Slots) : (s.setSlots c x).devAnswers = s.devAnswers := rfl
@[simp] theorem State.setSlots_devReads (s : State) (c : Channel) (x : Slots) : (s.setSlots c x).devReads = s.devReads := rfl
@[simp] theorem State.setSlots_trace (s : State) (c : Channel) (x : Slots) : (s.setSlots c x).trace = s.trace := rfl
@[simp] theorem State.setSlots_script (s : State) (c : Channel) (x : Slots) : (s.setSlots c x).script = s.script := rfl
@[simp] theorem State.setSlots_chan (s : State) (c : Channel) (x : Slots) (d : Channel) : (s.setSlots c x).chan d = s.chan d := rfl
@[simp] theorem State.setSlots_anyHb (s : State) (c : Channel) (x : Slots) : (s.setSlots c x).anyHb = s.anyHb := rfl
@[simp] theorem State.setSlots_anyAu (s : State) (c : Channel) (x : Slots) : (s.setSlots c x).anyAu = s.anyAu := rfl
@[simp] theorem State.setSlots_byteAt (s : State) (c : Channel) (x : Slots) (y : Word) : (s.setSlots c x).byteAt y = s.byteAt y := rfl
@[simp] theorem State.setSlots_xlate (s : State) (c : Channel) (x : Slots) (y : Word) : (s.setSlots c x).xlate y = s.xlate y := rfl
@[simp] theorem State.setSlots_nextInWindow (s : State) (c : Channel) (x : Slots) : (s.setSlots c x).nextInWindow = s.nextInWindow := rfl

@[simp] theorem State.setCtrl_params (s : State) (c : Channel) (v : Half) : (s.setCtrl c v).params = s.params := rfl
@[simp] theorem State.setCtrl_initialised (s : State) (c : Channel) (v : Half) : (s.setCtrl c v).initialised = s.initialised := rfl
@[simp] theorem State.setCtrl_chans (s : State) (c : Channel) (v : Half) : (s.setCtrl c v).chans = s.chans := rfl
@[simp] theorem State.setCtrl_view (s : State) (c : Channel) (v : Half) : (s.setCtrl c v).view = s.view.set c { s.view.get c with ctrl := v } := rfl
@[simp] theorem State.setCtrl_tr (s : State) (c : Channel) (v : Half) : (s.setCtrl c v).tr = s.tr := rfl
@[simp] theorem State.setCtrl_mem (s : State) (c : Channel) (v : Half) : (s.setCtrl c v).mem = s.mem := rfl
@[simp] theorem State.setCtrl_rom (s : State) (c : Channel) (v : Half) : (s.setCtrl c v).rom = s.rom := rfl
@[simp] theorem State.setCtrl_block (s : State) (c : Channel) (v : Half) : (s.setCtrl c v).block = s.block := rfl
@[simp] theorem State.setCtrl_dispMode (s : State) (c : Channel) (v : Half) : (s.setCtrl c v).dispMode = s.dispMode := rfl
@[simp] theorem State.setCtrl_irqPending (s : State) (c : Channel) (v : Half) : (s.setCtrl c v).irqPending = s.irqPending := rfl
@[simp] theorem State.setCtrl_forcedIrqMask (s : State) (c : Channel) (v : Half) : (s.setCtrl c v).forcedIrqMask = s.forcedIrqMask := rfl
@[simp] theorem State.setCtrl_blankingIrqEnabled (s : State) (c : Channel) (v : Half) : (s.setCtrl c v).blankingIrqEnabled = s.blankingIrqEnabled := rfl
@[simp] theorem State.setCtrl_nestedIrqEnabled (s : State) (c : Channel) (v : Half) : (s.setCtrl c v).nestedIrqEnabled = s.nestedIrqEnabled := rfl
@[simp] theorem State.setCtrl_drainRequest (s : State) (c : Channel) (v : Half) : (s.setCtrl c v).drainRequest = s.drainRequest := rfl
@[simp] theorem State.setCtrl_drainView (s : State) (c : Channel) (v : Half) : (s.setCtrl c v).drainView = s.drainView := rfl
@[simp] theorem State.setCtrl_window (s : State) (c : Channel) (v : Half) : (s.setCtrl c v).window = s.window := rfl
@[simp] theorem State.setCtrl_devAnswers (s : State) (c : Channel) (v : Half) : (s.setCtrl c v).devAnswers = s.devAnswers := rfl
@[simp] theorem State.setCtrl_devReads (s : State) (c : Channel) (v : Half) : (s.setCtrl c v).devReads = s.devReads := rfl
@[simp] theorem State.setCtrl_trace (s : State) (c : Channel) (v : Half) : (s.setCtrl c v).trace = s.trace := rfl
@[simp] theorem State.setCtrl_script (s : State) (c : Channel) (v : Half) : (s.setCtrl c v).script = s.script := rfl
@[simp] theorem State.setCtrl_chan (s : State) (c : Channel) (v : Half) (d : Channel) : (s.setCtrl c v).chan d = s.chan d := rfl
@[simp] theorem State.setCtrl_anyHb (s : State) (c : Channel) (v : Half) : (s.setCtrl c v).anyHb = s.anyHb := rfl
@[simp] theorem State.setCtrl_anyAu (s : State) (c : Channel) (v : Half) : (s.setCtrl c v).anyAu = s.anyAu := rfl
@[simp] theorem State.setCtrl_byteAt (s : State) (c : Channel) (v : Half) (y : Word) : (s.setCtrl c v).byteAt y = s.byteAt y := rfl
@[simp] theorem State.setCtrl_xlate (s : State) (c : Channel) (v : Half) (y : Word) : (s.setCtrl c v).xlate y = s.xlate y := rfl
@[simp] theorem State.setCtrl_nextInWindow (s : State) (c : Channel) (v : Half) : (s.setCtrl c v).nextInWindow = s.nextInWindow := rfl

@[simp] theorem State.setCursors_params (s : State) (c : Channel) (a b : Word) : (s.setCursors c a b).params = s.params := rfl
@[simp] theorem State.setCursors_initialised (s : State) (c : Channel) (a b : Word) : (s.setCursors c a b).initialised = s.initialised := rfl
@[simp] theorem State.setCursors_chans (s : State) (c : Channel) (a b : Word) : (s.setCursors c a b).chans = s.chans.set c { s.chans.get c with src := a, dst := b } := rfl
@[simp] theorem State.setCursors_view (s : State) (c : Channel) (a b : Word) : (s.setCursors c a b).view = s.view := rfl
@[simp] theorem State.setCursors_tr (s : State) (c : Channel) (a b : Word) : (s.setCursors c a b).tr = s.tr := rfl
@[simp] theorem State.setCursors_mem (s : State) (c : Channel) (a b : Word) : (s.setCursors c a b).mem = s.mem := rfl
@[simp] theorem State.setCursors_rom (s : State) (c : Channel) (a b : Word) : (s.setCursors c a b).rom = s.rom := rfl
@[simp] theorem State.setCursors_block (s : State) (c : Channel) (a b : Word) : (s.setCursors c a b).block = s.block := rfl
@[simp] theorem State.setCursors_dispMode (s : State) (c : Channel) (a b : Word) : (s.setCursors c a b).dispMode = s.dispMode := rfl
@[simp] theorem State.setCursors_irqPending (s : State) (c : Channel) (a b : Word) : (s.setCursors c a b).irqPending = s.irqPending := rfl
@[simp] theorem State.setCursors_forcedIrqMask (s : State) (c : Channel) (a b : Word) : (s.setCursors c a b).forcedIrqMask = s.forcedIrqMask := rfl
@[simp] theorem State.setCursors_blankingIrqEnabled (s : State) (c : Channel) (a b : Word) : (s.setCursors c a b).blankingIrqEnabled = s.blankingIrqEnabled := rfl
@[simp] theorem State.setCursors_nestedIrqEnabled (s : State) (c : Channel) (a b : Word) : (s.setCursors c a b).nestedIrqEnabled = s.nestedIrqEnabled := rfl
@[simp] theorem State.setCursors_drainRequest (s : State) (c : Channel) (a b : Word) : (s.setCursors c a b).drainRequest = s.drainRequest := rfl
@[simp] theorem State.setCursors_drainView (s : State) (c : Channel) (a b : Word) : (s.setCursors c a b).drainView = s.drainView := rfl
@[simp] theorem State.setCursors_window (s : State) (c : Channel) (a b : Word) : (s.setCursors c a b).window = s.window := rfl
@[simp] theorem State.setCursors_devAnswers (s : State) (c : Channel) (a b : Word) : (s.setCursors c a b).devAnswers = s.devAnswers := rfl
@[simp] theorem State.setCursors_devReads (s : State) (c : Channel) (a b : Word) : (s.setCursors c a b).devReads = s.devReads := rfl
@[simp] theorem State.setCursors_trace (s : State) (c : Channel) (a b : Word) : (s.setCursors c a b).trace = s.trace := rfl
@[simp] theorem State.setCursors_script (s : State) (c : Channel) (a b : Word) : (s.setCursors c a b).script = s.script := rfl
@[simp] theorem State.setCursors_slots (s : State) (c : Channel) (a b : Word) (d : Channel) : (s.setCursors c a b).slots d = s.slots d := rfl
@[simp] theorem State.setCursors_eOld (s : State) (c : Channel) (a b : Word) (d : Channel) : (s.setCursors c a b).eOld d = s.eOld d := rfl
@[simp] theorem State.setCursors_byteAt (s : State) (c : Channel) (a b : Word) (y : Word) : (s.setCursors c a b).byteAt y = s.byteAt y := rfl
@[simp] theorem State.setCursors_xlate (s : State) (c : Channel) (a b : Word) (y : Word) : (s.setCursors c a b).xlate y = s.xlate y := rfl
@[simp] theorem State.setCursors_nextInWindow (s : State) (c : Channel) (a b : Word) : (s.setCursors c a b).nextInWindow = s.nextInWindow := rfl

@[simp] theorem State.setHandler_params (s : State) (c : Channel) (h : Handler) : (s.setHandler c h).params = s.params := rfl
@[simp] theorem State.setHandler_initialised (s : State) (c : Channel) (h : Handler) : (s.setHandler c h).initialised = s.initialised := rfl
@[simp] theorem State.setHandler_chans (s : State) (c : Channel) (h : Handler) : (s.setHandler c h).chans = s.chans.set c { s.chans.get c with handler := h } := rfl
@[simp] theorem State.setHandler_view (s : State) (c : Channel) (h : Handler) : (s.setHandler c h).view = s.view := rfl
@[simp] theorem State.setHandler_tr (s : State) (c : Channel) (h : Handler) : (s.setHandler c h).tr = s.tr := rfl
@[simp] theorem State.setHandler_mem (s : State) (c : Channel) (h : Handler) : (s.setHandler c h).mem = s.mem := rfl
@[simp] theorem State.setHandler_rom (s : State) (c : Channel) (h : Handler) : (s.setHandler c h).rom = s.rom := rfl
@[simp] theorem State.setHandler_block (s : State) (c : Channel) (h : Handler) : (s.setHandler c h).block = s.block := rfl
@[simp] theorem State.setHandler_dispMode (s : State) (c : Channel) (h : Handler) : (s.setHandler c h).dispMode = s.dispMode := rfl
@[simp] theorem State.setHandler_irqPending (s : State) (c : Channel) (h : Handler) : (s.setHandler c h).irqPending = s.irqPending := rfl
@[simp] theorem State.setHandler_forcedIrqMask (s : State) (c : Channel) (h : Handler) : (s.setHandler c h).forcedIrqMask = s.forcedIrqMask := rfl
@[simp] theorem State.setHandler_blankingIrqEnabled (s : State) (c : Channel) (h : Handler) : (s.setHandler c h).blankingIrqEnabled = s.blankingIrqEnabled := rfl
@[simp] theorem State.setHandler_nestedIrqEnabled (s : State) (c : Channel) (h : Handler) : (s.setHandler c h).nestedIrqEnabled = s.nestedIrqEnabled := rfl
@[simp] theorem State.setHandler_drainRequest (s : State) (c : Channel) (h : Handler) : (s.setHandler c h).drainRequest = s.drainRequest := rfl
@[simp] theorem State.setHandler_drainView (s : State) (c : Channel) (h : Handler) : (s.setHandler c h).drainView = s.drainView := rfl
@[simp] theorem State.setHandler_window (s : State) (c : Channel) (h : Handler) : (s.setHandler c h).window = s.window := rfl
@[simp] theorem State.setHandler_devAnswers (s : State) (c : Channel) (h : Handler) : (s.setHandler c h).devAnswers = s.devAnswers := rfl
@[simp] theorem State.setHandler_devReads (s : State) (c : Channel) (h : Handler) : (s.setHandler c h).devReads = s.devReads := rfl
@[simp] theorem State.setHandler_trace (s : State) (c : Channel) (h : Handler) : (s.setHandler c h).trace = s.trace := rfl
@[simp] theorem State.setHandler_script (s : State) (c : Channel) (h : Handler) : (s.setHandler c h).script = s.script := rfl
@[simp] theorem State.setHandler_slots (s : State) (c : Channel) (h : Handler) (d : Channel) : (s.setHandler c h).slots d = s.slots d := rfl
@[simp] theorem State.setHandler_eOld (s : State) (c : Channel) (h : Handler) (d : Channel) : (s.setHandler c h).eOld d = s.eOld d := rfl
@[simp] theorem State.setHandler_byteAt (s : State) (c : Channel) (h : Handler) (y : Word) : (s.setHandler c h).byteAt y = s.byteAt y := rfl
@[simp] theorem State.setHandler_xlate (s : State) (c : Channel) (h : Handler) (y : Word) : (s.setHandler c h).xlate y = s.xlate y := rfl
@[simp] theorem State.setHandler_nextInWindow (s : State) (c : Channel) (h : Handler) : (s.setHandler c h).nextInWindow = s.nextInWindow := rfl

@[simp] theorem State.setFlags_params (s : State) (c : Channel) (hb au : Bool) : (s.setFlags c hb au).params = s.params := rfl
@[simp] theorem State.setFlags_initialised (s : State) (c : Channel) (hb au : Bool) : (s.setFlags c hb au).initialised = s.initialised := rfl
@[simp] theorem State.setFlags_chans (s : State) (c : Channel) (hb au : Bool) : (s.setFlags c hb au).chans = s.chans.set c { s.chans.get c with hb := hb, au := au } := rfl
@[simp] theorem State.setFlags_view (s : State) (c : Channel) (hb au : Bool) : (s.setFlags c hb au).view = s.view := rfl
@[simp] theorem State.setFlags_tr (s : State) (c : Channel) (hb au : Bool) : (s.setFlags c hb au).tr = s.tr := rfl
@[simp] theorem State.setFlags_mem (s : State) (c : Channel) (hb au : Bool) : (s.setFlags c hb au).mem = s.mem := rfl
@[simp] theorem State.setFlags_rom (s : State) (c : Channel) (hb au : Bool) : (s.setFlags c hb au).rom = s.rom := rfl
@[simp] theorem State.setFlags_block (s : State) (c : Channel) (hb au : Bool) : (s.setFlags c hb au).block = s.block := rfl
@[simp] theorem State.setFlags_dispMode (s : State) (c : Channel) (hb au : Bool) : (s.setFlags c hb au).dispMode = s.dispMode := rfl
@[simp] theorem State.setFlags_irqPending (s : State) (c : Channel) (hb au : Bool) : (s.setFlags c hb au).irqPending = s.irqPending := rfl
@[simp] theorem State.setFlags_forcedIrqMask (s : State) (c : Channel) (hb au : Bool) : (s.setFlags c hb au).forcedIrqMask = s.forcedIrqMask := rfl
@[simp] theorem State.setFlags_blankingIrqEnabled (s : State) (c : Channel) (hb au : Bool) : (s.setFlags c hb au).blankingIrqEnabled = s.blankingIrqEnabled := rfl
@[simp] theorem State.setFlags_nestedIrqEnabled (s : State) (c : Channel) (hb au : Bool) : (s.setFlags c hb au).nestedIrqEnabled = s.nestedIrqEnabled := rfl
@[simp] theorem State.setFlags_drainRequest (s : State) (c : Channel) (hb au : Bool) : (s.setFlags c hb au).drainRequest = s.drainRequest := rfl
@[simp] theorem State.setFlags_drainView (s : State) (c : Channel) (hb au : Bool) : (s.setFlags c hb au).drainView = s.drainView := rfl
@[simp] theorem State.setFlags_window (s : State) (c : Channel) (hb au : Bool) : (s.setFlags c hb au).window = s.window := rfl
@[simp] theorem State.setFlags_devAnswers (s : State) (c : Channel) (hb au : Bool) : (s.setFlags c hb au).devAnswers = s.devAnswers := rfl
@[simp] theorem State.setFlags_devReads (s : State) (c : Channel) (hb au : Bool) : (s.setFlags c hb au).devReads = s.devReads := rfl
@[simp] theorem State.setFlags_trace (s : State) (c : Channel) (hb au : Bool) : (s.setFlags c hb au).trace = s.trace := rfl
@[simp] theorem State.setFlags_script (s : State) (c : Channel) (hb au : Bool) : (s.setFlags c hb au).script = s.script := rfl
@[simp] theorem State.setFlags_slots (s : State) (c : Channel) (hb au : Bool) (d : Channel) : (s.setFlags c hb au).slots d = s.slots d := rfl
@[simp] theorem State.setFlags_eOld (s : State) (c : Channel) (hb au : Bool) (d : Channel) : (s.setFlags c hb au).eOld d = s.eOld d := rfl
@[simp] theorem State.setFlags_byteAt (s : State) (c : Channel) (hb au : Bool) (y : Word) : (s.setFlags c hb au).byteAt y = s.byteAt y := rfl
@[simp] theorem State.setFlags_xlate (s : State) (c : Channel) (hb au : Bool) (y : Word) : (s.setFlags c hb au).xlate y = s.xlate y := rfl
@[simp] theorem State.setFlags_nextInWindow (s : State) (c : Channel) (hb au : Bool) : (s.setFlags c hb au).nextInWindow = s.nextInWindow := rfl

@[simp] theorem State.emit_params (s : State) (e : Event) : (s.emit e).params = s.params := rfl
@[simp] theorem State.emit_initialised (s : State) (e : Event) : (s.emit e).initialised = s.initialised := rfl
@[simp] theorem State.emit_chans (s : State) (e : Event) : (s.emit e).chans = s.chans := rfl
@[simp] theorem State.emit_view (s : State) (e : Event) : (s.emit e).view = s.view := rfl
@[simp] theorem State.emit_tr (s : State) (e : Event) : (s.emit e).tr = s.tr := rfl
@[simp] theorem State.emit_mem (s : State) (e : Event) : (s.emit e).mem = s.mem := rfl
@[simp] theorem State.emit_rom (s : State) (e : Event) : (s.emit e).rom = s.rom := rfl
@[simp] theorem State.emit_block (s : State) (e : Event) : (s.emit e).block = s.block := rfl
@[simp] theorem State.emit_dispMode (s : State) (e : Event) : (s.emit e).dispMode = s.dispMode := rfl
@[simp] theorem State.emit_irqPending (s : State) (e : Event) : (s.emit e).irqPending = s.irqPending := rfl
@[simp] theorem State.emit_forcedIrqMask (s : State) (e : Event) : (s.emit e).forcedIrqMask = s.forcedIrqMask := rfl
@[simp] theorem State.emit_blankingIrqEnabled (s : State) (e : Event) : (s.emit e).blankingIrqEnabled = s.blankingIrqEnabled := rfl
@[simp] theorem State.emit_nestedIrqEnabled (s : State) (e : Event) : (s.emit e).nestedIrqEnabled = s.nestedIrqEnabled := rfl
@[simp] theorem State.emit_drainRequest (s : State) (e : Event) : (s.emit e).drainRequest = s.drainRequest := rfl
@[simp] theorem State.emit_drainView (s : State) (e : Event) : (s.emit e).drainView = s.drainView := rfl
@[simp] theorem State.emit_window (s : State) (e : Event) : (s.emit e).window = s.window := rfl
@[simp] theorem State.emit_devAnswers (s : State) (e : Event) : (s.emit e).devAnswers = s.devAnswers := rfl
@[simp] theorem State.emit_devReads (s : State) (e : Event) : (s.emit e).devReads = s.devReads := rfl
@[simp] theorem State.emit_trace (s : State) (e : Event) : (s.emit e).trace = e :: s.trace := rfl
@[simp] theorem State.emit_script (s : State) (e : Event) : (s.emit e).script = s.script := rfl
@[simp] theorem State.emit_chan (s : State) (e : Event) (d : Channel) : (s.emit e).chan d = s.chan d := rfl
@[simp] theorem State.emit_anyHb (s : State) (e : Event) : (s.emit e).anyHb = s.anyHb := rfl
@[simp] theorem State.emit_anyAu (s : State) (e : Event) : (s.emit e).anyAu = s.anyAu := rfl
@[simp] theorem State.emit_slots (s : State) (e : Event) (d : Channel) : (s.emit e).slots d = s.slots d := rfl
@[simp] theorem State.emit_eOld (s : State) (e : Event) (d : Channel) : (s.emit e).eOld d = s.eOld d := rfl
@[simp] theorem State.emit_byteAt (s : State) (e : Event) (y : Word) : (s.emit e).byteAt y = s.byteAt y := rfl
@[simp] theorem State.emit_xlate (s : State) (e : Event) (y : Word) : (s.emit e).xlate y = s.xlate y := rfl
@[simp] theorem State.emit_nextInWindow (s : State) (e : Event) : (s.emit e).nextInWindow = s.nextInWindow := rfl

@[simp] theorem State.storeByte_params (s : State) (b : Word) (v : Byte) : (s.storeByte b v).params = s.params := rfl
@[simp] theorem State.storeByte_initialised (s : State) (b : Word) (v : Byte) : (s.storeByte b v).initialised = s.initialised := rfl
@[simp] theorem State.storeByte_chans (s : State) (b : Word) (v : Byte) : (s.storeByte b v).chans = s.chans := rfl
@[simp] theorem State.storeByte_view (s : State) (b : Word) (v : Byte) : (s.storeByte b v).view = s.view := rfl
@[simp] theorem State.storeByte_tr (s : State) (b : Word) (v : Byte) : (s.storeByte b v).tr = s.tr := rfl
@[simp] theorem State.storeByte_mem (s : State) (b : Word) (v : Byte) : (s.storeByte b v).mem = s.mem.write b.toNat v := rfl
@[simp] theorem State.storeByte_rom (s : State) (b : Word) (v : Byte) : (s.storeByte b v).rom = s.rom := rfl
@[simp] theorem State.storeByte_block (s : State) (b : Word) (v : Byte) : (s.storeByte b v).block = s.block := rfl
@[simp] theorem State.storeByte_dispMode (s : State) (b : Word) (v : Byte) : (s.storeByte b v).dispMode = s.dispMode := rfl
@[simp] theorem State.storeByte_irqPending (s : State) (b : Word) (v : Byte) : (s.storeByte b v).irqPending = s.irqPending := rfl
@[simp] theorem State.storeByte_forcedIrqMask (s : State) (b : Word) (v : Byte) : (s.storeByte b v).forcedIrqMask = s.forcedIrqMask := rfl
@[simp] theorem State.storeByte_blankingIrqEnabled (s : State) (b : Word) (v : Byte) : (s.storeByte b v).blankingIrqEnabled = s.blankingIrqEnabled := rfl
@[simp] theorem State.storeByte_nestedIrqEnabled (s : State) (b : Word) (v : Byte) : (s.storeByte b v).nestedIrqEnabled = s.nestedIrqEnabled := rfl
@[simp] theorem State.storeByte_drainRequest (s : State) (b : Word) (v : Byte) : (s.storeByte b v).drainRequest = s.drainRequest := rfl
@[simp] theorem State.storeByte_drainView (s : State) (b : Word) (v : Byte) : (s.storeByte b v).drainView = s.drainView := rfl
@[simp] theorem State.storeByte_window (s : State) (b : Word) (v : Byte) : (s.storeByte b v).window = s.window := rfl
@[simp] theorem State.storeByte_devAnswers (s : State) (b : Word) (v : Byte) : (s.storeByte b v).devAnswers = s.devAnswers := rfl
@[simp] theorem State.storeByte_devReads (s : State) (b : Word) (v : Byte) : (s.storeByte b v).devReads = s.devReads := rfl
@[simp] theorem State.storeByte_trace (s : State) (b : Word) (v : Byte) : (s.storeByte b v).trace = s.trace := rfl
@[simp] theorem State.storeByte_script (s : State) (b : Word) (v : Byte) : (s.storeByte b v).script = s.script := rfl
@[simp] theorem State.storeByte_chan (s : State) (b : Word) (v : Byte) (d : Channel) : (s.storeByte b v).chan d = s.chan d := rfl
@[simp] theorem State.storeByte_anyHb (s : State) (b : Word) (v : Byte) : (s.storeByte b v).anyHb = s.anyHb := rfl
@[simp] theorem State.storeByte_anyAu (s : State) (b : Word) (v : Byte) : (s.storeByte b v).anyAu = s.anyAu := rfl
@[simp] theorem State.storeByte_slots (s : State) (b : Word) (v : Byte) (d : Channel) : (s.storeByte b v).slots d = s.slots d := rfl
@[simp] theorem State.storeByte_eOld (s : State) (b : Word) (v : Byte) (d : Channel) : (s.storeByte b v).eOld d = s.eOld d := rfl
@[simp] theorem State.storeByte_xlate (s : State) (b : Word) (v : Byte) (y : Word) : (s.storeByte b v).xlate y = s.xlate y := rfl
@[simp] theorem State.storeByte_nextInWindow (s : State) (b : Word) (v : Byte) : (s.storeByte b v).nextInWindow = s.nextInWindow := rfl

@[simp] theorem State.getBlock_params (s : State) (a : Word) : (s.getBlock a).params = s.params := rfl
@[simp] theorem State.getBlock_initialised (s : State) (a : Word) : (s.getBlock a).initialised = s.initialised := rfl
@[simp] theorem State.getBlock_chans (s : State) (a : Word) : (s.getBlock a).chans = s.chans := rfl
@[simp] theorem State.getBlock_view (s : State) (a : Word) : (s.getBlock a).view = s.view := rfl
@[simp] theorem State.getBlock_tr (s : State) (a : Word) : (s.getBlock a).tr = s.tr := rfl
@[simp] theorem State.getBlock_mem (s : State) (a : Word) : (s.getBlock a).mem = s.mem := rfl
@[simp] theorem State.getBlock_rom (s : State) (a : Word) : (s.getBlock a).rom = s.rom := rfl
@[simp] theorem State.getBlock_block (s : State) (a : Word) : (s.getBlock a).block = some (a &&& ~~~s.params.blockMask) := rfl
@[simp] theorem State.getBlock_dispMode (s : State) (a : Word) : (s.getBlock a).dispMode = s.dispMode := rfl
@[simp] theorem State.getBlock_irqPending (s : State) (a : Word) : (s.getBlock a).irqPending = s.irqPending := rfl
@[simp] theorem State.getBlock_forcedIrqMask (s : State) (a : Word) : (s.getBlock a).forcedIrqMask = s.forcedIrqMask := rfl
@[simp] theorem State.getBlock_blankingIrqEnabled (s : State) (a : Word) : (s.getBlock a).blankingIrqEnabled = s.blankingIrqEnabled := rfl
@[simp] theorem State.getBlock_nestedIrqEnabled (s : State) (a : Word) : (s.getBlock a).nestedIrqEnabled = s.nestedIrqEnabled := rfl
@[simp] theorem State.getBlock_drainRequest (s : State) (a : Word) : (s.getBlock a).drainRequest = s.drainRequest := rfl
@[simp] theorem State.getBlock_drainView (s : State) (a : Word) : (s.getBlock a).drainView = s.drainView := rfl
@[simp] theorem State.getBlock_window (s : State) (a : Word) : (s.getBlock a).window = s.window := rfl
@[simp] theorem State.getBlock_devAnswers (s : State) (a : Word) : (s.getBlock a).devAnswers = s.devAnswers := rfl
@[simp] theorem State.getBlock_devReads (s : State) (a : Word) : (s.getBlock a).devReads = s.devReads := rfl
@[simp] theorem State.getBlock_trace (s : State) (a : Word) : (s.getBlock a).trace = s.trace := rfl
@[simp] theorem State.getBlock_script (s : State) (a : Word) : (s.getBlock a).script = s.script := rfl
@[simp] theorem State.getBlock_chan (s : State) (a : Word) (d : Channel) : (s.getBlock a).chan d = s.chan d := rfl
@[simp] theorem State.getBlock_anyHb (s : State) (a : Word) : (s.getBlock a).anyHb = s.anyHb := rfl
@[simp] theorem State.getBlock_anyAu (s : State) (a : Word) : (s.getBlock a).anyAu = s.anyAu := rfl
@[simp] theorem State.getBlock_slots (s : State) (a : Word) (d : Channel) : (s.getBlock a).slots d = s.slots d := rfl
@[simp] theorem State.getBlock_eOld (s : State) (a : Word) (d : Channel) : (s.getBlock a).eOld d = s.eOld d := rfl
@[simp] theorem State.getBlock_byteAt (s : State) (a : Word) (y : Word) : (s.getBlock a).byteAt y = s.byteAt y := rfl
@[simp] theorem State.getBlock_xlate (s : State) (a : Word) (y : Word) : (s.getBlock a).xlate y = s.xlate y := rfl
@[simp] theorem State.getBlock_nextInWindow (s : State) (a : Word) : (s.getBlock a).nextInWindow = s.nextInWindow := rfl

@[simp] theorem State.openWindow_params (s : State) (t : Window) : (s.openWindow t).params = s.params := rfl
@[simp] theorem State.openWindow_initialised (s : State) (t : Window) : (s.openWindow t).initialised = s.initialised := rfl
@[simp] theorem State.openWindow_chans (s : State) (t : Window) : (s.openWindow t).chans = s.chans := rfl
@[simp] theorem State.openWindow_view (s : State) (t : Window) : (s.openWindow t).view = s.view := rfl
@[simp] theorem State.openWindow_tr (s : State) (t : Window) : (s.openWindow t).tr = s.tr := rfl
@[simp] theorem State.openWindow_mem (s : State) (t : Window) : (s.openWindow t).mem = s.mem := rfl
@[simp] theorem State.openWindow_rom (s : State) (t : Window) : (s.openWindow t).rom = s.rom := rfl
@[simp] theorem State.openWindow_block (s : State) (t : Window) : (s.openWindow t).block = s.block := rfl
@[simp] theorem State.openWindow_dispMode (s : State) (t : Window) : (s.openWindow t).dispMode = s.dispMode := rfl
@[simp] theorem State.openWindow_irqPending (s : State) (t : Window) : (s.openWindow t).irqPending = s.irqPending := rfl
@[simp] theorem State.openWindow_forcedIrqMask (s : State) (t : Window) : (s.openWindow t).forcedIrqMask = s.forcedIrqMask := rfl
@[simp] theorem State.openWindow_blankingIrqEnabled (s : State) (t : Window) : (s.openWindow t).blankingIrqEnabled = s.blankingIrqEnabled := rfl
@[simp] theorem State.openWindow_nestedIrqEnabled (s : State) (t : Window) : (s.openWindow t).nestedIrqEnabled = true := rfl
@[simp] theorem State.openWindow_drainRequest (s : State) (t : Window) : (s.openWindow t).drainRequest = s.drainRequest := rfl
@[simp] theorem State.openWindow_drainView (s : State) (t : Window) : (s.openWindow t).drainView = s.drainView := rfl
@[simp] theorem State.openWindow_window (s : State) (t : Window) : (s.openWindow t).window = some t := rfl
@[simp] theorem State.openWindow_devAnswers (s : State) (t : Window) : (s.openWindow t).devAnswers = s.devAnswers := rfl
@[simp] theorem State.openWindow_devReads (s : State) (t : Window) : (s.openWindow t).devReads = s.devReads := rfl
@[simp] theorem State.openWindow_trace (s : State) (t : Window) : (s.openWindow t).trace = .nestDelivery true :: s.trace := rfl
@[simp] theorem State.openWindow_script (s : State) (t : Window) : (s.openWindow t).script = s.script := rfl
@[simp] theorem State.openWindow_chan (s : State) (t : Window) (d : Channel) : (s.openWindow t).chan d = s.chan d := rfl
@[simp] theorem State.openWindow_anyHb (s : State) (t : Window) : (s.openWindow t).anyHb = s.anyHb := rfl
@[simp] theorem State.openWindow_anyAu (s : State) (t : Window) : (s.openWindow t).anyAu = s.anyAu := rfl
@[simp] theorem State.openWindow_slots (s : State) (t : Window) (d : Channel) : (s.openWindow t).slots d = s.slots d := rfl
@[simp] theorem State.openWindow_eOld (s : State) (t : Window) (d : Channel) : (s.openWindow t).eOld d = s.eOld d := rfl
@[simp] theorem State.openWindow_byteAt (s : State) (t : Window) (y : Word) : (s.openWindow t).byteAt y = s.byteAt y := rfl
@[simp] theorem State.openWindow_xlate (s : State) (t : Window) (y : Word) : (s.openWindow t).xlate y = s.xlate y := rfl
@[simp] theorem State.openWindow_nextInWindow (s : State) (t : Window) : (s.openWindow t).nextInWindow = s.nextInWindow := rfl

@[simp] theorem State.closeWindow_params (s : State) (t : Window) : (s.closeWindow t).params = s.params := rfl
@[simp] theorem State.closeWindow_initialised (s : State) (t : Window) : (s.closeWindow t).initialised = s.initialised := rfl
@[simp] theorem State.closeWindow_chans (s : State) (t : Window) : (s.closeWindow t).chans = s.chans := rfl
@[simp] theorem State.closeWindow_view (s : State) (t : Window) : (s.closeWindow t).view = s.view := rfl
@[simp] theorem State.closeWindow_tr (s : State) (t : Window) : (s.closeWindow t).tr = s.tr := rfl
@[simp] theorem State.closeWindow_mem (s : State) (t : Window) : (s.closeWindow t).mem = s.mem := rfl
@[simp] theorem State.closeWindow_rom (s : State) (t : Window) : (s.closeWindow t).rom = s.rom := rfl
@[simp] theorem State.closeWindow_block (s : State) (t : Window) : (s.closeWindow t).block = s.block := rfl
@[simp] theorem State.closeWindow_dispMode (s : State) (t : Window) : (s.closeWindow t).dispMode = s.dispMode := rfl
@[simp] theorem State.closeWindow_irqPending (s : State) (t : Window) : (s.closeWindow t).irqPending = s.irqPending := rfl
@[simp] theorem State.closeWindow_forcedIrqMask (s : State) (t : Window) : (s.closeWindow t).forcedIrqMask = s.forcedIrqMask := rfl
@[simp] theorem State.closeWindow_blankingIrqEnabled (s : State) (t : Window) : (s.closeWindow t).blankingIrqEnabled = s.blankingIrqEnabled := rfl
@[simp] theorem State.closeWindow_nestedIrqEnabled (s : State) (t : Window) : (s.closeWindow t).nestedIrqEnabled = t.savedNest := rfl
@[simp] theorem State.closeWindow_drainRequest (s : State) (t : Window) : (s.closeWindow t).drainRequest = s.drainRequest := rfl
@[simp] theorem State.closeWindow_drainView (s : State) (t : Window) : (s.closeWindow t).drainView = s.drainView := rfl
@[simp] theorem State.closeWindow_window (s : State) (t : Window) : (s.closeWindow t).window = none := rfl
@[simp] theorem State.closeWindow_devAnswers (s : State) (t : Window) : (s.closeWindow t).devAnswers = s.devAnswers := rfl
@[simp] theorem State.closeWindow_devReads (s : State) (t : Window) : (s.closeWindow t).devReads = s.devReads := rfl
@[simp] theorem State.closeWindow_trace (s : State) (t : Window) : (s.closeWindow t).trace = .nestDelivery t.savedNest :: s.trace := rfl
@[simp] theorem State.closeWindow_script (s : State) (t : Window) : (s.closeWindow t).script = s.script := rfl
@[simp] theorem State.closeWindow_chan (s : State) (t : Window) (d : Channel) : (s.closeWindow t).chan d = s.chan d := rfl
@[simp] theorem State.closeWindow_anyHb (s : State) (t : Window) : (s.closeWindow t).anyHb = s.anyHb := rfl
@[simp] theorem State.closeWindow_anyAu (s : State) (t : Window) : (s.closeWindow t).anyAu = s.anyAu := rfl
@[simp] theorem State.closeWindow_slots (s : State) (t : Window) (d : Channel) : (s.closeWindow t).slots d = s.slots d := rfl
@[simp] theorem State.closeWindow_eOld (s : State) (t : Window) (d : Channel) : (s.closeWindow t).eOld d = s.eOld d := rfl
@[simp] theorem State.closeWindow_byteAt (s : State) (t : Window) (y : Word) : (s.closeWindow t).byteAt y = s.byteAt y := rfl
@[simp] theorem State.closeWindow_xlate (s : State) (t : Window) (y : Word) : (s.closeWindow t).xlate y = s.xlate y := rfl
@[simp] theorem State.closeWindow_nextInWindow (s : State) (t : Window) : (s.closeWindow t).nextInWindow = s.nextInWindow := rfl

@[simp] theorem State.updateSharedEnables_params (s : State) : (s.updateSharedEnables).params = s.params := rfl
@[simp] theorem State.updateSharedEnables_initialised (s : State) : (s.updateSharedEnables).initialised = s.initialised := rfl
@[simp] theorem State.updateSharedEnables_chans (s : State) : (s.updateSharedEnables).chans = s.chans := rfl
@[simp] theorem State.updateSharedEnables_view (s : State) : (s.updateSharedEnables).view = s.view := rfl
@[simp] theorem State.updateSharedEnables_tr (s : State) : (s.updateSharedEnables).tr = s.tr := rfl
@[simp] theorem State.updateSharedEnables_mem (s : State) : (s.updateSharedEnables).mem = s.mem := rfl
@[simp] theorem State.updateSharedEnables_rom (s : State) : (s.updateSharedEnables).rom = s.rom := rfl
@[simp] theorem State.updateSharedEnables_block (s : State) : (s.updateSharedEnables).block = s.block := rfl
@[simp] theorem State.updateSharedEnables_dispMode (s : State) : (s.updateSharedEnables).dispMode = s.dispMode := rfl
@[simp] theorem State.updateSharedEnables_irqPending (s : State) : (s.updateSharedEnables).irqPending = s.irqPending := rfl
@[simp] theorem State.updateSharedEnables_forcedIrqMask (s : State) : (s.updateSharedEnables).forcedIrqMask = setMaskBit (setMaskBit s.forcedIrqMask s.params.forcedBlankBit s.anyHb) s.params.forcedAudioBit s.anyAu := rfl
@[simp] theorem State.updateSharedEnables_blankingIrqEnabled (s : State) : (s.updateSharedEnables).blankingIrqEnabled = s.anyHb := rfl
@[simp] theorem State.updateSharedEnables_nestedIrqEnabled (s : State) : (s.updateSharedEnables).nestedIrqEnabled = s.nestedIrqEnabled := rfl
@[simp] theorem State.updateSharedEnables_drainRequest (s : State) : (s.updateSharedEnables).drainRequest = s.drainRequest := rfl
@[simp] theorem State.updateSharedEnables_drainView (s : State) : (s.updateSharedEnables).drainView = s.drainView := rfl
@[simp] theorem State.updateSharedEnables_window (s : State) : (s.updateSharedEnables).window = s.window := rfl
@[simp] theorem State.updateSharedEnables_devAnswers (s : State) : (s.updateSharedEnables).devAnswers = s.devAnswers := rfl
@[simp] theorem State.updateSharedEnables_devReads (s : State) : (s.updateSharedEnables).devReads = s.devReads := rfl
@[simp] theorem State.updateSharedEnables_trace (s : State) : (s.updateSharedEnables).trace = .sharedEnables s.anyHb s.anyAu :: s.trace := rfl
@[simp] theorem State.updateSharedEnables_script (s : State) : (s.updateSharedEnables).script = s.script := rfl
@[simp] theorem State.updateSharedEnables_chan (s : State) (d : Channel) : (s.updateSharedEnables).chan d = s.chan d := rfl
@[simp] theorem State.updateSharedEnables_anyHb (s : State) : (s.updateSharedEnables).anyHb = s.anyHb := rfl
@[simp] theorem State.updateSharedEnables_anyAu (s : State) : (s.updateSharedEnables).anyAu = s.anyAu := rfl
@[simp] theorem State.updateSharedEnables_slots (s : State) (d : Channel) : (s.updateSharedEnables).slots d = s.slots d := rfl
@[simp] theorem State.updateSharedEnables_eOld (s : State) (d : Channel) : (s.updateSharedEnables).eOld d = s.eOld d := rfl
@[simp] theorem State.updateSharedEnables_byteAt (s : State) (y : Word) : (s.updateSharedEnables).byteAt y = s.byteAt y := rfl
@[simp] theorem State.updateSharedEnables_xlate (s : State) (y : Word) : (s.updateSharedEnables).xlate y = s.xlate y := rfl
@[simp] theorem State.updateSharedEnables_nextInWindow (s : State) : (s.updateSharedEnables).nextInWindow = s.nextInWindow := rfl

@[simp] theorem State.raiseIrq_params (s : State) (c : Channel) : (s.raiseIrq c).params = s.params := rfl
@[simp] theorem State.raiseIrq_initialised (s : State) (c : Channel) : (s.raiseIrq c).initialised = s.initialised := rfl
@[simp] theorem State.raiseIrq_chans (s : State) (c : Channel) : (s.raiseIrq c).chans = s.chans := rfl
@[simp] theorem State.raiseIrq_view (s : State) (c : Channel) : (s.raiseIrq c).view = s.view := rfl
@[simp] theorem State.raiseIrq_tr (s : State) (c : Channel) : (s.raiseIrq c).tr = s.tr := rfl
@[simp] theorem State.raiseIrq_mem (s : State) (c : Channel) : (s.raiseIrq c).mem = s.mem := rfl
@[simp] theorem State.raiseIrq_rom (s : State) (c : Channel) : (s.raiseIrq c).rom = s.rom := rfl
@[simp] theorem State.raiseIrq_block (s : State) (c : Channel) : (s.raiseIrq c).block = s.block := rfl
@[simp] theorem State.raiseIrq_dispMode (s : State) (c : Channel) : (s.raiseIrq c).dispMode = s.dispMode := rfl
@[simp] theorem State.raiseIrq_irqPending (s : State) (c : Channel) : (s.raiseIrq c).irqPending = s.irqPending ||| (1#16 <<< (Config.irqBase + c.val)) := rfl
@[simp] theorem State.raiseIrq_forcedIrqMask (s : State) (c : Channel) : (s.raiseIrq c).forcedIrqMask = s.forcedIrqMask := rfl
@[simp] theorem State.raiseIrq_blankingIrqEnabled (s : State) (c : Channel) : (s.raiseIrq c).blankingIrqEnabled = s.blankingIrqEnabled := rfl
@[simp] theorem State.raiseIrq_nestedIrqEnabled (s : State) (c : Channel) : (s.raiseIrq c).nestedIrqEnabled = s.nestedIrqEnabled := rfl
@[simp] theorem State.raiseIrq_drainRequest (s : State) (c : Channel) : (s.raiseIrq c).drainRequest = s.drainRequest := rfl
@[simp] theorem State.raiseIrq_drainView (s : State) (c : Channel) : (s.raiseIrq c).drainView = s.drainView := rfl
@[simp] theorem State.raiseIrq_window (s : State) (c : Channel) : (s.raiseIrq c).window = s.window := rfl
@[simp] theorem State.raiseIrq_devAnswers (s : State) (c : Channel) : (s.raiseIrq c).devAnswers = s.devAnswers := rfl
@[simp] theorem State.raiseIrq_devReads (s : State) (c : Channel) : (s.raiseIrq c).devReads = s.devReads := rfl
@[simp] theorem State.raiseIrq_trace (s : State) (c : Channel) : (s.raiseIrq c).trace = .irqRaised c :: s.trace := rfl
@[simp] theorem State.raiseIrq_script (s : State) (c : Channel) : (s.raiseIrq c).script = s.script := rfl
@[simp] theorem State.raiseIrq_chan (s : State) (c : Channel) (d : Channel) : (s.raiseIrq c).chan d = s.chan d := rfl
@[simp] theorem State.raiseIrq_anyHb (s : State) (c : Channel) : (s.raiseIrq c).anyHb = s.anyHb := rfl
@[simp] theorem State.raiseIrq_anyAu (s : State) (c : Channel) : (s.raiseIrq c).anyAu = s.anyAu := rfl
@[simp] theorem State.raiseIrq_slots (s : State) (c : Channel) (d : Channel) : (s.raiseIrq c).slots d = s.slots d := rfl
@[simp] theorem State.raiseIrq_eOld (s : State) (c : Channel) (d : Channel) : (s.raiseIrq c).eOld d = s.eOld d := rfl
@[simp] theorem State.raiseIrq_byteAt (s : State) (c : Channel) (y : Word) : (s.raiseIrq c).byteAt y = s.byteAt y := rfl
@[simp] theorem State.raiseIrq_xlate (s : State) (c : Channel) (y : Word) : (s.raiseIrq c).xlate y = s.xlate y := rfl
@[simp] theorem State.raiseIrq_nextInWindow (s : State) (c : Channel) : (s.raiseIrq c).nextInWindow = s.nextInWindow := rfl

@[simp] theorem State.acquireDrain_params (s : State) : (s.acquireDrain).params = s.params := rfl
@[simp] theorem State.acquireDrain_initialised (s : State) : (s.acquireDrain).initialised = s.initialised := rfl
@[simp] theorem State.acquireDrain_chans (s : State) : (s.acquireDrain).chans = s.chans := rfl
@[simp] theorem State.acquireDrain_view (s : State) : (s.acquireDrain).view = s.view := rfl
@[simp] theorem State.acquireDrain_tr (s : State) : (s.acquireDrain).tr = s.tr := rfl
@[simp] theorem State.acquireDrain_mem (s : State) : (s.acquireDrain).mem = s.mem := rfl
@[simp] theorem State.acquireDrain_rom (s : State) : (s.acquireDrain).rom = s.rom := rfl
@[simp] theorem State.acquireDrain_block (s : State) : (s.acquireDrain).block = s.block := rfl
@[simp] theorem State.acquireDrain_dispMode (s : State) : (s.acquireDrain).dispMode = s.dispMode := rfl
@[simp] theorem State.acquireDrain_irqPending (s : State) : (s.acquireDrain).irqPending = s.irqPending := rfl
@[simp] theorem State.acquireDrain_forcedIrqMask (s : State) : (s.acquireDrain).forcedIrqMask = s.forcedIrqMask := rfl
@[simp] theorem State.acquireDrain_blankingIrqEnabled (s : State) : (s.acquireDrain).blankingIrqEnabled = s.blankingIrqEnabled := rfl
@[simp] theorem State.acquireDrain_nestedIrqEnabled (s : State) : (s.acquireDrain).nestedIrqEnabled = s.nestedIrqEnabled := rfl
@[simp] theorem State.acquireDrain_drainRequest (s : State) : (s.acquireDrain).drainRequest = s.drainRequest := rfl
@[simp] theorem State.acquireDrain_drainView (s : State) : (s.acquireDrain).drainView = s.drainRequest := rfl
@[simp] theorem State.acquireDrain_window (s : State) : (s.acquireDrain).window = s.window := rfl
@[simp] theorem State.acquireDrain_devAnswers (s : State) : (s.acquireDrain).devAnswers = s.devAnswers := rfl
@[simp] theorem State.acquireDrain_devReads (s : State) : (s.acquireDrain).devReads = s.devReads := rfl
@[simp] theorem State.acquireDrain_trace (s : State) : (s.acquireDrain).trace = .acquireDrain :: s.trace := rfl
@[simp] theorem State.acquireDrain_script (s : State) : (s.acquireDrain).script = s.script := rfl
@[simp] theorem State.acquireDrain_chan (s : State) (d : Channel) : (s.acquireDrain).chan d = s.chan d := rfl
@[simp] theorem State.acquireDrain_anyHb (s : State) : (s.acquireDrain).anyHb = s.anyHb := rfl
@[simp] theorem State.acquireDrain_anyAu (s : State) : (s.acquireDrain).anyAu = s.anyAu := rfl
@[simp] theorem State.acquireDrain_slots (s : State) (d : Channel) : (s.acquireDrain).slots d = s.slots d := rfl
@[simp] theorem State.acquireDrain_eOld (s : State) (d : Channel) : (s.acquireDrain).eOld d = s.eOld d := rfl
@[simp] theorem State.acquireDrain_byteAt (s : State) (y : Word) : (s.acquireDrain).byteAt y = s.byteAt y := rfl
@[simp] theorem State.acquireDrain_xlate (s : State) (y : Word) : (s.acquireDrain).xlate y = s.xlate y := rfl
@[simp] theorem State.acquireDrain_nextInWindow (s : State) : (s.acquireDrain).nextInWindow = s.nextInWindow := rfl

@[simp] theorem State.clearDrain_params (s : State) : (s.clearDrain).params = s.params := rfl
@[simp] theorem State.clearDrain_initialised (s : State) : (s.clearDrain).initialised = s.initialised := rfl
@[simp] theorem State.clearDrain_chans (s : State) : (s.clearDrain).chans = s.chans := rfl
@[simp] theorem State.clearDrain_view (s : State) : (s.clearDrain).view = s.view := rfl
@[simp] theorem State.clearDrain_tr (s : State) : (s.clearDrain).tr = s.tr := rfl
@[simp] theorem State.clearDrain_mem (s : State) : (s.clearDrain).mem = s.mem := rfl
@[simp] theorem State.clearDrain_rom (s : State) : (s.clearDrain).rom = s.rom := rfl
@[simp] theorem State.clearDrain_block (s : State) : (s.clearDrain).block = s.block := rfl
@[simp] theorem State.clearDrain_dispMode (s : State) : (s.clearDrain).dispMode = s.dispMode := rfl
@[simp] theorem State.clearDrain_irqPending (s : State) : (s.clearDrain).irqPending = s.irqPending := rfl
@[simp] theorem State.clearDrain_forcedIrqMask (s : State) : (s.clearDrain).forcedIrqMask = s.forcedIrqMask := rfl
@[simp] theorem State.clearDrain_blankingIrqEnabled (s : State) : (s.clearDrain).blankingIrqEnabled = s.blankingIrqEnabled := rfl
@[simp] theorem State.clearDrain_nestedIrqEnabled (s : State) : (s.clearDrain).nestedIrqEnabled = s.nestedIrqEnabled := rfl
@[simp] theorem State.clearDrain_drainRequest (s : State) : (s.clearDrain).drainRequest = false := rfl
@[simp] theorem State.clearDrain_drainView (s : State) : (s.clearDrain).drainView = false := rfl
@[simp] theorem State.clearDrain_window (s : State) : (s.clearDrain).window = s.window := rfl
@[simp] theorem State.clearDrain_devAnswers (s : State) : (s.clearDrain).devAnswers = s.devAnswers := rfl
@[simp] theorem State.clearDrain_devReads (s : State) : (s.clearDrain).devReads = s.devReads := rfl
@[simp] theorem State.clearDrain_trace (s : State) : (s.clearDrain).trace = .releaseDrain :: s.trace := rfl
@[simp] theorem State.clearDrain_script (s : State) : (s.clearDrain).script = s.script := rfl
@[simp] theorem State.clearDrain_chan (s : State) (d : Channel) : (s.clearDrain).chan d = s.chan d := rfl
@[simp] theorem State.clearDrain_anyHb (s : State) : (s.clearDrain).anyHb = s.anyHb := rfl
@[simp] theorem State.clearDrain_anyAu (s : State) : (s.clearDrain).anyAu = s.anyAu := rfl
@[simp] theorem State.clearDrain_slots (s : State) (d : Channel) : (s.clearDrain).slots d = s.slots d := rfl
@[simp] theorem State.clearDrain_eOld (s : State) (d : Channel) : (s.clearDrain).eOld d = s.eOld d := rfl
@[simp] theorem State.clearDrain_byteAt (s : State) (y : Word) : (s.clearDrain).byteAt y = s.byteAt y := rfl
@[simp] theorem State.clearDrain_xlate (s : State) (y : Word) : (s.clearDrain).xlate y = s.xlate y := rfl
@[simp] theorem State.clearDrain_nextInWindow (s : State) : (s.clearDrain).nextInWindow = s.nextInWindow := rfl

@[simp] theorem State.offerNow_params (s : State) (l : HostLine) : (s.offerNow l).params = s.params := rfl
@[simp] theorem State.offerNow_initialised (s : State) (l : HostLine) : (s.offerNow l).initialised = s.initialised := rfl
@[simp] theorem State.offerNow_chans (s : State) (l : HostLine) : (s.offerNow l).chans = s.chans := rfl
@[simp] theorem State.offerNow_view (s : State) (l : HostLine) : (s.offerNow l).view = s.view := rfl
@[simp] theorem State.offerNow_tr (s : State) (l : HostLine) : (s.offerNow l).tr = s.tr := rfl
@[simp] theorem State.offerNow_mem (s : State) (l : HostLine) : (s.offerNow l).mem = s.mem := rfl
@[simp] theorem State.offerNow_rom (s : State) (l : HostLine) : (s.offerNow l).rom = s.rom := rfl
@[simp] theorem State.offerNow_block (s : State) (l : HostLine) : (s.offerNow l).block = s.block := rfl
@[simp] theorem State.offerNow_dispMode (s : State) (l : HostLine) : (s.offerNow l).dispMode = s.dispMode := rfl
@[simp] theorem State.offerNow_irqPending (s : State) (l : HostLine) : (s.offerNow l).irqPending = s.irqPending := rfl
@[simp] theorem State.offerNow_forcedIrqMask (s : State) (l : HostLine) : (s.offerNow l).forcedIrqMask = s.forcedIrqMask := rfl
@[simp] theorem State.offerNow_blankingIrqEnabled (s : State) (l : HostLine) : (s.offerNow l).blankingIrqEnabled = s.blankingIrqEnabled := rfl
@[simp] theorem State.offerNow_nestedIrqEnabled (s : State) (l : HostLine) : (s.offerNow l).nestedIrqEnabled = s.nestedIrqEnabled := rfl
@[simp] theorem State.offerNow_drainRequest (s : State) (l : HostLine) : (s.offerNow l).drainRequest = s.drainRequest := rfl
@[simp] theorem State.offerNow_drainView (s : State) (l : HostLine) : (s.offerNow l).drainView = s.drainView := rfl
@[simp] theorem State.offerNow_window (s : State) (l : HostLine) : (s.offerNow l).window = s.window := rfl
@[simp] theorem State.offerNow_devAnswers (s : State) (l : HostLine) : (s.offerNow l).devAnswers = s.devAnswers := rfl
@[simp] theorem State.offerNow_devReads (s : State) (l : HostLine) : (s.offerNow l).devReads = s.devReads := rfl
@[simp] theorem State.offerNow_trace (s : State) (l : HostLine) : (s.offerNow l).trace = s.trace := rfl
@[simp] theorem State.offerNow_script (s : State) (l : HostLine) : (s.offerNow l).script = ⟨some 0, l⟩ :: s.script := rfl
@[simp] theorem State.offerNow_chan (s : State) (l : HostLine) (d : Channel) : (s.offerNow l).chan d = s.chan d := rfl
@[simp] theorem State.offerNow_anyHb (s : State) (l : HostLine) : (s.offerNow l).anyHb = s.anyHb := rfl
@[simp] theorem State.offerNow_anyAu (s : State) (l : HostLine) : (s.offerNow l).anyAu = s.anyAu := rfl
@[simp] theorem State.offerNow_slots (s : State) (l : HostLine) (d : Channel) : (s.offerNow l).slots d = s.slots d := rfl
@[simp] theorem State.offerNow_eOld (s : State) (l : HostLine) (d : Channel) : (s.offerNow l).eOld d = s.eOld d := rfl
@[simp] theorem State.offerNow_byteAt (s : State) (l : HostLine) (y : Word) : (s.offerNow l).byteAt y = s.byteAt y := rfl
@[simp] theorem State.offerNow_xlate (s : State) (l : HostLine) (y : Word) : (s.offerNow l).xlate y = s.xlate y := rfl

theorem State.setCtrl_slots (s : State) (c d : Channel) (v : Half) :
    (s.setCtrl c v).slots d = if d = c then { s.slots d with ctrl := v } else s.slots d := by
  simp only [State.slots_def, State.setCtrl_view, Quad.get_set]
  split <;> simp_all

@[simp] theorem State.setCtrl_slots_same (s : State) (c : Channel) (v : Half) :
    (s.setCtrl c v).slots c = { s.slots c with ctrl := v } := by simp [State.setCtrl_slots]

@[simp] theorem State.setCtrl_slots_other (s : State) {c d : Channel} (h : d ≠ c) (v : Half) :
    (s.setCtrl c v).slots d = s.slots d := by simp [State.setCtrl_slots, h]

@[simp] theorem State.setSlots_slots_same (s : State) (c : Channel) (x : Slots) : (s.setSlots c x).slots c = x := by
  simp [State.slots_def]

@[simp] theorem State.setSlots_slots_other (s : State) {c d : Channel} (h : d ≠ c) (x : Slots) :
    (s.setSlots c x).slots d = s.slots d := by simp [State.slots_def, h]

@[simp] theorem State.setChan_chan_same (s : State) (c : Channel) (x : Chan) : (s.setChan c x).chan c = x := by
  simp [State.chan_def]

@[simp] theorem State.setChan_chan_other (s : State) {c d : Channel} (h : d ≠ c) (x : Chan) :
    (s.setChan c x).chan d = s.chan d := by simp [State.chan_def, h]

@[simp] theorem State.setCursors_chan_same (s : State) (c : Channel) (a b : Word) :
    (s.setCursors c a b).chan c = { s.chan c with src := a, dst := b } := by simp [State.chan_def]

@[simp] theorem State.setCursors_chan_other (s : State) {c d : Channel} (h : d ≠ c) (a b : Word) :
    (s.setCursors c a b).chan d = s.chan d := by simp [State.chan_def, h]

@[simp] theorem State.setHandler_chan_same (s : State) (c : Channel) (x : Handler) :
    (s.setHandler c x).chan c = { s.chan c with handler := x } := by simp [State.chan_def]

@[simp] theorem State.setHandler_chan_other (s : State) {c d : Channel} (h : d ≠ c) (x : Handler) :
    (s.setHandler c x).chan d = s.chan d := by simp [State.chan_def, h]

@[simp] theorem State.setFlags_chan_same (s : State) (c : Channel) (hb au : Bool) :
    (s.setFlags c hb au).chan c = { s.chan c with hb := hb, au := au } := by simp [State.chan_def]

@[simp] theorem State.setFlags_chan_other (s : State) {c d : Channel} (h : d ≠ c) (hb au : Bool) :
    (s.setFlags c hb au).chan d = s.chan d := by simp [State.chan_def, h]

/-- Some channel's blanking flag is set. -/
theorem State.anyHb_iff (s : State) : s.anyHb = true ↔ ∃ c, (s.chan c).hb = true := by
  constructor
  · intro h
    simp only [State.anyHb, Bool.or_eq_true] at h
    obtain ((h | h) | h) | h := h
    · exact ⟨0, h⟩
    · exact ⟨1, h⟩
    · exact ⟨2, h⟩
    · exact ⟨3, h⟩
  · rintro ⟨c, h⟩
    match c with
    | 0 => simp [State.anyHb, h]
    | 1 => simp [State.anyHb, h]
    | 2 => simp [State.anyHb, h]
    | 3 => simp [State.anyHb, h]

/-- Some channel's audio flag is set. -/
theorem State.anyAu_iff (s : State) : s.anyAu = true ↔ ∃ c, (s.chan c).au = true := by
  constructor
  · intro h
    simp only [State.anyAu, Bool.or_eq_true] at h
    obtain ((h | h) | h) | h := h
    · exact ⟨0, h⟩
    · exact ⟨1, h⟩
    · exact ⟨2, h⟩
    · exact ⟨3, h⟩
  · rintro ⟨c, h⟩
    match c with
    | 0 => simp [State.anyAu, h]
    | 1 => simp [State.anyAu, h]
    | 2 => simp [State.anyAu, h]
    | 3 => simp [State.anyAu, h]

end Machine
end Sys2Proof
end

