-- ==== Sys2Proof/Laws/Ops.lean ====
section
/-! SUPPORT. What the shared operations over memory and registers can do: sequencing, the backing bytes, the register view, the
element access primitives. -/

namespace Sys2Proof.Machine

/-! ### Sequencing -/

@[simp] theorem andThen_next (s : State) (f : State → Answer) : andThen (.next s) f = f s := rfl
@[simp] theorem andThen_refused (r : Refusal) (f : State → Answer) : andThen (.refused r) f = .refused r := rfl

/-- A sequence answers a next state only through one. -/
theorem andThen_eq_next {o : Answer} {f : State → Answer} {t : State} :
    andThen o f = .next t ↔ ∃ s, o = .next s ∧ f s = .next t := by
  cases o with
  | next s => simp
  | fault r => exact nomatch r
  | refused r => simp

theorem andThen_assoc (o : Answer) (f g : State → Answer) :
    andThen (andThen o f) g = andThen o (fun s => andThen (f s) g) := by
  cases o <;> rfl

/-! ### Acceptance -/

theorem acceptCmd_of_accepts {s : State} {c : Channel} (h : s.acceptsCmd c) (f : State → Answer) : acceptCmd c s f = f s := by
  obtain ⟨hi, hw⟩ := h
  have : ¬ (s.window.isSome = true ∧ c = Config.nestCh) := by
    rintro ⟨h1, h2⟩
    rcases hw with hw | hw
    · simp [hw] at h1
    · exact hw h2
  simp [acceptCmd, hi, this]

theorem acceptCmd_eq_next {s t : State} {c : Channel} {f : State → Answer} (h : acceptCmd c s f = .next t) :
    s.acceptsCmd c ∧ f s = .next t := by
  unfold acceptCmd at h
  split at h
  · cases h
  · rename_i hi
    split at h
    · cases h
    · rename_i hw
      refine ⟨⟨by simpa using hi, ?_⟩, h⟩
      by_cases hc : c = 3
      · left
        by_contra hn
        exact hw ⟨Option.isSome_iff_ne_none.2 hn, hc⟩
      · exact .inr hc

theorem acceptStrobe_of_initialised {s : State} (h : s.initialised = true) (f : State → Answer) : acceptStrobe s f = f s := by
  simp [acceptStrobe, h]

theorem acceptStrobe_eq_next {s t : State} {f : State → Answer} (h : acceptStrobe s f = .next t) :
    s.initialised = true ∧ f s = .next t := by
  unfold acceptStrobe at h
  split at h
  · cases h
  · rename_i hi
    exact ⟨by simpa using hi, h⟩

/-! ### The frame of a transfer -/

theorem TransferFrame.refl (s : State) : TransferFrame s s := by
  constructor <;> first | rfl | exact fun _ => rfl

theorem TransferFrame.trans {s t u : State} (h : TransferFrame s t) (k : TransferFrame t u) : TransferFrame s u where
  params := k.params.trans h.params
  initialised := k.initialised.trans h.initialised
  chans := k.chans.trans h.chans
  ctrl c := (k.ctrl c).trans (h.ctrl c)
  rom := k.rom.trans h.rom
  dispMode := k.dispMode.trans h.dispMode
  irqPending := k.irqPending.trans h.irqPending
  forcedIrqMask := k.forcedIrqMask.trans h.forcedIrqMask
  blankingIrqEnabled := k.blankingIrqEnabled.trans h.blankingIrqEnabled
  nestedIrqEnabled := k.nestedIrqEnabled.trans h.nestedIrqEnabled
  drainRequest := k.drainRequest.trans h.drainRequest
  drainView := k.drainView.trans h.drainView
  window := k.window.trans h.window
  script := k.script.trans h.script

theorem TransferFrame.xlate {s t : State} (h : TransferFrame s t) (a : Word) : t.xlate a = s.xlate a := by
  simp only [State.xlate, h.params, h.dispMode]

theorem TransferFrame.chan {s t : State} (h : TransferFrame s t) (c : Channel) : t.chan c = s.chan c := by
  simp only [State.chan, h.chans]

/-- A state that differs in memory, `TR`, the cache block, the device oracle and the trace only. -/
theorem TransferFrame.of_fields (s : State) (m : Memory) (tr : Word) (b : Option Word) (da : List Word) (dr : Nat)
    (e : List Event) :
    TransferFrame s { s with mem := m, tr := tr, block := b, devAnswers := da, devReads := dr, trace := e } := by
  constructor <;> first | rfl | exact fun _ => rfl

/-! ### Backing bytes -/

theorem word_toNat_ne {a b : Word} (h : a ≠ b) : a.toNat ≠ b.toNat := fun h' => h (BitVec.eq_of_toNat_eq h')

theorem State.storeByte_byteAt_other (s : State) {b x : Word} (h : x ≠ b) (v : Byte) :
    (s.storeByte b v).byteAt x = s.byteAt x :=
  Memory.read_write_other _ (word_toNat_ne h) v

theorem State.storeByte_byteAt_same {s : State} (hm : s.mem.wf) (b : Word) (v : Byte) : (s.storeByte b v).byteAt b = v :=
  Memory.read_write_same hm _ v

theorem State.storeByte_wf {s : State} (hm : s.mem.wf) (b : Word) (v : Byte) : (s.storeByte b v).mem.wf :=
  Memory.write_wf hm b.isLt v

theorem State.storeByte_frame (s : State) (b : Word) (v : Byte) : TransferFrame s (s.storeByte b v) :=
  TransferFrame.of_fields s _ s.tr s.block s.devAnswers s.devReads s.trace

/-- What an element write changes of State: the memory alone. -/
theorem State.backWrite_eq (s : State) (b : Word) (w : Width) (v : Word) :
    ∃ m, s.backWrite b w v = { s with mem := m } ∧ (s.mem.wf → m.wf) := by
  cases w with
  | w16 =>
    exact ⟨_, rfl, fun h => Memory.write_wf (Memory.write_wf h (BitVec.isLt _) _) (BitVec.isLt _) _⟩
  | w32 =>
    exact ⟨_, rfl, fun h => Memory.write_wf (Memory.write_wf (Memory.write_wf (Memory.write_wf h (BitVec.isLt _) _)
      (BitVec.isLt _) _) (BitVec.isLt _) _) (BitVec.isLt _) _⟩

theorem State.backWrite_frame (s : State) (b : Word) (w : Width) (v : Word) : TransferFrame s (s.backWrite b w v) := by
  obtain ⟨m, h, -⟩ := s.backWrite_eq b w v
  rw [h]
  exact TransferFrame.of_fields s m s.tr s.block s.devAnswers s.devReads s.trace

theorem State.backWrite_wf {s : State} (hm : s.mem.wf) (b : Word) (w : Width) (v : Word) : (s.backWrite b w v).mem.wf := by
  obtain ⟨m, h, k⟩ := s.backWrite_eq b w v
  rw [h]
  exact k hm

/-- The byte offsets of an element. -/
theorem inBacking_iff {x b : Word} {w : Width} : inBacking x b w ↔ ∃ k < w.bytes, x = b + BitVec.ofNat 32 k := by
  constructor
  · intro h
    refine ⟨(x - b).toNat, h, ?_⟩
    rw [BitVec.ofNat_toNat, BitVec.setWidth_eq, BitVec.add_comm, BitVec.sub_add_cancel]
  · rintro ⟨k, hk, rfl⟩
    have hw : w.bytes ≤ 4 := by cases w <;> decide
    have : (b + BitVec.ofNat 32 k - b) = BitVec.ofNat 32 k := by
      rw [BitVec.add_comm, BitVec.add_sub_cancel]
    simp only [inBacking, this, BitVec.toNat_ofNat]
    omega

theorem not_inBacking_ne {x b : Word} {w : Width} (h : ¬ inBacking x b w) {k : Nat} (hk : k < w.bytes) :
    x ≠ b + BitVec.ofNat 32 k := fun e => h (inBacking_iff.2 ⟨k, hk, e⟩)

/-- An element write leaves every backing byte outside the element alone. -/
theorem State.backWrite_byteAt_other (s : State) {b x : Word} {w : Width} (h : ¬ inBacking x b w) (v : Word) :
    (s.backWrite b w v).byteAt x = s.byteAt x := by
  cases w with
  | w16 =>
    have h0 : x ≠ b := by simpa using not_inBacking_ne h (k := 0) (by decide)
    have h1 := not_inBacking_ne h (k := 1) (by decide)
    simp only [State.backWrite]
    rw [State.storeByte_byteAt_other _ h1, State.storeByte_byteAt_other _ h0]
  | w32 =>
    have h0 : x ≠ b := by simpa using not_inBacking_ne h (k := 0) (by decide)
    have h1 := not_inBacking_ne h (k := 1) (by decide)
    have h2 := not_inBacking_ne h (k := 2) (by decide)
    have h3 := not_inBacking_ne h (k := 3) (by decide)
    simp only [State.backWrite]
    rw [State.storeByte_byteAt_other _ h3, State.storeByte_byteAt_other _ h2, State.storeByte_byteAt_other _ h1,
      State.storeByte_byteAt_other _ h0]

theorem byteOf_append_w32 (v : Word) : byteOf v 3 ++ byteOf v 2 ++ byteOf v 1 ++ byteOf v 0 = v := by
  apply BitVec.eq_of_getLsbD_eq
  intro i hi
  simp only [byteOf, BitVec.getLsbD_append, BitVec.getLsbD_extractLsb']
  by_cases h0 : i < 8
  · simp [h0]
  · by_cases h1 : i < 16
    · have : i - 8 < 8 := by omega
      simp [h0, this, show 8 + (i - 8) = i by omega]
    · by_cases h2 : i < 24
      · have e1 : ¬ (i - 8 < 8) := by omega
        have e2 : i - 8 - 8 < 8 := by omega
        simp [h0, e1, e2, show 16 + (i - 8 - 8) = i by omega]
      · have e1 : ¬ (i - 8 < 8) := by omega
        have e2 : ¬ (i - 8 - 8 < 8) := by omega
        have e3 : i - 8 - 8 - 8 < 8 := by omega
        simp [h0, e1, e2, e3, show 24 + (i - 8 - 8 - 8) = i by omega]

theorem byteOf_append_w16 (v : Word) : (byteOf v 1 ++ byteOf v 0).zeroExtend 32 = v &&& 0x0000FFFF#32 := by
  apply BitVec.eq_of_getLsbD_eq
  intro i hi
  have hm : (0x0000FFFF#32).getLsbD i = decide (i < 16) := by
    have : ∀ i : Fin 32, (0x0000FFFF#32).getLsbD i = decide (i.val < 16) := by decide
    exact this ⟨i, hi⟩
  simp only [byteOf, BitVec.getLsbD_setWidth, BitVec.getLsbD_append, BitVec.getLsbD_extractLsb', BitVec.getLsbD_and, hm]
  by_cases h0 : i < 8
  · simp [h0, hi, show i < 16 by omega]
  · by_cases h1 : i < 16
    · have : i - 8 < 8 := by omega
      simp [h0, h1, hi, this, show 8 + (i - 8) = i by omega]
    · have : ¬ (i - 8 < 8) := by omega
      simp [h0, h1, this]

theorem ofNat_add_ne {b : Word} {j k : Nat} (hj : j < 4) (hk : k < 4) (h : j ≠ k) :
    b + BitVec.ofNat 32 j ≠ b + BitVec.ofNat 32 k := by
  intro e
  have := congrArg BitVec.toNat (BitVec.add_right_inj b |>.1 e)
  simp only [BitVec.toNat_ofNat] at this
  omega

theorem add_zero_ne {b : Word} {k : Nat} (hk : k < 4) (h : 0 ≠ k) : b ≠ b + BitVec.ofNat 32 k := by
  intro e
  have := ofNat_add_ne (b := b) (j := 0) (by decide) hk h
  rw [show BitVec.ofNat 32 0 = 0#32 from rfl, BitVec.add_zero] at this
  exact this e

/-- An element write read back at the same width (rule R62: the same byte order both ways). -/
theorem State.backRead_backWrite {s : State} (hm : s.mem.wf) (b : Word) (w : Width) (v : Word) :
    (s.backWrite b w v).backRead b w = elem w v := by
  have n01 : b ≠ b + 1#32 := add_zero_ne (by decide) (by decide)
  have n02 : b ≠ b + 2#32 := add_zero_ne (by decide) (by decide)
  have n03 : b ≠ b + 3#32 := add_zero_ne (by decide) (by decide)
  have n12 : b + 1#32 ≠ b + 2#32 := ofNat_add_ne (j := 1) (k := 2) (by decide) (by decide) (by decide)
  have n13 : b + 1#32 ≠ b + 3#32 := ofNat_add_ne (j := 1) (k := 3) (by decide) (by decide) (by decide)
  have n23 : b + 2#32 ≠ b + 3#32 := ofNat_add_ne (j := 2) (k := 3) (by decide) (by decide) (by decide)
  have w0 := State.storeByte_wf hm b (byteOf v 0)
  have w1 := State.storeByte_wf w0 (b + 1#32) (byteOf v 1)
  have w2 := State.storeByte_wf w1 (b + 2#32) (byteOf v 2)
  cases w with
  | w16 =>
    simp only [State.backWrite, State.backRead]
    rw [State.storeByte_byteAt_same w0, State.storeByte_byteAt_other _ n01, State.storeByte_byteAt_same hm]
    exact byteOf_append_w16 v
  | w32 =>
    simp only [State.backWrite, State.backRead]
    rw [State.storeByte_byteAt_same w2, State.storeByte_byteAt_other _ n23, State.storeByte_byteAt_same w1,
      State.storeByte_byteAt_other _ n13, State.storeByte_byteAt_other _ n12, State.storeByte_byteAt_same w0,
      State.storeByte_byteAt_other _ n03, State.storeByte_byteAt_other _ n02, State.storeByte_byteAt_other _ n01,
      State.storeByte_byteAt_same hm]
    exact byteOf_append_w32 v

/-- What an element reads depends on its own bytes only. -/
theorem State.backRead_congr {s t : State} {b : Word} {w : Width} (h : ∀ x, inBacking x b w → t.byteAt x = s.byteAt x) :
    t.backRead b w = s.backRead b w := by
  have h0 : t.byteAt b = s.byteAt b := h b (inBacking_iff.2 ⟨0, by cases w <;> decide, by simp⟩)
  have h1 : t.byteAt (b + 1#32) = s.byteAt (b + 1#32) := h _ (inBacking_iff.2 ⟨1, by cases w <;> decide, rfl⟩)
  cases w with
  | w16 => simp only [State.backRead, h0, h1]
  | w32 =>
    have h2 : t.byteAt (b + 2#32) = s.byteAt (b + 2#32) := h _ (inBacking_iff.2 ⟨2, by decide, rfl⟩)
    have h3 : t.byteAt (b + 3#32) = s.byteAt (b + 3#32) := h _ (inBacking_iff.2 ⟨3, by decide, rfl⟩)
    simp only [State.backRead, h0, h1, h2, h3]

/-! ### The register view -/

@[simp] theorem Slots.setByte_ctrl (x : Slots) (o : Nat) (b : Byte) : (x.setByte o b).ctrl = x.ctrl := by
  unfold Slots.setByte
  repeat' split
  all_goals rfl

/-- What a byte stored into the register view changes: the view alone, and no control slot. -/
theorem State.slotByte_eq (s : State) (a : Word) (b : Byte) :
    ∃ v, s.slotByte a b = { s with view := v } ∧ (∀ c, (v.get c).ctrl = (s.view.get c).ctrl) ∧
      (isSlotByte a = false → v = s.view) := by
  unfold State.slotByte
  split
  · rename_i c o h
    refine ⟨_, rfl, fun d => ?_, fun hs => by simp [isSlotByte, h] at hs⟩
    simp only [Quad.get_set]
    split
    · rename_i hd; subst hd; simp [State.slots_def]
    · rfl
  · exact ⟨s.view, rfl, fun _ => rfl, fun _ => rfl⟩

/-- What an element stored into the register view changes. -/
theorem State.slotWrite_eq (s : State) (a : Word) (w : Width) (x : Word) :
    ∃ v, s.slotWrite a w x = { s with view := v } ∧ (∀ c, (v.get c).ctrl = (s.view.get c).ctrl) ∧
      (coversByte isSlotByte a w = false → v = s.view) := by
  cases w with
  | w16 =>
    simp only [State.slotWrite]
    obtain ⟨v0, e0, k0, n0⟩ := s.slotByte_eq a (byteOf x 0)
    rw [e0]
    obtain ⟨v1, e1, k1, n1⟩ := State.slotByte_eq { s with view := v0 } (a + 1#32) (byteOf x 1)
    rw [e1]
    refine ⟨v1, rfl, fun c => (k1 c).trans (k0 c), fun h => ?_⟩
    simp only [coversByte, Bool.or_eq_false_iff] at h
    exact (n1 h.2).trans (n0 h.1)
  | w32 =>
    simp only [State.slotWrite]
    obtain ⟨v0, e0, k0, n0⟩ := s.slotByte_eq a (byteOf x 0)
    rw [e0]
    obtain ⟨v1, e1, k1, n1⟩ := State.slotByte_eq { s with view := v0 } (a + 1#32) (byteOf x 1)
    rw [e1]
    obtain ⟨v2, e2, k2, n2⟩ := State.slotByte_eq { s with view := v1 } (a + 2#32) (byteOf x 2)
    rw [e2]
    obtain ⟨v3, e3, k3, n3⟩ := State.slotByte_eq { s with view := v2 } (a + 3#32) (byteOf x 3)
    rw [e3]
    refine ⟨v3, rfl, fun c => ((k3 c).trans (k2 c)).trans ((k1 c).trans (k0 c)), fun h => ?_⟩
    simp only [coversByte, Bool.or_eq_false_iff] at h
    exact ((n3 h.2).trans (n2 h.1.2)).trans ((n1 h.1.1.2).trans (n0 h.1.1.1))

/-! ### `MemRead` and `MemWrite` -/

/-- What a read can change: the cache block, the device oracle, the trace. -/
theorem State.memRead_eq (s : State) (a : Word) (w : Width) :
    ∃ b da dr e, (s.memRead a w).2 = { s with block := b, devAnswers := da, devReads := dr, trace := e } := by
  unfold State.memRead
  dsimp only
  split
  · exact ⟨s.block, s.devAnswers, s.devReads, s.trace, rfl⟩
  · split
    · cases w <;> exact ⟨_, s.devAnswers, s.devReads, s.trace, rfl⟩
    · split
      · exact ⟨s.block, _, _, _, rfl⟩
      · exact ⟨s.block, s.devAnswers, s.devReads, s.trace, rfl⟩

theorem State.memRead_frame (s : State) (a : Word) (w : Width) : TransferFrame s (s.memRead a w).2 := by
  obtain ⟨b, da, dr, e, h⟩ := s.memRead_eq a w
  rw [h]
  exact TransferFrame.of_fields s s.mem s.tr b da dr e

@[simp] theorem State.memRead_mem (s : State) (a : Word) (w : Width) : (s.memRead a w).2.mem = s.mem := by
  obtain ⟨b, da, dr, e, h⟩ := s.memRead_eq a w
  rw [h]

@[simp] theorem State.memRead_view (s : State) (a : Word) (w : Width) : (s.memRead a w).2.view = s.view := by
  obtain ⟨b, da, dr, e, h⟩ := s.memRead_eq a w
  rw [h]

@[simp] theorem State.memRead_tr (s : State) (a : Word) (w : Width) : (s.memRead a w).2.tr = s.tr := by
  obtain ⟨b, da, dr, e, h⟩ := s.memRead_eq a w
  rw [h]

@[simp] theorem State.memRead_plain {s : State} {a : Word} (h : (region a).plain = true) (w : Width) :
    s.memRead a w = (s.backRead (s.xlate a) w, s) := by
  simp [State.memRead, h]

theorem State.memRead_elem (s : State) (a : Word) (w : Width) : elem w (s.memRead a w).1 = (s.memRead a w).1 := by
  cases w with
  | w32 => rfl
  | w16 =>
    have h16 : ∀ x : Half, elem .w16 (x.zeroExtend 32) = x.zeroExtend 32 := by
      intro x
      apply BitVec.eq_of_toNat_eq
      have hx := x.isLt
      simp only [elem, BitVec.toNat_and, BitVec.toNat_setWidth, BitVec.toNat_ofNat]
      rw [show 65535 % 2 ^ 32 = 2 ^ 16 - 1 from rfl, Nat.and_two_pow_sub_one_eq_mod]
      omega
    have hmask : ∀ x : Word, elem .w16 (elem .w16 x) = elem .w16 x := by
      intro x
      simp [elem, BitVec.and_assoc]
    unfold State.memRead
    dsimp only
    split
    · exact h16 _
    · split
      · exact h16 _
      · split
        · exact hmask _
        · exact hmask _

/-- A read outside ROM leaves the cache block. -/
theorem State.memRead_block {a : Word} (h : region a ≠ .rom) (s : State) (w : Width) : (s.memRead a w).2.block = s.block := by
  unfold State.memRead
  dsimp only
  rw [if_neg h]
  split
  · rfl
  · split <;> rfl

/-- A read outside the device regions leaves the oracle and the record of the ports. -/
theorem State.memRead_ports {a : Word} (h : (region a).device = false) (s : State) (w : Width) :
    (s.memRead a w).2.devAnswers = s.devAnswers ∧ (s.memRead a w).2.devReads = s.devReads ∧ (s.memRead a w).2.trace = s.trace := by
  unfold State.memRead
  dsimp only
  split
  · exact ⟨rfl, rfl, rfl⟩
  · split
    · cases w <;> exact ⟨rfl, rfl, rfl⟩
    · rw [if_neg (by simp [h])]
      exact ⟨rfl, rfl, rfl⟩

/-- Everything a write can do: refused for a control half-word, dropped, a backing write, or a device write. -/
theorem State.memWrite_cases (s : State) (a : Word) (w : Width) (v : Word) :
    ((region a).plain = true ∧ s.memWrite a w v = .next (s.backWrite (s.xlate a) w v)) ∨
    ((region a).plain = false ∧ (region a).device = true ∧ coversByte isCtrlByte a w = true ∧
      s.memWrite a w v = .refused .controlSlotWrite) ∨
    ((region a).plain = false ∧ (region a).device = true ∧ coversByte isCtrlByte a w = false ∧
      s.memWrite a w v = .next ((s.slotWrite a w v).emit (.devWrite a w v))) ∨
    ((region a).plain = false ∧ (region a).device = false ∧ s.memWrite a w v = .next s) := by
  unfold State.memWrite
  by_cases hp : (region a).plain = true
  · simp [hp]
  · by_cases hd : (region a).device = true
    · by_cases hc : coversByte isCtrlByte a w = true
      · simp [hp, hd, hc]
      · simp [hp, hd, hc]
    · simp [hp, hd]

/-- A write that touches no control half-word is carried out. -/
theorem State.memWrite_completes (s : State) {a : Word} {w : Width} (h : coversByte isCtrlByte a w = false) (v : Word) :
    ∃ t, s.memWrite a w v = .next t := by
  rcases s.memWrite_cases a w v with ⟨-, e⟩ | ⟨-, -, hc, -⟩ | ⟨-, -, -, e⟩ | ⟨-, -, e⟩
  · exact ⟨_, e⟩
  · rw [h] at hc; cases hc
  · exact ⟨_, e⟩
  · exact ⟨_, e⟩

/-- What a write that is carried out leaves alone, and what it keeps. -/
theorem State.memWrite_next {s t : State} {a : Word} {w : Width} {v : Word} (h : s.memWrite a w v = .next t) :
    TransferFrame s t ∧ t.tr = s.tr ∧ (s.mem.wf → t.mem.wf) ∧
      (∀ x, ¬ ((region a).plain = true ∧ inBacking x (s.xlate a) w) → t.byteAt x = s.byteAt x) ∧
      (coversByte isSlotByte a w = false → t.view = s.view) := by
  rcases s.memWrite_cases a w v with ⟨hp, e⟩ | ⟨-, -, -, e⟩ | ⟨-, -, -, e⟩ | ⟨-, -, e⟩
  · rw [e] at h; cases h
    obtain ⟨m, hm, hwf⟩ := s.backWrite_eq (s.xlate a) w v
    refine ⟨s.backWrite_frame _ _ _, by rw [hm], fun k => s.backWrite_wf k _ _ _, fun x hx => ?_, fun _ => by rw [hm]⟩
    exact s.backWrite_byteAt_other (fun hb => hx ⟨hp, hb⟩) v
  · rw [e] at h; cases h
  · rw [e] at h; cases h
    obtain ⟨u, hu, hc, hn⟩ := s.slotWrite_eq a w v
    rw [hu]
    refine ⟨?_, rfl, fun k => k, fun _ _ => rfl, fun k => hn k⟩
    constructor <;> first | rfl | exact hc
  · rw [e] at h; cases h
    exact ⟨TransferFrame.refl s, rfl, fun k => k, fun _ _ => rfl, fun _ => rfl⟩

/-- A write leaves the cache block and the oracle, and outside the device regions the record of the ports. -/
theorem State.memWrite_ports {s t : State} {a : Word} {w : Width} {v : Word} (h : s.memWrite a w v = .next t) :
    t.block = s.block ∧ t.devAnswers = s.devAnswers ∧ t.devReads = s.devReads ∧
      ((region a).device = false → t.trace = s.trace) := by
  rcases s.memWrite_cases a w v with ⟨-, e⟩ | ⟨-, -, -, e⟩ | ⟨-, hd, -, e⟩ | ⟨-, -, e⟩
  · rw [e] at h; cases h
    obtain ⟨m, hm, -⟩ := s.backWrite_eq (s.xlate a) w v
    rw [hm]
    exact ⟨rfl, rfl, rfl, fun _ => rfl⟩
  · rw [e] at h; cases h
  · rw [e] at h; cases h
    obtain ⟨u, hu, -, -⟩ := s.slotWrite_eq a w v
    rw [hu]
    exact ⟨rfl, rfl, rfl, fun k => by rw [k] at hd; cases hd⟩
  · rw [e] at h; cases h
    exact ⟨rfl, rfl, rfl, fun _ => rfl⟩

end Sys2Proof.Machine
end

