-- ==== Sys2Proof/Laws/Engine.lean ====
section
/-! SUPPORT. What the bulk transfer engine can do: one element, a run of elements, a whole transfer. Provers cite these and never
unfold the engine. -/

namespace Sys2Proof.Machine

/-! ### One element -/

theorem moveOne_openBus {j : Job} {p : Word} (h : j.pattern = some p) (i : Nat) (s : State) :
    moveOne j i s = s.memWrite (j.dstAt i) j.width p := by
  simp [moveOne, h]

theorem moveOne_read {j : Job} (h : j.pattern = none) (i : Nat) (s : State) :
    moveOne j i s = andThen ((s.memRead (j.srcAt i) j.width).2.memWrite (j.dstAt i) j.width (s.memRead (j.srcAt i) j.width).1)
      (fun t => .next { t with tr := rep (s.memRead (j.srcAt i) j.width).1 j.width }) := by
  simp [moveOne, h]

/-- Everything the move of one element leaves alone, keeps and sets. -/
theorem moveOne_next {j : Job} {i : Nat} {s t : State} (h : moveOne j i s = .next t) :
    TransferFrame s t ∧ (s.mem.wf → t.mem.wf) ∧
      (∀ x, ¬ ((region (j.dstAt i)).plain = true ∧ inBacking x (s.xlate (j.dstAt i)) j.width) → t.byteAt x = s.byteAt x) ∧
      (coversByte isSlotByte (j.dstAt i) j.width = false → t.view = s.view) ∧
      (∀ p, j.pattern = some p → t.tr = s.tr) ∧
      (j.pattern = none → t.tr = rep (s.memRead (j.srcAt i) j.width).1 j.width) := by
  cases hp : j.pattern with
  | some p =>
    rw [moveOne_openBus hp] at h
    obtain ⟨hf, htr, hwf, hb, hv⟩ := State.memWrite_next h
    exact ⟨hf, hwf, hb, hv, fun _ _ => htr, (fun h' => nomatch h')⟩
  | none =>
    rw [moveOne_read hp] at h
    obtain ⟨u, hu, ht⟩ := andThen_eq_next.1 h
    cases ht
    obtain ⟨hf, -, hwf, hb, hv⟩ := State.memWrite_next hu
    have hr := s.memRead_frame (j.srcAt i) j.width
    have hfr := hr.trans hf
    refine ⟨?_, fun k => hwf (by simpa using k), fun x hx => ?_, fun k => ?_, (fun _ h' => nomatch h'), fun _ => rfl⟩
    · exact ⟨hfr.params, hfr.initialised, hfr.chans, hfr.ctrl, hfr.rom, hfr.dispMode, hfr.irqPending, hfr.forcedIrqMask,
        hfr.blankingIrqEnabled, hfr.nestedIrqEnabled, hfr.drainRequest, hfr.drainView, hfr.window, hfr.script⟩
    · have := hb x (by rwa [hr.xlate])
      simpa [State.byteAt] using this
    · simpa using hv k

/-- An element that touches no control half-word is moved. -/
theorem moveOne_completes {j : Job} {i : Nat} (h : coversByte isCtrlByte (j.dstAt i) j.width = false) (s : State) :
    ∃ t, moveOne j i s = .next t := by
  cases hp : j.pattern with
  | some p =>
    rw [moveOne_openBus hp]
    exact s.memWrite_completes h p
  | none =>
    rw [moveOne_read hp]
    obtain ⟨t, ht⟩ := (s.memRead (j.srcAt i) j.width).2.memWrite_completes h (s.memRead (j.srcAt i) j.width).1
    exact ⟨_, andThen_eq_next.2 ⟨t, ht, rfl⟩⟩

/-! ### A run of elements -/

@[simp] theorem moveFrom_zero (j : Job) (i : Nat) (s : State) : moveFrom j i 0 s = .next s := rfl

theorem moveFrom_succ (j : Job) (i k : Nat) (s : State) :
    moveFrom j i (k + 1) s = andThen (moveOne j i s) (moveFrom j (i + 1) k) := rfl

/-- A run of elements in two parts. -/
theorem moveFrom_add (j : Job) (i k l : Nat) (s : State) :
    moveFrom j i (k + l) s = andThen (moveFrom j i k s) (moveFrom j (i + k) l) := by
  induction k generalizing i s with
  | zero => simp
  | succ k ih =>
    rw [Nat.add_right_comm, moveFrom_succ, moveFrom_succ, andThen_assoc]
    congr 1
    funext t
    rw [ih, show i + 1 + k = i + (k + 1) by omega]

/-- The last element of a run, split off. -/
theorem moveFrom_last (j : Job) (i k : Nat) (s : State) :
    moveFrom j i (k + 1) s = andThen (moveFrom j i k s) (moveOne j (i + k)) := by
  rw [moveFrom_add]
  congr 1
  funext t
  simp only [moveFrom]
  cases moveOne j (i + k) t <;> rfl

/-- Everything a run of elements leaves alone and keeps. -/
theorem moveFrom_next {j : Job} {k : Nat} : ∀ {i : Nat} {s t : State}, moveFrom j i k s = .next t →
    TransferFrame s t ∧ (s.mem.wf → t.mem.wf) ∧
      (∀ x, (∀ m, i ≤ m → m < i + k → ¬ ((region (j.dstAt m)).plain = true ∧ inBacking x (s.xlate (j.dstAt m)) j.width)) →
        t.byteAt x = s.byteAt x) ∧
      ((∀ m, i ≤ m → m < i + k → coversByte isSlotByte (j.dstAt m) j.width = false) → t.view = s.view) ∧
      (∀ p, j.pattern = some p → t.tr = s.tr) := by
  induction k with
  | zero =>
    intro i s t h
    cases h
    exact ⟨TransferFrame.refl s, fun h => h, fun _ _ => rfl, fun _ => rfl, fun _ _ => rfl⟩
  | succ k ih =>
    intro i s t h
    obtain ⟨u, hu, ht⟩ := andThen_eq_next.1 h
    obtain ⟨f1, w1, b1, v1, p1, -⟩ := moveOne_next hu
    obtain ⟨f2, w2, b2, v2, p2⟩ := ih ht
    refine ⟨f1.trans f2, fun h => w2 (w1 h), fun x hx => ?_, fun hx => ?_, fun p hp => (p2 p hp).trans (p1 p hp)⟩
    · rw [b2 x fun m h1 h2 => ?_, b1 x (hx i (by omega) (by omega))]
      rw [f1.xlate]
      exact hx m (by omega) (by omega)
    · rw [v2 fun m h1 h2 => hx m (by omega) (by omega), v1 (hx i (by omega) (by omega))]

/-- The element moved reads nothing from a region for which `p` holds. -/
abbrev Job.readsNoneAt (j : Job) (i : Nat) (p : Region → Bool) : Prop := j.pattern.isSome = true ∨ p (region (j.srcAt i)) = false

/-- The move of one element and what lies beside memory: the cache block, the oracle, the record of the ports. -/
theorem moveOne_ports {j : Job} {i : Nat} {s t : State} (h : moveOne j i s = .next t) :
    (j.readsNoneAt i (fun r => decide (r = .rom)) → t.block = s.block) ∧
      (j.readsNoneAt i Region.device → t.devAnswers = s.devAnswers ∧ t.devReads = s.devReads ∧
        ((region (j.dstAt i)).device = false → t.trace = s.trace)) := by
  cases hp : j.pattern with
  | some p =>
    rw [moveOne_openBus hp] at h
    obtain ⟨h1, h2, h3, h4⟩ := State.memWrite_ports h
    exact ⟨fun _ => h1, fun _ => ⟨h2, h3, h4⟩⟩
  | none =>
    rw [moveOne_read hp] at h
    obtain ⟨u, hu, ht⟩ := andThen_eq_next.1 h
    cases ht
    obtain ⟨h1, h2, h3, h4⟩ := State.memWrite_ports hu
    refine ⟨fun hr => ?_, fun hr => ?_⟩
    · have : region (j.srcAt i) ≠ .rom := by simpa [Job.readsNoneAt, hp] using hr
      exact h1.trans (s.memRead_block this _)
    · have : (region (j.srcAt i)).device = false := by simpa [Job.readsNoneAt, hp] using hr
      obtain ⟨k1, k2, k3⟩ := s.memRead_ports this j.width
      exact ⟨h2.trans k1, h3.trans k2, fun hd => (h4 hd).trans k3⟩

/-- The same of a run of elements. -/
theorem moveFrom_ports {j : Job} {k : Nat} : ∀ {i : Nat} {s t : State}, moveFrom j i k s = .next t →
    ((∀ m, i ≤ m → m < i + k → j.readsNoneAt m (fun r => decide (r = .rom))) → t.block = s.block) ∧
      ((∀ m, i ≤ m → m < i + k → j.readsNoneAt m Region.device) → t.devAnswers = s.devAnswers ∧ t.devReads = s.devReads ∧
        ((∀ m, i ≤ m → m < i + k → (region (j.dstAt m)).device = false) → t.trace = s.trace)) := by
  induction k with
  | zero =>
    intro i s t h
    cases h
    exact ⟨fun _ => rfl, fun _ => ⟨rfl, rfl, fun _ => rfl⟩⟩
  | succ k ih =>
    intro i s t h
    obtain ⟨u, hu, ht⟩ := andThen_eq_next.1 h
    obtain ⟨a1, a2⟩ := moveOne_ports hu
    obtain ⟨b1, b2⟩ := ih ht
    refine ⟨fun hx => ?_, fun hx => ?_⟩
    · exact (b1 fun m h1 h2 => hx m (by omega) (by omega)).trans (a1 (hx i (by omega) (by omega)))
    · obtain ⟨c1, c2, c3⟩ := a2 (hx i (by omega) (by omega))
      obtain ⟨d1, d2, d3⟩ := b2 fun m h1 h2 => hx m (by omega) (by omega)
      exact ⟨d1.trans c1, d2.trans c2, fun hd =>
        (d3 fun m h1 h2 => hd m (by omega) (by omega)).trans (c3 (hd i (by omega) (by omega)))⟩

/-- A run none of whose elements touches a control half-word is moved. -/
theorem moveFrom_completes {j : Job} {k : Nat} : ∀ {i : Nat},
    (∀ m, i ≤ m → m < i + k → coversByte isCtrlByte (j.dstAt m) j.width = false) → ∀ s, ∃ t, moveFrom j i k s = .next t := by
  induction k with
  | zero => exact fun _ s => ⟨s, rfl⟩
  | succ k ih =>
    intro i h s
    obtain ⟨u, hu⟩ := moveOne_completes (h i (by omega) (by omega)) s
    obtain ⟨t, ht⟩ := ih (i := i + 1) (fun m h1 h2 => h m (by omega) (by omega)) u
    exact ⟨t, andThen_eq_next.2 ⟨u, hu, ht⟩⟩

/-- What holds the window does not reach the engine: memory writes, reads and element moves are the same whatever window stands. -/
theorem State.memWrite_window (s : State) (x : Option Window) (a : Word) (w : Width) (v : Word) :
    State.memWrite { s with window := x } a w v = andThen (s.memWrite a w v) fun t => .next { t with window := x } := by
  have hb : State.backWrite { s with window := x } (s.xlate a) w v = { s.backWrite (s.xlate a) w v with window := x } := by
    cases w <;> rfl
  have hsb : ∀ (t : State) (a : Word) (b : Byte), State.slotByte { t with window := x } a b = { t.slotByte a b with window := x } := by
    intro t a b
    unfold State.slotByte
    split <;> rfl
  have hs : State.slotWrite { s with window := x } a w v = { s.slotWrite a w v with window := x } := by
    cases w <;> simp only [State.slotWrite, hsb]
  unfold State.memWrite
  dsimp only
  split
  · show Host.Outcome.next (State.backWrite { s with window := x } (s.xlate a) w v) = _
    rw [hb]; rfl
  · split
    · split
      · rfl
      · rw [hs]; rfl
    · rfl

theorem State.memRead_window (s : State) (x : Option Window) (a : Word) (w : Width) :
    State.memRead { s with window := x } a w = ((s.memRead a w).1, { (s.memRead a w).2 with window := x }) := by
  unfold State.memRead
  dsimp only
  split
  · cases w <;> rfl
  · split
    · cases w <;> rfl
    · split
      · rfl
      · rfl

theorem moveOne_window (j : Job) (i : Nat) (s : State) (x : Option Window) :
    moveOne j i { s with window := x } = andThen (moveOne j i s) fun t => .next { t with window := x } := by
  cases hp : j.pattern with
  | some p => rw [moveOne_openBus hp, moveOne_openBus hp, State.memWrite_window]
  | none =>
    rw [moveOne_read hp, moveOne_read hp, State.memRead_window, State.memWrite_window, andThen_assoc, andThen_assoc]
    rfl

theorem moveFrom_window (j : Job) (k : Nat) : ∀ (i : Nat) (s : State) (x : Option Window),
    moveFrom j i k { s with window := x } = andThen (moveFrom j i k s) fun t => .next { t with window := x } := by
  induction k with
  | zero => intro i s x; rfl
  | succ k ih =>
    intro i s x
    rw [moveFrom_succ, moveFrom_succ, moveOne_window, andThen_assoc, andThen_assoc]
    congr 1
    funext t
    simp only [andThen_next]
    exact ih _ _ _

/-! ### A whole transfer -/

@[simp] theorem mkJob_width (src dst : Word) (ss ds : StepDir) (w : Width) (tr : Word) : (mkJob src dst ss ds w tr).width = w := rfl
@[simp] theorem mkJob_dst (src dst : Word) (ss ds : StepDir) (w : Width) (tr : Word) :
    (mkJob src dst ss ds w tr).dst = alignDown dst w := rfl
@[simp] theorem mkJob_src (src dst : Word) (ss ds : StepDir) (w : Width) (tr : Word) :
    (mkJob src dst ss ds w tr).src = alignDown src w := rfl
@[simp] theorem mkJob_dstAt (src dst : Word) (ss ds : StepDir) (w : Width) (tr : Word) (i : Nat) :
    (mkJob src dst ss ds w tr).dstAt i = adv (alignDown dst w) i w ds := rfl
@[simp] theorem mkJob_srcAt (src dst : Word) (ss ds : StepDir) (w : Width) (tr : Word) (i : Nat) :
    (mkJob src dst ss ds w tr).srcAt i = adv (alignDown src w) i w ss := rfl

theorem Job.endPass_frame (j : Job) (s : State) : TransferFrame s (j.endPass s) := by
  unfold Job.endPass
  split
  · exact TransferFrame.of_fields s s.mem _ s.block s.devAnswers s.devReads s.trace
  · exact TransferFrame.refl s

@[simp] theorem Job.endPass_mem (j : Job) (s : State) : (j.endPass s).mem = s.mem := by
  unfold Job.endPass; split <;> rfl
@[simp] theorem Job.endPass_view (j : Job) (s : State) : (j.endPass s).view = s.view := by
  unfold Job.endPass; split <;> rfl
@[simp] theorem Job.endPass_trace (j : Job) (s : State) : (j.endPass s).trace = s.trace := by
  unfold Job.endPass; split <;> rfl

/-- A transfer of no element does nothing (rule R162). -/
@[simp] theorem xfer_zero (src dst : Word) (ss ds : StepDir) (w : Width) (s : State) : xfer src dst 0 ss ds w s = .next s := by
  simp [xfer]

/-- A transfer of some elements: the run, then the end of the pass. -/
theorem xfer_pos {n : Nat} (h : n ≠ 0) (src dst : Word) (ss ds : StepDir) (w : Width) (s : State) :
    xfer src dst n ss ds w s =
      andThen (moveFrom (mkJob src dst ss ds w s.tr) 0 n s) fun t => .next ((mkJob src dst ss ds w s.tr).endPass t) := by
  simp [xfer, h]

/-- Everything a transfer leaves alone and keeps (rules R173, R174). -/
theorem xfer_next {src dst : Word} {n : Nat} {ss ds : StepDir} {w : Width} {s t : State}
    (h : xfer src dst n ss ds w s = .next t) :
    TransferFrame s t ∧ (s.mem.wf → t.mem.wf) ∧
      (∀ x, ¬ s.storedBy (mkJob src dst ss ds w s.tr) n x → t.byteAt x = s.byteAt x) ∧
      ((mkJob src dst ss ds w s.tr).sparesView n → t.view = s.view) := by
  by_cases hn : n = 0
  · subst hn
    rw [xfer_zero] at h
    cases h
    exact ⟨TransferFrame.refl s, fun h => h, fun _ _ => rfl, fun _ => rfl⟩
  · rw [xfer_pos hn] at h
    obtain ⟨u, hu, ht⟩ := andThen_eq_next.1 h
    cases ht
    obtain ⟨f, wf, b, v, -⟩ := moveFrom_next hu
    refine ⟨f.trans (Job.endPass_frame _ u), fun k => by simpa using wf k, fun x hx => ?_, fun hx => ?_⟩
    · have := b x fun m _ h2 hc => hx ⟨m, by omega, hc⟩
      simpa [State.byteAt] using this
    · simpa using v fun m _ h2 => hx m (by omega)

/-- What a transfer leaves beside memory (rules R66, R69): the cache block where no ROM element is read, the oracle where no device
element is, the record of the ports where moreover no device is written. -/
theorem xfer_ports {src dst : Word} {n : Nat} {ss ds : StepDir} {w : Width} {s t : State} (h : xfer src dst n ss ds w s = .next t) :
    ((mkJob src dst ss ds w s.tr).readsNone n (fun r => decide (r = .rom)) → t.block = s.block) ∧
      ((mkJob src dst ss ds w s.tr).readsNone n Region.device → t.devAnswers = s.devAnswers ∧ t.devReads = s.devReads ∧
        ((∀ i < n, (region ((mkJob src dst ss ds w s.tr).dstAt i)).device = false) → t.trace = s.trace)) := by
  by_cases hn : n = 0
  · subst hn
    rw [xfer_zero] at h
    cases h
    exact ⟨fun _ => rfl, fun _ => ⟨rfl, rfl, fun _ => rfl⟩⟩
  · rw [xfer_pos hn] at h
    obtain ⟨u, hu, ht⟩ := andThen_eq_next.1 h
    cases ht
    have := moveFrom_ports hu
    rw [Job.endPass_trace]
    obtain ⟨e1, e2, e3⟩ : ((mkJob src dst ss ds w s.tr).endPass u).block = u.block ∧
        ((mkJob src dst ss ds w s.tr).endPass u).devAnswers = u.devAnswers ∧
        ((mkJob src dst ss ds w s.tr).endPass u).devReads = u.devReads := by
      unfold Job.endPass
      split <;> exact ⟨rfl, rfl, rfl⟩
    rw [e1, e2, e3]
    refine ⟨fun hr => this.1 fun m _ h2 => hr.imp_right fun k => k m (by omega), fun hr => ?_⟩
    obtain ⟨a1, a2, a3⟩ := this.2 fun m _ h2 => hr.imp_right fun k => k m (by omega)
    exact ⟨a1, a2, fun hd => a3 fun m _ h2 => hd m (by omega)⟩

/-- `TR` after a transfer of some elements from a readable or unreadable source: the image of the last element, as read in the
state the earlier moves left (rule R172). -/
theorem xfer_tr {src dst : Word} {n : Nat} {ss ds : StepDir} {w : Width} {s t : State} (hn : n ≠ 0)
    (hs : ¬ alignDown src w < Config.openbusLimit) (h : xfer src dst n ss ds w s = .next t) :
    ∃ u, moveFrom (mkJob src dst ss ds w s.tr) 0 (n - 1) s = .next u ∧
      t.tr = rep (u.memRead (adv (alignDown src w) (n - 1) w ss) w).1 w := by
  have hp : (mkJob src dst ss ds w s.tr).pattern = none := by simp [mkJob, hs]
  rw [xfer_pos hn, show n = n - 1 + 1 by omega, moveFrom_last] at h
  obtain ⟨v, hv, ht⟩ := andThen_eq_next.1 h
  obtain ⟨u, hu, hl⟩ := andThen_eq_next.1 hv
  cases ht
  refine ⟨u, hu, ?_⟩
  obtain ⟨-, -, -, -, -, k⟩ := moveOne_next hl
  have := k hp
  rw [Nat.zero_add, mkJob_srcAt] at this
  simpa [Job.endPass, hp] using this

/-- A transfer that touches no control half-word is carried out (rule R301 is the only stop). -/
theorem xfer_completes {src dst : Word} {n : Nat} {ss ds : StepDir} {w : Width} {s : State}
    (h : (mkJob src dst ss ds w s.tr).sparesControl n) : ∃ t, xfer src dst n ss ds w s = .next t := by
  by_cases hn : n = 0
  · subst hn
    exact ⟨s, xfer_zero ..⟩
  · obtain ⟨u, hu⟩ := moveFrom_completes (j := mkJob src dst ss ds w s.tr) (k := n) (i := 0)
      (fun m _ h2 => h m (by omega)) s
    exact ⟨_, by rw [xfer_pos hn]; exact andThen_eq_next.2 ⟨u, hu, rfl⟩⟩

/-- The code-invalidate request is an output event and nothing else (rule R79). -/
theorem State.requestCodeInvalidate_eq (s : State) (dst : Word) (n : Nat) (ds : StepDir) (w : Width) :
    ∃ e, s.requestCodeInvalidate dst n ds w = { s with trace := e } := by
  unfold State.requestCodeInvalidate
  split
  · exact ⟨s.trace, rfl⟩
  · cases ds <;> exact ⟨_, rfl⟩

theorem State.requestCodeInvalidate_frame (s : State) (dst : Word) (n : Nat) (ds : StepDir) (w : Width) :
    TransferFrame s (s.requestCodeInvalidate dst n ds w) := by
  obtain ⟨e, h⟩ := s.requestCodeInvalidate_eq dst n ds w
  rw [h]
  exact TransferFrame.of_fields s s.mem s.tr s.block s.devAnswers s.devReads e

end Sys2Proof.Machine
end

