-- ==== Sys2Proof/Laws/Flags.lean ====
section
/-! SUPPORT. What the flag operations do: one bit of a mask, the shared levels, `stop` and `deactivate`. -/

namespace Sys2Proof.Machine

/-! ### One bit of a mask -/

theorem setMaskBit_same (m i : Nat) (b : Bool) : (setMaskBit m i b).testBit i = b := by
  unfold setMaskBit
  split
  · assumption
  · rw [Nat.testBit_xor, Nat.testBit_two_pow_self, Bool.xor_true]
    exact Bool.not_eq.mpr ‹_›

theorem setMaskBit_other (m : Nat) {i j : Nat} (h : j ≠ i) (b : Bool) : (setMaskBit m i b).testBit j = m.testBit j := by
  unfold setMaskBit
  split
  · rfl
  · rw [Nat.testBit_xor, Nat.testBit_two_pow_of_ne h.symm, Bool.xor_false]

/-- What rule R9 says of the two bit indices. -/
theorem Params_bits {p : Config.Params} (h : p.ok = true) : p.forcedBlankBit ≠ p.forcedAudioBit := by
  simp only [Config.Params.ok, Bool.and_eq_true, decide_eq_true_eq] at h
  exact h.1.2

/-- The pending mask after a raised interrupt, bit by bit. -/
theorem raise_bit (m : BitVec 16) (c : Channel) (b : Nat) :
    (m ||| (1#16 <<< (8 + c.val))).getLsbD b = true ↔ (m.getLsbD b = true ∨ b = 8 + c.val) := by
  have hc := c.isLt
  have h1 : (1#16 <<< (8 + c.val)).getLsbD b = true ↔ b = 8 + c.val := by
    rw [BitVec.getLsbD_shiftLeft]
    by_cases hb : b < 8 + c.val
    · simp [hb]; omega
    · simp only [BitVec.getLsbD_one]
      by_cases hb' : b = 8 + c.val
      · subst hb'; simp; omega
      · have : b - (8 + c.val) ≠ 0 := by omega
        simp [hb', this]
  rw [BitVec.getLsbD_or, Bool.or_eq_true, h1]

/-! ### The shared levels -/

/-- After `updateSharedEnables` the levels are the OR of the flags (rule R256). -/
theorem State.updateSharedEnables_levels {s : State} (h : s.params.ok = true) : s.updateSharedEnables.LevelsOk := by
  have hne := Params_bits h
  refine ⟨?_, rfl, ?_⟩
  · simp only [State.updateSharedEnables_forcedIrqMask, State.updateSharedEnables_params, State.updateSharedEnables_anyHb]
    rw [setMaskBit_other _ hne, setMaskBit_same]
  · simp only [State.updateSharedEnables_forcedIrqMask, State.updateSharedEnables_params, State.updateSharedEnables_anyAu]
    rw [setMaskBit_same]

/-! ### `stop` and `deactivate` -/

/-- Everything `stop` changes (rule R193). -/
theorem State.stop_eq (s : State) (c : Channel) :
    ∃ t : State, s.stop c = t.updateSharedEnables ∧
      t = { s with chans := s.chans.set c { s.chan c with hb := false, au := false, handler := .inactive } } := by
  refine ⟨_, rfl, ?_⟩
  simp only [State.setHandler, State.setFlags, State.setChan, State.chan, Quad.get_set_same, Quad.set_set]

@[simp] theorem State.stop_chan_same (s : State) (c : Channel) :
    (s.stop c).chan c = { s.chan c with hb := false, au := false, handler := .inactive } := by
  simp [State.stop]

@[simp] theorem State.stop_chan_other (s : State) {c d : Channel} (h : d ≠ c) : (s.stop c).chan d = s.chan d := by
  simp [State.stop, h]

@[simp] theorem State.stop_slots (s : State) (c d : Channel) : (s.stop c).slots d = s.slots d := rfl

theorem State.stop_anyHb (s : State) (c : Channel) :
    (s.stop c).anyHb = true ↔ ∃ d, d ≠ c ∧ (s.chan d).hb = true := by
  rw [State.anyHb_iff]
  constructor
  · rintro ⟨d, hd⟩
    by_cases h : d = c
    · subst h; simp at hd
    · exact ⟨d, h, by rwa [State.stop_chan_other _ h] at hd⟩
  · rintro ⟨d, h, hd⟩
    exact ⟨d, by rwa [State.stop_chan_other _ h]⟩

theorem State.stop_anyAu (s : State) (c : Channel) :
    (s.stop c).anyAu = true ↔ ∃ d, d ≠ c ∧ (s.chan d).au = true := by
  rw [State.anyAu_iff]
  constructor
  · rintro ⟨d, hd⟩
    by_cases h : d = c
    · subst h; simp at hd
    · exact ⟨d, h, by rwa [State.stop_chan_other _ h] at hd⟩
  · rintro ⟨d, h, hd⟩
    exact ⟨d, by rwa [State.stop_chan_other _ h]⟩

theorem State.stop_levels {s : State} (h : s.params.ok = true) (c : Channel) : (s.stop c).LevelsOk :=
  State.updateSharedEnables_levels (s := (s.setFlags c false false).setHandler c .inactive) h

@[simp] theorem State.deactivate_chan_same (s : State) (c : Channel) :
    (s.deactivate c).chan c = { s.chan c with hb := false, au := false, handler := .inactive } := by
  simp [State.deactivate]

@[simp] theorem State.deactivate_chan_other (s : State) {c d : Channel} (h : d ≠ c) :
    (s.deactivate c).chan d = s.chan d := by
  simp [State.deactivate, h]

@[simp] theorem State.deactivate_slots_same (s : State) (c : Channel) :
    (s.deactivate c).slots c = { s.slots c with ctrl := clearEn (s.slots c).ctrl } := by
  simp [State.deactivate]

@[simp] theorem State.deactivate_slots_other (s : State) {c d : Channel} (h : d ≠ c) :
    (s.deactivate c).slots d = s.slots d := by
  simp [State.deactivate, h]

theorem State.deactivate_levels {s : State} (h : s.params.ok = true) (c : Channel) : (s.deactivate c).LevelsOk :=
  State.stop_levels (s := s.setCtrl c _) h c

end Sys2Proof.Machine
end

