-- ==== Sys2Proof/Laws/Channel.lean ====
section
/-! SUPPORT. What a start and a trigger do to a channel: the started state, the completion after a transfer, the nesting window, one
triggered transfer. Provers cite these and never unfold the meanings. -/

namespace Sys2Proof.Machine

/-! ### The events after a transfer -/

theorem ofNat_footprint {n : Nat} (h : n ≠ 0) (w : Width) :
    BitVec.ofNat 32 (n * w.bytes - 1) = BitVec.ofNat 32 ((n - 1) * w.bytes) + BitVec.ofNat 32 (w.bytes - 1) := by
  rw [← BitVec.ofNat_add]
  congr 1
  obtain ⟨k, rfl⟩ := Nat.exists_eq_succ_of_ne_zero h
  cases w <;> simp [Width.bytes] <;> omega

/-- The code-invalidate request names the destination footprint (rules R79, R174). -/
theorem State.requestCodeInvalidate_trace (s : State) (src dst tr : Word) (n : Nat) (ss ds : StepDir) (w : Width) (c : Channel) :
    s.requestCodeInvalidate dst n ds w =
      { s with trace := completionEvents c false (mkJob src dst ss ds w tr) n ++ s.trace } := by
  by_cases h : n = 0
  · simp [State.requestCodeInvalidate, completionEvents, h]
  · cases ds with
    | inc =>
      simp [State.requestCodeInvalidate, completionEvents, h, Job.footprint, mkJob, State.emit, ofNat_footprint h,
        BitVec.add_assoc]
    | dec =>
      simp only [State.requestCodeInvalidate, completionEvents, h, Job.footprint, mkJob, State.emit, ofNat_footprint h, if_false,
        Bool.false_eq_true, List.nil_append, List.cons_append]
      rw [← BitVec.add_assoc, BitVec.sub_add_cancel]
    | fix =>
      simp [State.requestCodeInvalidate, completionEvents, h, Job.footprint, mkJob, State.emit]

/-! ### Immediate starts -/

/-- The started state, as the meaning makes it. -/
theorem State.immStarted_eq (s : State) (c : Channel) (v : Half) (ss : StepDir) :
    (s.setCtrl c v).setCursors c
        (adv (rebase s.params (s.slots c).sad) (effCount c (s.slots c).cnt) (wbits v) ss)
        (adv (s.slots c).dad (effCount c (s.slots c).cnt) (wbits v) (dstep v)) =
      s.immStarted c v ss := rfl

@[simp] theorem State.immStarted_tr (s : State) (c : Channel) (v : Half) (ss : StepDir) : (s.immStarted c v ss).tr = s.tr := rfl
@[simp] theorem State.immStarted_params (s : State) (c : Channel) (v : Half) (ss : StepDir) :
    (s.immStarted c v ss).params = s.params := rfl
@[simp] theorem State.immStarted_nextInWindow (s : State) (c : Channel) (v : Half) (ss : StepDir) :
    (s.immStarted c v ss).nextInWindow = s.nextInWindow := rfl
@[simp] theorem State.immStarted_xlate (s : State) (c : Channel) (v : Half) (ss : StepDir) (a : Word) :
    (s.immStarted c v ss).xlate a = s.xlate a := rfl
@[simp] theorem State.immStarted_byteAt (s : State) (c : Channel) (v : Half) (ss : StepDir) (a : Word) :
    (s.immStarted c v ss).byteAt a = s.byteAt a := rfl

/-- An accepted immediate start whose source control is not 3: the transfer begins in the started state. -/
theorem execStartImm_started {s : State} {c : Channel} {v : Half} {ss : StepDir} (h : s.acceptsCmd c) (hs : sstep v = some ss) :
    execStartImm c v s =
      if c = 3 then windowedTransfer (s.immJob c v ss) (s.count c) v (s.immStarted c v ss)
      else andThen (xfer (s.immSource c) (s.slots c).dad (s.count c) ss (dstep v) (wbits v) (s.immStarted c v ss)) fun u =>
        .next (u.completeImm c v (s.slots c).dad (s.count c) (dstep v) (wbits v)) := by
  unfold execStartImm
  rw [acceptCmd_of_accepts h]
  simp only [State.setCtrl_slots_same, State.setCtrl_params, hs]
  rfl

/-- An accepted immediate start with source control 3 is refused (rule R104). -/
theorem execStartImm_illegal {s : State} {c : Channel} {v : Half} (h : s.acceptsCmd c) (hs : sstep v = none) :
    execStartImm c v s = .refused .srcCtlIllegal := by
  unfold execStartImm
  rw [acceptCmd_of_accepts h]
  simp only [hs]

/-- What the completion of an immediate start changes (rule R199). -/
theorem State.completeImm_eq (u : State) (c : Channel) (v : Half) (src dst tr : Word) (n : Nat) (ss ds : StepDir) (w : Width) :
    u.completeImm c v dst n ds w =
      { u with
        chans := u.chans.set c { u.chan c with handler := if ctlRep v then .immediateCompleted else .inactive }
        view := if ctlRep v then u.view else u.view.set c { u.slots c with ctrl := clearEn (u.slots c).ctrl }
        irqPending := pendingAfter u.irqPending c (ctlIrq v)
        trace := completionEvents c (ctlIrq v) (mkJob src dst ss ds w tr) n ++ u.trace } := by
  unfold State.completeImm
  rw [State.requestCodeInvalidate_trace u src dst tr n ss ds w c]
  by_cases hi : ctlIrq v = true
  · by_cases hr : ctlRep v = true
    · simp [hi, hr, State.setHandler, State.setChan, State.raiseIrq, pendingAfter, completionEvents, Config.irqBase, State.chan]
    · simp [hi, hr, State.setHandler, State.setChan, State.raiseIrq, pendingAfter, completionEvents, Config.irqBase, State.chan,
        State.setCtrl, State.setSlots, State.slots]
  · by_cases hr : ctlRep v = true
    · simp [hi, hr, State.setHandler, State.setChan, pendingAfter, completionEvents, State.chan]
    · simp [hi, hr, State.setHandler, State.setChan, pendingAfter, completionEvents, State.chan, State.setCtrl, State.setSlots,
        State.slots]

/-- A transfer after which an immediate start completes, with everything the two leave. -/
theorem State.completeImm_result {s u : State} {c : Channel} {v : Half} {ss : StepDir} {e : List Event}
    (f : TransferFrame (s.immStarted c v ss) { u with trace := e }) :
    ImmediateResult s u (State.completeImm { u with trace := e } c v (s.slots c).dad (s.count c) (dstep v) (wbits v)) c v ss e := by
  rw [State.completeImm_eq _ c v (s.immSource c) (s.slots c).dad s.tr (s.count c) ss (dstep v) (wbits v)]
  have hc : u.chans = (s.immStarted c v ss).chans := f.chans
  have hv : (u.slots c).ctrl = v := by
    have := f.ctrl c
    simpa [State.immStarted, State.slots] using this
  refine {
    mem := rfl, tr := rfl, block := rfl, devAnswers := rfl, devReads := rfl, chans := ?_, view := ?_, irqPending := ?_
    trace := rfl, params := f.params, initialised := f.initialised, rom := f.rom, dispMode := f.dispMode
    forcedIrqMask := f.forcedIrqMask, blankingIrqEnabled := f.blankingIrqEnabled, nestedIrqEnabled := f.nestedIrqEnabled
    drainRequest := f.drainRequest, drainView := f.drainView, window := f.window, script := f.script }
  · simp only [State.chan, hc, State.immStarted, Quad.set_set, Quad.get_set_same]
  · simp only [State.slots] at hv ⊢
    by_cases hr : ctlRep v = true
    · simp only [hr, if_true]
      have : { u.view.get c with ctrl := v } = u.view.get c := by rw [← hv]
      rw [this, Quad.set_get]
    · simp only [hr, hv]
      rfl
  · have : u.irqPending = s.irqPending := f.irqPending
    simp only [this]

/-! ### The nesting window -/

/-- Where the host offers no line for it, the window's transfer runs to its end at once. -/
theorem windowedTransfer_whole {j : Job} {n : Nat} {v : Half} {s : State} (h : ¬ s.hostInWindow n) :
    windowedTransfer j n v s = finishWindow (s.newWindow j n v) (s.openWindow (s.newWindow j n v)) := by
  unfold windowedTransfer
  dsimp only
  split
  · rename_i k hk
    rw [if_neg]
    intro hle
    exact h ⟨k, by simp [hk], hle⟩
  · rfl

/-- Where the host offers a line for it, the window opens and no element is moved yet. -/
theorem windowedTransfer_opens {j : Job} {n : Nat} {v : Half} {s : State} (h : s.hostInWindow n) :
    windowedTransfer j n v s = .next (s.openWindow (s.newWindow j n v)) := by
  obtain ⟨k, hk, hle⟩ := h
  unfold windowedTransfer
  simp [Option.mem_def.1 hk, hle]

/-- Everything the end of the window does: the rest of the elements, `TR`, the closing, the completion. -/
theorem finishWindow_eq (t : Window) (s : State) :
    finishWindow t s = andThen (moveFrom t.job t.index (t.count - t.index) s) fun u =>
      .next (State.completeImm
        { u with
          tr := match t.job.pattern with
            | some p => rep p t.job.width
            | none => if t.index < t.count then u.tr else t.lastImage
          nestedIrqEnabled := t.savedNest
          window := none
          trace := .nestDelivery t.savedNest :: u.trace }
        3 t.control t.job.dst t.count t.job.dstStep t.job.width) := by
  unfold finishWindow
  congr 1
  funext u
  cases hp : t.job.pattern <;> by_cases hi : t.index < t.count <;>
    simp only [Job.endPass, hp, hi, if_true, if_false, State.closeWindow] <;> rfl

theorem alignDown_alignDown (a : Word) (w : Width) : alignDown (alignDown a w) w = alignDown a w := by
  cases w <;> simp [alignDown, BitVec.and_assoc]

/-- The completion depends on the destination address through its alignment only. -/
theorem State.completeImm_alignDown (u : State) (c : Channel) (v : Half) (dst : Word) (n : Nat) (ds : StepDir) (w : Width) :
    u.completeImm c v (alignDown dst w) n ds w = u.completeImm c v dst n ds w := by
  unfold State.completeImm State.requestCodeInvalidate
  rw [alignDown_alignDown]

/-- A window opened and run to its end at once: the transfer between the opening and the closing of the window (rule R265). -/
theorem finishWindow_new {s : State} {n : Nat} (hn : n ≠ 0) (src dst : Word) (ss ds : StepDir) (w : Width) (v : Half) :
    finishWindow (s.newWindow (mkJob src dst ss ds w s.tr) n v) (s.openWindow (s.newWindow (mkJob src dst ss ds w s.tr) n v)) =
      andThen (xfer src dst n ss ds w (s.openWindow (s.newWindow (mkJob src dst ss ds w s.tr) n v))) fun u =>
        .next (State.completeImm
          { u with nestedIrqEnabled := s.nestedIrqEnabled, window := none, trace := .nestDelivery s.nestedIrqEnabled :: u.trace }
          3 v dst n ds w) := by
  have hi : 0 < n := Nat.pos_of_ne_zero hn
  rw [finishWindow_eq, xfer_pos hn, andThen_assoc]
  have hj : (mkJob src dst ss ds w (s.openWindow (s.newWindow (mkJob src dst ss ds w s.tr) n v)).tr) = mkJob src dst ss ds w s.tr := rfl
  rw [hj]
  congr 1
  funext u
  simp only [andThen_next]
  congr 1
  show State.completeImm _ 3 v (alignDown dst w) n ds w = _
  rw [State.completeImm_alignDown]
  congr 1
  simp only [Job.endPass, State.newWindow, hi, if_true]
  cases (mkJob src dst ss ds w s.tr).pattern <;> rfl

/-! ### One triggered transfer -/

/-- A trigger with source control 3 is refused (rule R104). -/
theorem periodic_illegal {s : State} {c : Channel} {w : Width} (h : sstep (s.slots c).ctrl = none) :
    periodic c w s = .refused .srcCtlIllegal := by
  simp [periodic, h]

/-- A trigger with a source step: the cursors, then the transfer, then the completion. -/
theorem periodic_eq {s : State} {c : Channel} {w : Width} {ss : StepDir} (h : sstep (s.slots c).ctrl = some ss) :
    periodic c w s =
      andThen (xfer (s.chan c).src (s.triggerDst c (s.slots c).ctrl) (s.count c) ss (dstep (s.slots c).ctrl) w
          (s.advanceCursors c (s.slots c).ctrl (s.count c) w ss)) fun u =>
        let u := { u with
          irqPending := pendingAfter u.irqPending c (ctlIrq (s.slots c).ctrl)
          trace := completionEvents c (ctlIrq (s.slots c).ctrl) (s.triggerJob c w ss) (s.count c) ++ u.trace }
        .next (if ctlRep (s.slots c).ctrl then u else u.deactivate c) := by
  unfold periodic
  simp only [h]
  congr 1
  funext u
  rw [State.requestCodeInvalidate_trace u (s.chan c).src (s.triggerDst c (s.slots c).ctrl) s.tr _ ss _ w c]
  cases hi : ctlIrq (s.slots c).ctrl
  · simp only [Bool.false_eq_true, if_false]
    rfl
  · simp only [if_true, State.raiseIrq]
    rfl

/-- What the cursor update before a triggered transfer changes. -/
theorem State.advanceCursors_eq (s : State) (c : Channel) (n : Nat) (w : Width) (ss : StepDir) :
    s.advanceCursors c (s.slots c).ctrl n w ss = { s with chans := s.chans.set c { s.chans.get c with
      src := adv (s.chan c).src n w ss
      dst := if ctlDst (s.slots c).ctrl = 3#2 then (s.slots c).dad
        else adv (s.chan c).dst n w (dstep (s.slots c).ctrl) } } := rfl

end Sys2Proof.Machine
end

