-- ==== Sys2Proof/Laws/Decode.lean ====
section
/-! SUPPORT. The fields of the decode word, and what the decoder answers for each combination of enable bits. -/

namespace Sys2Proof

@[simp] theorem dwOld_decodeWord (c : Channel) (e : Bool) (v : Half) : dwOld (decodeWord c e v) = e := by
  simp only [dwOld, decodeWord, BitVec.getLsbD_append]
  cases e <;> simp

@[simp] theorem dwValue_decodeWord (c : Channel) (e : Bool) (v : Half) : dwValue (decodeWord c e v) = v := by
  apply BitVec.eq_of_getLsbD_eq
  intro i hi
  simp only [dwValue, decodeWord, BitVec.getLsbD_extractLsb', BitVec.getLsbD_append]
  simp [hi]

@[simp] theorem dwChannel_decodeWord (c : Channel) (e : Bool) (v : Half) : dwChannel (decodeWord c e v) = c := by
  have h : (decodeWord c e v).extractLsb' 17 2 = BitVec.ofNat 2 c.val := by
    apply BitVec.eq_of_getLsbD_eq
    intro i hi
    simp only [decodeWord, BitVec.getLsbD_extractLsb', BitVec.getLsbD_append]
    have h1 : ¬ (17 + i < 16) := by omega
    have h2 : ¬ (17 + i - 16 < 1) := by omega
    simp [h1, h2, hi, show 17 + i - 16 - 1 = i by omega]
  apply Fin.ext
  have := c.isLt
  simp only [dwChannel, h, BitVec.toNat_ofNat]
  omega

/-- A decode word is made of its fields. -/
theorem decodeWord_fields (d : BitVec 19) : decodeWord (dwChannel d) (dwOld d) (dwValue d) = d := by
  have hc : BitVec.ofNat 2 (dwChannel d).val = d.extractLsb' 17 2 := by
    simp only [dwChannel, BitVec.ofNat_toNat, BitVec.setWidth_eq]
  apply BitVec.eq_of_getLsbD_eq
  intro i hi
  simp only [decodeWord, hc, BitVec.getLsbD_append, dwOld, dwValue, BitVec.getLsbD_extractLsb']
  by_cases h : i < 16
  · simp [h]
  · by_cases h' : i < 17
    · have : i = 16 := by omega
      subst this; simp
    · have h1 : ¬ (i - 16 < 1) := by omega
      have h2 : i - 16 - 1 < 2 := by omega
      simp [h, h1, h2, show 17 + (i - 16 - 1) = i by omega]

/-- The decoder on the word of a channel, an old enable bit and a new control word. -/
theorem decodeDw_decodeWord (c : Channel) (e : Bool) (v : Half) :
    decodeDw (decodeWord c e v) =
      match e, ctlEn v with
      | false, false => .ctrlUpd0 c v
      | true, true => .ctrlUpd1 c v
      | true, false => .ctrlStop c v
      | false, true => decodeStart c v := by
  cases e <;> cases h : ctlEn v <;>
    simp only [decodeDw, dwOld_decodeWord, dwValue_decodeWord, dwChannel_decodeWord, h]

/-- The guest address of a control slot decodes to its channel. -/
@[simp] theorem decodeRa_ctrlAddress (c : Channel) : decodeRa (ctrlAddress c) = .ok c := by
  match c with
  | 0 => rfl
  | 1 => rfl
  | 2 => rfl
  | 3 => rfl

@[simp] theorem ctlEn_clearEn (v : Half) : ctlEn (clearEn v) = false := by simp [ctlEn, clearEn]

end Sys2Proof
end

