-- ==== Sys2Proof/Laws/Operations.lean ====
section
/-! SUPPORT. What each operation can do, read off an answer `next`: one lemma per meaning, and what all of them leave alone. -/

namespace Sys2Proof.Machine

/-! ### Operations that store the control word only -/

theorem storeControl_eq_next {c : Channel} {v : Half} {s t : State} (h : storeControl c v s = .next t) :
    s.acceptsCmd c ∧ t = s.setCtrl c v := by
  obtain ⟨ha, hf⟩ := acceptCmd_eq_next h
  cases hf
  exact ⟨ha, rfl⟩

theorem execCtrlStop_eq_next {c : Channel} {v : Half} {s t : State} (h : execCtrlStop c v s = .next t) :
    s.acceptsCmd c ∧ t = (s.setCtrl c v).stop c := by
  obtain ⟨ha, hf⟩ := acceptCmd_eq_next h
  cases hf
  exact ⟨ha, rfl⟩

/-! ### Arming starts -/

/-- The state an h-blank start from an allowed source leaves, and nothing but the control slot from a disallowed one (rule R201). -/
theorem execStartHbl_eq {c : Channel} {v : Half} {s : State} (h : s.acceptsCmd c) :
    execStartHbl c v s =
      if disallowed s.params (s.slots c).sad then .next (s.setCtrl c v)
      else .next (State.updateSharedEnables { s.setCtrl c v with chans := s.chans.set c {
        src := (s.slots c).sad, dst := (s.slots c).dad, hb := true, au := (s.chan c).au
        handler := if ctlWidth v then .blankingTrigger32 else .blankingTrigger16 } }) := by
  unfold execStartHbl
  rw [acceptCmd_of_accepts h]
  simp only [State.setCtrl_slots_same, State.setCtrl_params]
  split
  · rfl
  · simp only [State.setCursors, State.setFlags, State.setHandler, State.setChan, State.chan, Quad.get_set_same, Quad.set_set,
      State.setCtrl_chans]
    rfl

/-- The state an audio start from an allowed source leaves, and nothing but the control slot from a disallowed one (rule R202). -/
theorem audioStart_eq {c : Channel} {v : Half} {s : State} (h : s.acceptsCmd c) :
    audioStart c v s =
      if disallowed s.params (s.slots c).sad then .next (s.setCtrl c v)
      else .next (State.updateSharedEnables { s.setCtrl c v with
        chans := s.chans.set c {
          src := (s.slots c).sad, dst := (s.slots c).dad, hb := (s.chan c).hb, au := true, handler := .audioTrigger }
        drainRequest := false, drainView := false, trace := .releaseDrain :: s.trace }) := by
  unfold audioStart
  rw [acceptCmd_of_accepts h]
  simp only [State.setCtrl_slots_same, State.setCtrl_params]
  split
  · rfl
  · simp only [State.setCursors, State.setFlags, State.setHandler, State.setChan, State.chan, Quad.get_set_same, Quad.set_set,
      State.setCtrl_chans, State.clearDrain, State.emit, State.setCtrl_trace]
    rfl

/-! ### Immediate starts -/

/-- An immediate start that answers a next state: on channels 0 to 2 the transfer and the completion; on channel 3 the window, open or
run to its end. -/
theorem execStartImm_eq_next {c : Channel} {v : Half} {s t : State} (h : execStartImm c v s = .next t) :
    s.acceptsCmd c ∧ ∃ ss, sstep v = some ss ∧
      ((c ≠ 3 ∧ ∃ u, xfer (s.immSource c) (s.slots c).dad (s.count c) ss (dstep v) (wbits v) (s.immStarted c v ss) = .next u ∧
          t = u.completeImm c v (s.slots c).dad (s.count c) (dstep v) (wbits v)) ∨
       (c = 3 ∧ ∃ w, w = (s.immStarted 3 v ss).newWindow (s.immJob 3 v ss) (s.count 3) v ∧
          (t = (s.immStarted 3 v ss).openWindow w ∨ finishWindow w ((s.immStarted 3 v ss).openWindow w) = .next t))) := by
  obtain ⟨ha, -⟩ := acceptCmd_eq_next h
  refine ⟨ha, ?_⟩
  cases hs : sstep v with
  | none => rw [execStartImm_illegal ha hs] at h; cases h
  | some ss =>
    refine ⟨ss, rfl, ?_⟩
    rw [execStartImm_started ha hs] at h
    by_cases hc : c = 3
    · subst hc
      simp only [if_true] at h
      refine .inr ⟨rfl, _, rfl, ?_⟩
      by_cases hw : (s.immStarted 3 v ss).hostInWindow (s.count 3)
      · rw [windowedTransfer_opens hw] at h
        cases h
        exact .inl rfl
      · rw [windowedTransfer_whole hw] at h
        exact .inr h
    · rw [if_neg hc] at h
      obtain ⟨u, hu, ht⟩ := andThen_eq_next.1 h
      cases ht
      exact .inl ⟨hc, u, hu, rfl⟩

/-! ### Triggers -/

/-- A triggered transfer that answers a next state. -/
theorem periodic_eq_next {c : Channel} {w : Width} {s t : State} (h : periodic c w s = .next t) :
    ∃ ss u, sstep (s.slots c).ctrl = some ss ∧
      xfer (s.chan c).src (s.triggerDst c (s.slots c).ctrl) (s.count c) ss (dstep (s.slots c).ctrl) w
        (s.advanceCursors c (s.slots c).ctrl (s.count c) w ss) = .next u ∧
      ∃ r, r = { u with
          irqPending := pendingAfter u.irqPending c (ctlIrq (s.slots c).ctrl)
          trace := completionEvents c (ctlIrq (s.slots c).ctrl) (s.triggerJob c w ss) (s.count c) ++ u.trace } ∧
        t = if ctlRep (s.slots c).ctrl then r else r.deactivate c := by
  cases hs : sstep (s.slots c).ctrl with
  | none => rw [periodic_illegal hs] at h; cases h
  | some ss =>
    rw [periodic_eq hs] at h
    obtain ⟨u, hu, ht⟩ := andThen_eq_next.1 h
    cases ht
    exact ⟨ss, u, rfl, hu, _, rfl, rfl⟩

/-- What the service of channel `c` by a strobe leaves alone and keeps. -/
structure ServeFrame (c : Channel) (s t : State) : Prop where
  params : t.params = s.params
  initialised : t.initialised = s.initialised
  rom : t.rom = s.rom
  script : t.script = s.script
  dispMode : t.dispMode = s.dispMode
  nestedIrqEnabled : t.nestedIrqEnabled = s.nestedIrqEnabled
  window : t.window = s.window
  drainRequest : t.drainRequest = s.drainRequest
  drainView : t.drainView = s.drainView
  memory : s.mem.wf → t.mem.wf
  chans : ∀ d, d ≠ c → t.chan d = s.chan d
  ctrl : ∀ d, d ≠ c → (t.slots d).ctrl = (s.slots d).ctrl

theorem ServeFrame.refl (c : Channel) (s : State) : ServeFrame c s s := by
  constructor <;> first | rfl | exact fun h => h | exact fun _ _ => rfl

theorem State.deactivate_serveFrame (s : State) (c : Channel) : ServeFrame c s (s.deactivate c) where
  params := rfl
  initialised := rfl
  rom := rfl
  script := rfl
  dispMode := rfl
  nestedIrqEnabled := rfl
  window := rfl
  drainRequest := rfl
  drainView := rfl
  memory h := h
  chans d h := s.deactivate_chan_other h
  ctrl d h := by rw [s.deactivate_slots_other h]

theorem periodic_frame {c : Channel} {w : Width} {s t : State} (h : periodic c w s = .next t) : ServeFrame c s t := by
  obtain ⟨ss, u, -, hu, r, hr, ht⟩ := periodic_eq_next h
  obtain ⟨f, wf, -, -⟩ := xfer_next hu
  have hfr : ServeFrame c s r := by
    subst hr
    refine ⟨f.params, f.initialised, f.rom, f.script, f.dispMode, f.nestedIrqEnabled, f.window, f.drainRequest, f.drainView,
      wf, fun d hd => ?_, fun d _ => f.ctrl d⟩
    have h1 : u.chan d = _ := f.chan d
    rw [State.advanceCursors, State.setCursors_chan_other _ hd] at h1
    exact h1
  by_cases hrep : ctlRep (s.slots c).ctrl = true
  · rw [if_pos hrep] at ht
    rw [ht]; exact hfr
  · rw [if_neg hrep] at ht
    have g := r.deactivate_serveFrame c
    rw [ht]
    exact ⟨g.params.trans hfr.params, g.initialised.trans hfr.initialised, g.rom.trans hfr.rom, g.script.trans hfr.script,
      g.dispMode.trans hfr.dispMode, g.nestedIrqEnabled.trans hfr.nestedIrqEnabled, g.window.trans hfr.window,
      g.drainRequest.trans hfr.drainRequest, g.drainView.trans hfr.drainView, fun k => g.memory (hfr.memory k),
      fun d hd => (g.chans d hd).trans (hfr.chans d hd), fun d hd => (g.ctrl d hd).trans (hfr.ctrl d hd)⟩

/-- The channel record and control word after a triggered transfer (rules R232, R234). -/
theorem periodic_channel {c : Channel} {w : Width} {s t : State} (h : periodic c w s = .next t) :
    ∃ ss, sstep (s.slots c).ctrl = some ss ∧ t.chan c = s.triggeredChan c w ss ∧
      (t.slots c).ctrl = s.triggeredCtrl c ∧ t.irqPending = pendingAfter s.irqPending c (ctlIrq (s.slots c).ctrl) := by
  obtain ⟨ss, u, hs, hu, r, hr, ht⟩ := periodic_eq_next h
  obtain ⟨f, -, -, -⟩ := xfer_next hu
  have hc : r.chan c = (s.advanceCursors c (s.slots c).ctrl (s.count c) w ss).chan c := by subst hr; exact f.chan c
  have hk : (r.slots c).ctrl = (s.slots c).ctrl := by subst hr; exact f.ctrl c
  have hi : r.irqPending = pendingAfter s.irqPending c (ctlIrq (s.slots c).ctrl) := by
    subst hr
    have : u.irqPending = s.irqPending := f.irqPending
    simp only [this]
  refine ⟨ss, hs, ?_⟩
  simp only [State.advanceCursors, State.setCursors_chan_same] at hc
  by_cases hrep : ctlRep (s.slots c).ctrl = true
  · rw [if_pos hrep] at ht
    subst ht
    exact ⟨by simp [hc, State.triggeredChan, hrep], by simp [hk, State.triggeredCtrl, hrep], hi⟩
  · rw [if_neg hrep] at ht
    subst ht
    refine ⟨?_, ?_, hi⟩
    · simp [hc, State.triggeredChan, hrep]
    · simp [hk, State.triggeredCtrl, hrep]

/-- The service of a channel at an `HBLANK` strobe: nothing, or one triggered transfer at the width of the tag. -/
theorem hblankChannel_eq (c : Channel) (s : State) :
    hblankChannel c s = match hblankServes (s.chan c).handler with
      | some w => periodic c w s
      | none => .next s := by
  unfold hblankChannel
  cases (s.chan c).handler <;> rfl

/-- The service of a channel at an `AUDIO` strobe. -/
theorem audioChannel_eq (c : Channel) (s : State) :
    audioChannel c s = match audioServes (s.chan c).handler with
      | some w => periodic c w s
      | none => .next s := by
  unfold audioChannel
  cases (s.chan c).handler <;> rfl

/-- A function that serves one channel at a strobe: nothing, or one triggered transfer, by the tag. -/
abbrev Serves (serves : Handler → Option Width) (f : Channel → State → Answer) : Prop :=
  ∀ c s, f c s = match serves (s.chan c).handler with
    | some w => periodic c w s
    | none => .next s

theorem serves_hblank : Serves hblankServes hblankChannel := hblankChannel_eq
theorem serves_audio : Serves audioServes audioChannel := audioChannel_eq

theorem Serves.cases {serves : Handler → Option Width} {f : Channel → State → Answer} (hf : Serves serves f) {c : Channel}
    {s t : State} (h : f c s = .next t) :
    (serves (s.chan c).handler = none ∧ t = s) ∨ ∃ w, serves (s.chan c).handler = some w ∧ periodic c w s = .next t := by
  rw [hf] at h
  cases hw : serves (s.chan c).handler with
  | none => rw [hw] at h; cases h; exact .inl ⟨rfl, rfl⟩
  | some w => rw [hw] at h; exact .inr ⟨w, rfl, h⟩

theorem Serves.frame {serves : Handler → Option Width} {f : Channel → State → Answer} (hf : Serves serves f) {c : Channel}
    {s t : State} (h : f c s = .next t) : ServeFrame c s t := by
  rcases hf.cases h with ⟨-, rfl⟩ | ⟨w, -, hp⟩
  · exact ServeFrame.refl c _
  · exact periodic_frame hp

/-- A strobe that answers a next state served the four channels one after another. -/
theorem eachChannel_eq_next {f : Channel → State → Answer} {s t : State} (h : eachChannel f s = .next t) :
    ∃ t1 t2 t3, f 0 s = .next t1 ∧ f 1 t1 = .next t2 ∧ f 2 t2 = .next t3 ∧ f 3 t3 = .next t := by
  obtain ⟨t3, h3, h4⟩ := andThen_eq_next.1 h
  obtain ⟨t2, h2, h3⟩ := andThen_eq_next.1 h3
  obtain ⟨t1, h1, h2⟩ := andThen_eq_next.1 h2
  exact ⟨t1, t2, t3, h1, h2, h3, h4⟩

/-- A property of two states that each service keeps holds across a strobe. -/
theorem eachChannel_induction {f : Channel → State → Answer} {P : State → State → Prop} (refl : ∀ s, P s s)
    (one : ∀ r c s t, P r s → f c s = .next t → P r t) {s t : State} (h : eachChannel f s = .next t) : P s t := by
  obtain ⟨t1, t2, t3, h1, h2, h3, h4⟩ := eachChannel_eq_next h
  exact one _ _ _ _ (one _ _ _ _ (one _ _ _ _ (one _ _ _ _ (refl s) h1) h2) h3) h4

theorem execTrigHblank_eq_next {s t : State} (h : execTrigHblank s = .next t) :
    s.initialised = true ∧ eachChannel hblankChannel s = .next t := acceptStrobe_eq_next h

theorem State.anyAudioArmed_iff (s : State) : s.anyAudioArmed = true ↔ ∃ c, (s.chan c).handler = .audioTrigger := by
  simp only [State.anyAudioArmed, Bool.or_eq_true, decide_eq_true_eq]
  constructor
  · rintro (((h | h) | h) | h) <;> exact ⟨_, h⟩
  · rintro ⟨c, h⟩
    match c with
    | 0 => exact .inl (.inl (.inl h))
    | 1 => exact .inl (.inl (.inr h))
    | 2 => exact .inl (.inr h)
    | 3 => exact .inr h

/-- An `AUDIO` strobe that answers a next state: nothing, the acquire only, or the clear and the service of the four channels. -/
theorem execTrigAudio_eq_next {s t : State} (h : execTrigAudio s = .next t) :
    s.initialised = true ∧
      ((s.anyAudioArmed = false ∧ t = s) ∨
       (s.anyAudioArmed = true ∧ s.drainRequest = false ∧ t = s.acquireDrain) ∨
       (s.anyAudioArmed = true ∧ s.drainRequest = true ∧ eachChannel audioChannel s.acquireDrain.clearDrain = .next t)) := by
  obtain ⟨hi, hf⟩ := acceptStrobe_eq_next h
  refine ⟨hi, ?_⟩
  dsimp only at hf
  by_cases ha : s.anyAudioArmed = true
  · rw [if_pos ha] at hf
    by_cases hd : s.drainRequest = true
    · have : s.acquireDrain.drainView = true := hd
      rw [if_pos this] at hf
      exact .inr (.inr ⟨ha, hd, hf⟩)
    · have : ¬ s.acquireDrain.drainView = true := hd
      rw [if_neg this] at hf
      cases hf
      exact .inr (.inl ⟨ha, by simpa using hd, rfl⟩)
  · rw [if_neg ha] at hf
    cases hf
    exact .inl ⟨by simpa using ha, rfl⟩

theorem execInit_eq_next {s t : State} (h : execInit s = .next t) :
    s.window = none ∧ t = State.updateSharedEnables { s with initialised := true, chans := Quad.all Chan.reset } := by
  unfold execInit at h
  split at h
  · cases h
  · rename_i hw
    cases h
    exact ⟨by simpa using hw, rfl⟩

/-! ### What every operation leaves alone -/

/-- The part of the machine no operation writes, and the canonical form of memory, which all keep. -/
structure OpFrame (s t : State) : Prop where
  params : t.params = s.params
  rom : t.rom = s.rom
  script : t.script = s.script
  dispMode : t.dispMode = s.dispMode
  memory : s.mem.wf → t.mem.wf

theorem OpFrame.refl (s : State) : OpFrame s s := ⟨rfl, rfl, rfl, rfl, fun h => h⟩

theorem OpFrame.trans {s t u : State} (h : OpFrame s t) (k : OpFrame t u) : OpFrame s u :=
  ⟨k.params.trans h.params, k.rom.trans h.rom, k.script.trans h.script, k.dispMode.trans h.dispMode,
    fun w => k.memory (h.memory w)⟩

theorem ServeFrame.opFrame {c : Channel} {s t : State} (h : ServeFrame c s t) : OpFrame s t :=
  ⟨h.params, h.rom, h.script, h.dispMode, h.memory⟩

theorem State.completeImm_opFrame (u : State) (c : Channel) (v : Half) (dst : Word) (n : Nat) (ds : StepDir) (w : Width) :
    OpFrame u (u.completeImm c v dst n ds w) := by
  rw [State.completeImm_eq u c v dst dst 0#32 n .inc ds w]
  exact ⟨rfl, rfl, rfl, rfl, fun h => h⟩

theorem TransferFrame.opFrame {s t : State} (h : TransferFrame s t) (k : s.mem.wf → t.mem.wf) : OpFrame s t :=
  ⟨h.params, h.rom, h.script, h.dispMode, k⟩

theorem finishWindow_opFrame {t : Window} {s r : State} (h : finishWindow t s = .next r) : OpFrame s r := by
  rw [finishWindow_eq] at h
  obtain ⟨u, hu, hr⟩ := andThen_eq_next.1 h
  cases hr
  obtain ⟨f, wf, -, -, -⟩ := moveFrom_next hu
  refine (f.opFrame wf).trans (OpFrame.trans ?_ (State.completeImm_opFrame ..))
  exact ⟨rfl, rfl, rfl, rfl, fun h => h⟩

theorem eachChannel_opFrame {serves : Handler → Option Width} {f : Channel → State → Answer} (hf : Serves serves f) {s t : State}
    (h : eachChannel f s = .next t) : OpFrame s t :=
  eachChannel_induction (P := OpFrame) OpFrame.refl (fun _ _ _ _ h k => h.trans (hf.frame k).opFrame) h

theorem exec_opFrame {i : Instr} {s t : State} (h : exec i s = .next t) : OpFrame s t := by
  have hstore : ∀ {c v}, storeControl c v s = .next t → OpFrame s t := by
    intro c v h
    obtain ⟨-, rfl⟩ := storeControl_eq_next h
    exact ⟨rfl, rfl, rfl, rfl, fun h => h⟩
  have haudio : ∀ {c v}, audioStart c v s = .next t → OpFrame s t := by
    intro c v h
    have ha := (acceptCmd_eq_next h).1
    rw [audioStart_eq ha] at h
    split at h <;> cases h <;> exact ⟨rfl, rfl, rfl, rfl, fun h => h⟩
  cases i with
  | ctrlUpd0 c v => exact hstore h
  | ctrlUpd1 c v => exact hstore h
  | ctrlStop c v =>
    obtain ⟨-, rfl⟩ := execCtrlStop_eq_next h
    exact ⟨rfl, rfl, rfl, rfl, fun h => h⟩
  | startXreq c v => exact hstore h
  | startImm c v =>
    obtain ⟨-, ss, -, ⟨-, u, hu, rfl⟩ | ⟨rfl, w, hw, rfl | hf⟩⟩ := execStartImm_eq_next h
    · obtain ⟨f, wf, -, -⟩ := xfer_next hu
      have g : OpFrame (s.immStarted c v ss) u := f.opFrame wf
      exact OpFrame.trans ⟨g.params, g.rom, g.script, g.dispMode, g.memory⟩ (State.completeImm_opFrame ..)
    · exact ⟨rfl, rfl, rfl, rfl, fun h => h⟩
    · have g := finishWindow_opFrame hf
      exact ⟨g.params, g.rom, g.script, g.dispMode, g.memory⟩
  | startVbl c v => exact hstore h
  | startHbl c v =>
    have h : execStartHbl c v s = .next t := h
    have ha : s.acceptsCmd c := (acceptCmd_eq_next h).1
    rw [execStartHbl_eq ha] at h
    split at h <;> cases h <;> exact ⟨rfl, rfl, rfl, rfl, fun h => h⟩
  | startSpc0 v => exact hstore h
  | startAud1 v => exact haudio h
  | startAud2 v => exact haudio h
  | startSpc3 v => exact hstore h
  | init =>
    obtain ⟨-, rfl⟩ := execInit_eq_next h
    exact ⟨rfl, rfl, rfl, rfl, fun h => h⟩
  | trigVblank =>
    obtain ⟨-, h⟩ := acceptStrobe_eq_next h
    cases h
    exact OpFrame.refl s
  | trigHblank => exact eachChannel_opFrame serves_hblank (execTrigHblank_eq_next h).2
  | trigAudio =>
    obtain ⟨-, ⟨-, rfl⟩ | ⟨-, -, rfl⟩ | ⟨-, -, h⟩⟩ := execTrigAudio_eq_next h
    · exact OpFrame.refl _
    · exact ⟨rfl, rfl, rfl, rfl, fun h => h⟩
    · have g := eachChannel_opFrame serves_audio h
      exact ⟨g.params, g.rom, g.script, g.dispMode, g.memory⟩

end Sys2Proof.Machine
end

