-- ==== Sys2Proof/Laws/Invariant.lean ====
section
/-! SUPPORT. How the invariant carries over: to a state that agrees where it looks, and through an update of one channel. One lemma per
operation says that the operation keeps it. -/

namespace Sys2Proof.Machine

/-! ### Carrying the invariant over -/

theorem State.ChannelOk.congr {s t : State} {c : Channel} (h : s.ChannelOk c) (hh : (t.chan c).handler = (s.chan c).handler)
    (hb : (t.chan c).hb = (s.chan c).hb) (hau : (t.chan c).au = (s.chan c).au)
    (hk : (t.slots c).ctrl = (s.slots c).ctrl) : t.ChannelOk c where
  enabled := by rw [hh, hk]; exact h.enabled
  blanking := by rw [hh, hb]; exact h.blanking
  audio := by rw [hh, hau]; exact h.audio
  audioChannel := by rw [hau]; exact h.audioChannel

theorem State.anyHb_congr {s t : State} (h : ∀ c, (t.chan c).hb = (s.chan c).hb) : t.anyHb = s.anyHb := by
  simp only [State.anyHb, h]

theorem State.anyAu_congr {s t : State} (h : ∀ c, (t.chan c).au = (s.chan c).au) : t.anyAu = s.anyAu := by
  simp only [State.anyAu, h]

theorem State.LevelsOk.congr {s t : State} (h : s.LevelsOk) (p : t.params = s.params) (hb : ∀ c, (t.chan c).hb = (s.chan c).hb)
    (hau : ∀ c, (t.chan c).au = (s.chan c).au) (m : t.forcedIrqMask = s.forcedIrqMask)
    (b : t.blankingIrqEnabled = s.blankingIrqEnabled) : t.LevelsOk where
  forcedBlank := by rw [m, p, State.anyHb_congr hb]; exact h.forcedBlank
  display := by rw [b, State.anyHb_congr hb]; exact h.display
  forcedAudio := by rw [m, p, State.anyAu_congr hau]; exact h.forcedAudio

theorem State.WindowOk.congr {s t : State} {w : Window} (h : s.WindowOk w) (n : t.nestedIrqEnabled = s.nestedIrqEnabled)
    (k : (t.slots 3).ctrl = (s.slots 3).ctrl) (hh : (t.chan 3).handler = (s.chan 3).handler) : t.WindowOk w where
  nested := n.trans h.nested
  bounds := h.bounds
  started := h.started
  slot := k.trans h.slot
  owner := hh.trans h.owner

/-- A state that agrees in all the invariant looks at. -/
theorem State.Inv.congr {s t : State} (h : s.Inv) (p : t.params = s.params) (i : t.initialised = s.initialised) (m : t.mem.wf)
    (ch : ∀ c, (t.chan c).handler = (s.chan c).handler ∧ (t.chan c).hb = (s.chan c).hb ∧ (t.chan c).au = (s.chan c).au)
    (k : ∀ c, (t.slots c).ctrl = (s.slots c).ctrl) (fm : t.forcedIrqMask = s.forcedIrqMask)
    (bl : t.blankingIrqEnabled = s.blankingIrqEnabled) (n : t.nestedIrqEnabled = s.nestedIrqEnabled)
    (w : t.window = s.window) : t.Inv where
  initialised := i.trans h.initialised
  params := by rw [p]; exact h.params
  memory := m
  channel c := (h.channel c).congr (ch c).1 (ch c).2.1 (ch c).2.2 (k c)
  levels := h.levels.congr p (fun c => (ch c).2.1) (fun c => (ch c).2.2) fm bl
  window x hx := (h.window x (w ▸ hx)).congr n (k 3) (ch 3).1

/-- A transfer keeps the invariant. -/
theorem State.Inv.transfer {s t : State} (h : s.Inv) (f : TransferFrame s t) (m : t.mem.wf) : t.Inv :=
  h.congr f.params f.initialised m (fun c => by rw [f.chan c]; exact ⟨rfl, rfl, rfl⟩) f.ctrl f.forcedIrqMask
    f.blankingIrqEnabled f.nestedIrqEnabled f.window

/-- The update of one channel, which is not channel 3 while its window is open: it is enough that the channel and the levels agree
again. -/
theorem State.Inv.updateChannel {s t : State} (h : s.Inv) (c : Channel) (hc : s.window = none ∨ c ≠ 3) (p : t.params = s.params)
    (i : t.initialised = s.initialised) (m : t.mem.wf)
    (others : ∀ d, d ≠ c → t.chan d = s.chan d ∧ (t.slots d).ctrl = (s.slots d).ctrl) (ok : t.ChannelOk c) (lv : t.LevelsOk)
    (n : t.nestedIrqEnabled = s.nestedIrqEnabled) (w : t.window = s.window) : t.Inv where
  initialised := i.trans h.initialised
  params := by rw [p]; exact h.params
  memory := m
  channel d := by
    by_cases hd : d = c
    · rw [hd]; exact ok
    · obtain ⟨h1, h2⟩ := others d hd
      exact (h.channel d).congr (by rw [h1]) (by rw [h1]) (by rw [h1]) h2
  levels := lv
  window x hx := by
    rw [w] at hx
    rcases hc with hc | hc
    · rw [hc] at hx; cases hx
    · obtain ⟨h1, h2⟩ := others 3 (Ne.symm hc)
      exact (h.window x hx).congr n h2 (by rw [h1])

/-- A channel with no handler has no flag. -/
theorem State.ChannelOk.idle {s : State} {c : Channel} (h : s.ChannelOk c) (hi : (s.chan c).handler = .inactive) :
    (s.chan c).hb = false ∧ (s.chan c).au = false := by
  constructor
  · by_contra hn
    have := h.blanking.1 (by simpa using hn)
    rw [hi] at this
    rcases this with h | h <;> cases h
  · by_contra hn
    have := h.audio.1 (by simpa using hn)
    rw [hi] at this
    cases this

/-- A channel whose enable bit is clear has no handler (rule R32). -/
theorem State.ChannelOk.disabled {s : State} {c : Channel} (h : s.ChannelOk c) (he : ctlEn (s.slots c).ctrl = false) :
    (s.chan c).handler = .inactive := by
  by_contra hn
  rw [h.enabled hn] at he
  cases he

/-! ### Operations -/

/-- A stored control word keeps the invariant where the channel has no handler or stays enabled. -/
theorem State.Inv.setCtrl {s : State} (h : s.Inv) {c : Channel} (hc : s.window = none ∨ c ≠ 3) {v : Half}
    (hv : (s.chan c).handler = .inactive ∨ ctlEn v = true) : (s.setCtrl c v).Inv := by
  refine h.updateChannel c hc rfl rfl h.memory (fun d hd => ⟨rfl, by rw [State.setCtrl_slots_other _ hd]⟩) ?_
    (h.levels.congr rfl (fun _ => rfl) (fun _ => rfl) rfl rfl) rfl rfl
  have k := h.channel c
  refine ⟨fun hn => ?_, k.blanking, k.audio, k.audioChannel⟩
  rw [State.setCtrl_slots_same]
  rcases hv with hv | hv
  · exact absurd hv hn
  · exact hv

/-- `stop` keeps the invariant, whatever the control slot now holds. -/
theorem State.Inv.stop {s : State} (h : s.Inv) {c : Channel} (hc : s.window = none ∨ c ≠ 3) (v : Half) :
    ((s.setCtrl c v).stop c).Inv := by
  refine h.updateChannel c hc rfl rfl h.memory (fun d hd => ?_) ?_ (State.stop_levels (s := s.setCtrl c v) h.params c) rfl rfl
  · rw [State.stop_chan_other _ hd, State.stop_slots, State.setCtrl_slots_other _ hd]
    exact ⟨rfl, rfl⟩
  · constructor <;> simp

theorem State.Inv.deactivate {s : State} (h : s.Inv) {c : Channel} (hc : s.window = none ∨ c ≠ 3) : (s.deactivate c).Inv :=
  h.stop hc _

/-- The cursors are outside the invariant. -/
theorem State.Inv.setCursors {s : State} (h : s.Inv) (c : Channel) (a b : Word) : (s.setCursors c a b).Inv := by
  refine h.congr rfl rfl h.memory (fun d => ?_) (fun _ => rfl) rfl rfl rfl rfl
  by_cases hd : d = c
  · subst hd; simp
  · rw [State.setCursors_chan_other _ hd]; exact ⟨rfl, rfl, rfl⟩

/-- An arming start keeps the invariant: a new record for the channel whose flags say what its handler is, on an enabled channel, and the
levels driven again. -/
theorem State.Inv.arm {s : State} (h : s.Inv) {c : Channel} (hc : s.window = none ∨ c ≠ 3) {v : Half} (hv : ctlEn v = true) (x : Chan)
    (hb : x.hb = true ↔ (x.handler = .blankingTrigger16 ∨ x.handler = .blankingTrigger32))
    (hau : x.au = true ↔ x.handler = .audioTrigger) (hch : x.au = true → c ∈ Config.audioCh) (dr dv : Bool) (e : List Event) :
    (State.updateSharedEnables { s.setCtrl c v with
      chans := s.chans.set c x, drainRequest := dr, drainView := dv, trace := e }).Inv := by
  refine h.updateChannel c hc rfl rfl h.memory (fun d hd => ⟨?_, ?_⟩) ?_ (State.updateSharedEnables_levels h.params) rfl rfl
  · show (s.chans.set c x).get d = s.chans.get d
    simp [hd]
  · show ((s.setCtrl c v).slots d).ctrl = _
    rw [State.setCtrl_slots_other _ hd]
  · have hx : (State.updateSharedEnables { s.setCtrl c v with
        chans := s.chans.set c x, drainRequest := dr, drainView := dv, trace := e }).chan c = x := by
      show (s.chans.set c x).get c = x
      simp
    have hk : ((State.updateSharedEnables { s.setCtrl c v with
        chans := s.chans.set c x, drainRequest := dr, drainView := dv, trace := e }).slots c).ctrl = v := by
      show ((s.setCtrl c v).slots c).ctrl = v
      simp
    constructor
    · rw [hk]; exact fun _ => hv
    · rw [hx]; exact hb
    · rw [hx]; exact hau
    · rw [hx]; exact hch

/-- The completion of an immediate start keeps the invariant on an enabled channel with no handler. -/
theorem State.Inv.completeImm {u : State} (h : u.Inv) {c : Channel} (hc : u.window = none ∨ c ≠ 3)
    (hi : (u.chan c).handler = .inactive) (he : ctlEn (u.slots c).ctrl = true) (v : Half) (dst : Word) (n : Nat) (ds : StepDir)
    (w : Width) : (u.completeImm c v dst n ds w).Inv := by
  rw [State.completeImm_eq u c v dst dst 0#32 n .inc ds w]
  obtain ⟨hhb, hau⟩ := (h.channel c).idle hi
  have hchan : ∀ d, d ≠ c → (u.chans.set c { u.chan c with
      handler := if ctlRep v = true then Handler.immediateCompleted else Handler.inactive }).get d = u.chan d :=
    fun d hd => by simp [hd, State.chan]
  have hsame : (u.chans.set c { u.chan c with
      handler := if ctlRep v = true then Handler.immediateCompleted else Handler.inactive }).get c = { u.chan c with
      handler := if ctlRep v = true then Handler.immediateCompleted else Handler.inactive } := by simp
  refine h.updateChannel c hc rfl rfl h.memory (fun d hd => ⟨hchan d hd, ?_⟩) ?_ ?_ rfl rfl
  · simp only [State.slots]
    split
    · rfl
    · simp [hd]
  · by_cases hr : ctlRep v = true
    · constructor <;> simp [State.chan, State.slots, hr] <;> simp_all [State.chan, State.slots]
    · constructor <;> simp [State.chan, State.slots, hr] <;> simp_all [State.chan, State.slots]
  · refine h.levels.congr rfl (fun d => ?_) (fun d => ?_) rfl rfl
    · by_cases hd : d = c
      · subst hd; simp [State.chan]
      · show ((u.chans.set c _).get d).hb = _; rw [hchan d hd]
    · by_cases hd : d = c
      · subst hd; simp [State.chan]
      · show ((u.chans.set c _).get d).au = _; rw [hchan d hd]

/-- The end of the nesting window keeps the invariant. -/
theorem State.Inv.finishWindow {s r : State} (h : s.Inv) {t : Window} (ht : s.window = some t)
    (hr : Machine.finishWindow t s = .next r) : r.Inv := by
  have k := h.window t ht
  rw [finishWindow_eq] at hr
  obtain ⟨u, hu, hr⟩ := andThen_eq_next.1 hr
  cases hr
  obtain ⟨f, wf, -, -, -⟩ := moveFrom_next hu
  have hu' := h.transfer f (wf h.memory)
  refine State.Inv.completeImm ?_ (.inl rfl) ?_ ?_ ..
  · exact {
      initialised := hu'.initialised, params := hu'.params, memory := hu'.memory
      channel := fun c => (hu'.channel c).congr rfl rfl rfl rfl
      levels := hu'.levels.congr rfl (fun _ => rfl) (fun _ => rfl) rfl rfl
      window := fun x hx => nomatch hx }
  · have : u.chan 3 = s.chan 3 := f.chan 3
    show (u.chan 3).handler = _
    rw [this]; exact k.owner
  · have : (u.slots 3).ctrl = (s.slots 3).ctrl := f.ctrl 3
    show ctlEn (u.slots 3).ctrl = true
    rw [this, k.slot]; exact k.started

/-- One element moved in the window keeps the invariant. -/
theorem State.Inv.advanceWindow {s r : State} (h : s.Inv) {t : Window} (ht : s.window = some t) (hi : t.index < t.count)
    (hr : Machine.advanceWindow t s = .next r) : r.Inv := by
  have k := h.window t ht
  obtain ⟨u, hu, hr⟩ := andThen_eq_next.1 hr
  cases hr
  obtain ⟨f, wf, -⟩ := moveOne_next hu
  have hu' := h.transfer f (wf h.memory)
  exact {
    initialised := hu'.initialised, params := hu'.params, memory := hu'.memory
    channel := fun c => (hu'.channel c).congr rfl rfl rfl rfl
    levels := hu'.levels.congr rfl (fun _ => rfl) (fun _ => rfl) rfl rfl
    window := fun x hx => by
      cases hx
      have k' := hu'.window t (f.window.trans ht)
      exact ⟨k'.nested, ⟨hi, k'.bounds.2⟩, k'.started, k'.slot, k'.owner⟩ }

theorem effCount_bounds (n : Half) : 1 ≤ effCount 3 n ∧ effCount 3 n ≤ Config.maxCount := by
  have := n.isLt
  by_cases h : n = 0#16
  · subst h; decide
  · have h0 : n.toNat ≠ 0 := fun e => h (BitVec.eq_of_toNat_eq (by simpa using e))
    simp only [effCount, h, and_false, if_false, Config.maxCount]
    omega

theorem State.Inv.immStarted {s : State} (h : s.Inv) {c : Channel} (hc : s.window = none ∨ c ≠ 3) {v : Half} (hv : ctlEn v = true)
    (ss : StepDir) : (s.immStarted c v ss).Inv :=
  (h.setCtrl hc (.inr hv)).setCursors c _ _

theorem State.immStarted_handler (s : State) (c : Channel) (v : Half) (ss : StepDir) :
    ((s.immStarted c v ss).chan c).handler = (s.chan c).handler := by
  simp [State.immStarted, State.chan]

theorem State.immStarted_ctrl (s : State) (c : Channel) (v : Half) (ss : StepDir) :
    ((s.immStarted c v ss).slots c).ctrl = v := by
  simp [State.immStarted, State.slots]

/-- The opening of the nesting window keeps the invariant. -/
theorem State.Inv.openWindow {s : State} (h : s.Inv) {v : Half} (hv : ctlEn v = true) (he : s.eOld 3 = false) (hw : s.window = none)
    (ss : StepDir) (j : Job) :
    ((s.immStarted 3 v ss).openWindow ((s.immStarted 3 v ss).newWindow j (s.count 3) v)).Inv := by
  have k := h.immStarted (c := 3) (.inl hw) hv ss
  exact {
    initialised := k.initialised, params := k.params, memory := k.memory
    channel := fun c => (k.channel c).congr rfl rfl rfl rfl
    levels := k.levels.congr rfl (fun _ => rfl) (fun _ => rfl) rfl rfl
    window := fun x hx => by
      cases hx
      exact {
        nested := rfl
        bounds := ⟨Nat.zero_le _, effCount_bounds _⟩
        started := hv
        slot := s.immStarted_ctrl 3 v ss
        owner := (s.immStarted_handler 3 v ss).trans ((h.channel 3).disabled he) } }

/-- A triggered transfer keeps the invariant on a channel that is armed. -/
theorem State.Inv.periodic {s t : State} (h : s.Inv) {c : Channel} {w : Width} (ha : (s.chan c).handler ≠ .inactive)
    (hp : Machine.periodic c w s = .next t) : t.Inv := by
  have hc : s.window = none ∨ c ≠ 3 := by
    by_contra hn
    rw [not_or, not_not] at hn
    obtain ⟨x, hx⟩ := Option.ne_none_iff_exists'.1 hn.1
    exact ha (hn.2 ▸ (h.window x hx).owner)
  obtain ⟨ss, u, -, hu, r, hr, ht⟩ := periodic_eq_next hp
  obtain ⟨f, wf, -, -⟩ := xfer_next hu
  have k : u.Inv := (h.setCursors c _ _).transfer f (wf h.memory)
  have kr : r.Inv := by
    subst hr
    exact k.congr rfl rfl k.memory (fun _ => ⟨rfl, rfl, rfl⟩) (fun _ => rfl) rfl rfl rfl rfl
  have hwin : r.window = s.window := by subst hr; exact f.window
  by_cases hrep : ctlRep (s.slots c).ctrl = true
  · rw [if_pos hrep] at ht
    rw [ht]; exact kr
  · rw [if_neg hrep] at ht
    rw [ht]
    exact kr.deactivate (hwin ▸ hc)

theorem State.Inv.strobe {serves : Handler → Option Width} {f : Channel → State → Answer} (hf : Serves serves f)
    (hi : serves .inactive = none) {s t : State} (h : s.Inv) (hs : eachChannel f s = .next t) : t.Inv := by
  have one : ∀ c s t, s.Inv → f c s = .next t → t.Inv := by
    intro c s t h hc
    rcases hf.cases hc with ⟨-, rfl⟩ | ⟨w, hw, hp⟩
    · exact h
    · exact h.periodic (fun e => by rw [e, hi] at hw; cases hw) hp
  obtain ⟨t1, t2, t3, h1, h2, h3, h4⟩ := eachChannel_eq_next hs
  exact one _ _ _ (one _ _ _ (one _ _ _ (one _ _ _ h h1) h2) h3) h4

/-- `INIT` establishes the invariant, from any state with legal parameters and canonical memory. -/
theorem State.Inv.init {s : State} (p : s.params.ok = true) (m : s.mem.wf) (w : s.window = none) :
    (State.updateSharedEnables { s with initialised := true, chans := Quad.all Chan.reset }).Inv where
  initialised := rfl
  params := p
  memory := m
  channel c := by
    have : (State.updateSharedEnables { s with initialised := true, chans := Quad.all Chan.reset }).chan c = Chan.reset := by
      show (Quad.all Chan.reset).get c = _
      simp
    constructor <;> rw [this] <;> simp [Chan.reset]
  levels := State.updateSharedEnables_levels p
  window x hx := by
    have hx : s.window = some x := hx
    rw [w] at hx; cases hx

end Sys2Proof.Machine
end

