-- ==== Sys2Proof/Laws/PerInstr.lean ====
section
/-! SUPPORT. Statements made per instruction: the encoding of a well-formed operation lies in the row of the opcode table its
mnemonic names, or is the event vector of its strobe. -/

namespace Sys2Proof.Laws.EncodesRow

/-- The encoded word is covered by the row of the same mnemonic; an event vector is one-hot and decodes to the operation. -/
def Statement (i : Instr) : Prop :=
  i.WellFormed →
    match encode i with
    | .dw d => ∃ r ∈ opcodeTable, r.covers d = true ∧ r.mnemonic = i.mnemonic
    | .ev e => e ∈ [1#4, 2#4, 4#4, 8#4] ∧ decodeEv e = .ok i

/-- A word lies in a row when its bits under the mask are the row's. -/
theorem covers_of_bits {r : TableRow} {d : BitVec 19}
    (h : ∀ k : Fin 19, r.value.getLsbD k.val = (d.getLsbD k.val && r.mask.getLsbD k.val)) : r.covers d = true := by
  refine decide_eq_true (BitVec.eq_of_getLsbD_eq fun k hk => ?_)
  rw [BitVec.getLsbD_and]
  exact (h ⟨k, hk⟩).symm

/-- Bit `k` of a decode word: bits 15:0 the control word, bit 16 the old enable bit, bits 18:17 the channel. -/
theorem decodeWord_bit (c : Channel) (e : Bool) (v : Half) (k : Nat) :
    (decodeWord c e v).getLsbD k =
      if k < 16 then v.getLsbD k else if k = 16 then e else (BitVec.ofNat 2 c.val).getLsbD (k - 17) := by
  simp only [decodeWord, BitVec.getLsbD_append]
  by_cases h : k < 16
  · simp [h]
  · by_cases h' : k = 16
    · subst h'; simp
    · have h1 : ¬ (k - 16 < 1) := by omega
      simp [h, h', h1, show k - 16 - 1 = k - 17 by omega]

/-- The timing field as its two bits. -/
theorem timing_bits {v : Half} {t : BitVec 2} (h : ctlTiming v = t) : v.getLsbD 12 = t.getLsbD 0 ∧ v.getLsbD 13 = t.getLsbD 1 := by
  subst h
  simp [ctlTiming]

/-- The fields `startsWithTiming` asks for, bit by bit. -/
theorem startsWithTiming_bits {v : Half} {t : BitVec 2} (h : startsWithTiming v t = true) :
    v.getLsbD 15 = true ∧ v.getLsbD 11 = false ∧ v.getLsbD 12 = t.getLsbD 0 ∧ v.getLsbD 13 = t.getLsbD 1 := by
  simp only [startsWithTiming, Bool.and_eq_true, Bool.not_eq_true', decide_eq_true_eq] at h
  exact ⟨h.1.1, h.1.2, timing_bits h.2⟩

theorem ctrlUpd0 (c : Channel) (v : Half) : Statement (.ctrlUpd0 c v) := by
  intro h
  refine ⟨⟨"CTRL.UPD0", 0x18000#19, 0x00000#19⟩, by decide, covers_of_bits fun k => ?_, rfl⟩
  simp [Instr.WellFormed, Instr.wellFormed, ctlEn] at h
  rw [decodeWord_bit]
  fin_cases k <;> simp [h]

theorem ctrlUpd1 (c : Channel) (v : Half) : Statement (.ctrlUpd1 c v) := by
  intro h
  refine ⟨⟨"CTRL.UPD1", 0x18000#19, 0x18000#19⟩, by decide, covers_of_bits fun k => ?_, rfl⟩
  simp [Instr.WellFormed, Instr.wellFormed, ctlEn] at h
  rw [decodeWord_bit]
  fin_cases k <;> simp [h]

theorem ctrlStop (c : Channel) (v : Half) : Statement (.ctrlStop c v) := by
  intro h
  refine ⟨⟨"CTRL.STOP", 0x18000#19, 0x10000#19⟩, by decide, covers_of_bits fun k => ?_, rfl⟩
  simp [Instr.WellFormed, Instr.wellFormed, ctlEn] at h
  rw [decodeWord_bit]
  fin_cases k <;> simp [h]

theorem startXreq (c : Channel) (v : Half) : Statement (.startXreq c v) := by
  intro h
  refine ⟨⟨"CTRL.START.XREQ", 0x18800#19, 0x08800#19⟩, by decide, covers_of_bits fun k => ?_, rfl⟩
  simp [Instr.WellFormed, Instr.wellFormed, ctlEn, ctlXreq] at h
  rw [decodeWord_bit]
  fin_cases k <;> simp [h]

theorem startImm (c : Channel) (v : Half) : Statement (.startImm c v) := by
  intro h
  refine ⟨⟨"CTRL.START.IMM", 0x1B800#19, 0x08000#19⟩, by decide, covers_of_bits fun k => ?_, rfl⟩
  have hb := startsWithTiming_bits h
  simp at hb
  rw [decodeWord_bit]
  fin_cases k <;> simp [hb]

theorem startVbl (c : Channel) (v : Half) : Statement (.startVbl c v) := by
  intro h
  refine ⟨⟨"CTRL.START.VBL", 0x1B800#19, 0x09000#19⟩, by decide, covers_of_bits fun k => ?_, rfl⟩
  have hb := startsWithTiming_bits h
  simp at hb
  rw [decodeWord_bit]
  fin_cases k <;> simp [hb]

theorem startHbl (c : Channel) (v : Half) : Statement (.startHbl c v) := by
  intro h
  refine ⟨⟨"CTRL.START.HBL", 0x1B800#19, 0x0A000#19⟩, by decide, covers_of_bits fun k => ?_, rfl⟩
  have hb := startsWithTiming_bits h
  simp at hb
  rw [decodeWord_bit]
  fin_cases k <;> simp [hb]

theorem startSpc0 (v : Half) : Statement (.startSpc0 v) := by
  intro h
  refine ⟨⟨"CTRL.START.SPC0", 0x7B800#19, 0x0B000#19⟩, by decide, covers_of_bits fun k => ?_, rfl⟩
  have hb := startsWithTiming_bits h
  simp at hb
  rw [decodeWord_bit]
  fin_cases k <;> simp [hb]

theorem startAud1 (v : Half) : Statement (.startAud1 v) := by
  intro h
  refine ⟨⟨"CTRL.START.AUD1", 0x7B800#19, 0x2B000#19⟩, by decide, covers_of_bits fun k => ?_, rfl⟩
  have hb := startsWithTiming_bits h
  simp at hb
  rw [decodeWord_bit]
  fin_cases k <;> simp [hb]

theorem startAud2 (v : Half) : Statement (.startAud2 v) := by
  intro h
  refine ⟨⟨"CTRL.START.AUD2", 0x7B800#19, 0x4B000#19⟩, by decide, covers_of_bits fun k => ?_, rfl⟩
  have hb := startsWithTiming_bits h
  simp at hb
  rw [decodeWord_bit]
  fin_cases k <;> simp [hb]

theorem startSpc3 (v : Half) : Statement (.startSpc3 v) := by
  intro h
  refine ⟨⟨"CTRL.START.SPC3", 0x7B800#19, 0x6B000#19⟩, by decide, covers_of_bits fun k => ?_, rfl⟩
  have hb := startsWithTiming_bits h
  simp at hb
  rw [decodeWord_bit]
  fin_cases k <;> simp [hb]

theorem init : Statement .init := fun _ => ⟨by decide, rfl⟩

theorem trigVblank : Statement .trigVblank := fun _ => ⟨by decide, rfl⟩

theorem trigHblank : Statement .trigHblank := fun _ => ⟨by decide, rfl⟩

theorem trigAudio : Statement .trigAudio := fun _ => ⟨by decide, rfl⟩

end Sys2Proof.Laws.EncodesRow
end

