-- ==== Sys2Proof/Laws/Step.lean ====
section
/-! SUPPORT. What a step can do: which line it takes, and what serving a line leaves alone and keeps. -/

namespace Sys2Proof.Machine

/-! ### Which line is taken -/

/-- A line taken is the first of the run, and nothing but the run has changed. -/
theorem State.offered_eq_some {s t : State} {l : HostLine} (h : s.offered = some (l, t)) :
    ∃ k rest, s.script = ⟨k, l⟩ :: rest ∧ t = { s with script := rest } := by
  unfold State.offered at h
  split at h
  · cases h
  · rename_i o rest ho
    split at h
    · cases h
      exact ⟨o.inWindow, rest, ho, rfl⟩
    · split at h
      · cases h
        exact ⟨o.inWindow, rest, ho, rfl⟩
      · cases h

/-- A step: a line served in the state with the run advanced, or the transfer in the window, or nothing. -/
theorem step_cases (s : State) :
    (∃ l k rest, s.script = ⟨k, l⟩ :: rest ∧ step s = serve l { s with script := rest }) ∨
    (∃ t, s.window = some t ∧ step s = serviceWindow t s) ∨
    (s.window = none ∧ step s = .next s) := by
  unfold step
  cases ho : s.offered with
  | some p =>
    obtain ⟨l, t⟩ := p
    obtain ⟨k, rest, hs, rfl⟩ := State.offered_eq_some ho
    exact .inl ⟨l, k, rest, hs, rfl⟩
  | none =>
    cases hw : s.window with
    | some t => exact .inr (.inl ⟨t, rfl, by simp [unattended, hw]⟩)
    | none => exact .inr (.inr ⟨rfl, by simp [unattended, hw]⟩)

/-- Where no line is offered for the window any more, a step ends the operation in service, whatever line waits. -/
theorem step_finishes {s : State} {t : Window} (hw : s.window = some t) (hn : ¬ s.hostInWindow t.count) (hi : t.index ≤ t.count) :
    step s = finishWindow t s := by
  cases hs : s.script with
  | nil => simp [step, State.offered, hs, unattended, hw, serviceWindow, State.nextInWindow]
  | cons o rest =>
    have hk : ∀ k, o.inWindow = some k → ¬ k ≤ t.count := fun k ho h => hn ⟨k, by simp [State.nextInWindow, hs, ho], h⟩
    have hd : o.due t = false := by
      cases ho : o.inWindow with
      | none => simp [Offer.due, ho]
      | some k =>
        have := hk k ho
        simp [Offer.due, ho]
        omega
    have hx : s.offered = none := by simp [State.offered, hs, hw, hd]
    simp only [step, hx, unattended, hw, serviceWindow, State.nextInWindow, hs]
    cases ho : o.inWindow with
    | none => rfl
    | some k => simp [hk k ho]

/-- Where the next line is for the window and a later element, a step moves one element. -/
theorem step_advances {s : State} {t : Window} {o : Offer} {rest : List Offer} {k : Nat} (hw : s.window = some t)
    (hs : s.script = o :: rest) (ho : o.inWindow = some k) (h1 : t.index < k) (h2 : k ≤ t.count) : step s = advanceWindow t s := by
  have hd : o.due t = false := by
    simp [Offer.due, ho]
    omega
  simp [step, State.offered, hs, hw, hd, unattended, serviceWindow, State.nextInWindow, ho, h1, h2]

/-- The engine's turn in the window: one element, or the rest. -/
theorem serviceWindow_cases (t : Window) (s : State) :
    (t.index < t.count ∧ serviceWindow t s = advanceWindow t s) ∨ serviceWindow t s = finishWindow t s := by
  unfold serviceWindow
  split
  · split
    · rename_i h
      exact .inl ⟨by omega, rfl⟩
    · exact .inr rfl
  · exact .inr rfl

theorem advanceWindow_opFrame {t : Window} {s r : State} (h : advanceWindow t s = .next r) : OpFrame s r := by
  obtain ⟨u, hu, hr⟩ := andThen_eq_next.1 h
  cases hr
  obtain ⟨f, wf, -⟩ := moveOne_next hu
  have g := f.opFrame wf
  exact ⟨g.params, g.rom, g.script, g.dispMode, g.memory⟩

theorem serviceWindow_opFrame {t : Window} {s r : State} (h : serviceWindow t s = .next r) : OpFrame s r := by
  rcases serviceWindow_cases t s with ⟨-, e⟩ | e
  · exact advanceWindow_opFrame (e ▸ h)
  · exact finishWindow_opFrame (e ▸ h)

/-! ### Operations offered -/

theorem serveCmd_eq_next {ra : Word} {v : Half} {s t : State} (h : serveCmd ra v s = .next t) :
    ∃ c, decodeRa ra = .ok c ∧ exec (decodeDw (decodeWord c (s.eOld c) v)) s = .next t := by
  unfold serveCmd at h
  split at h
  · rename_i c hc; exact ⟨c, hc, h⟩
  · cases h

theorem serveEv_eq_next {e : BitVec 4} {s t : State} (h : serveEv e s = .next t) :
    ∃ i, decodeEv e = .ok i ∧ exec i s = .next t := by
  unfold serveEv at h
  split at h
  · rename_i i hi; exact ⟨i, hi, h⟩
  · cases h

/-- A strobe is one of the four event operations. -/
theorem decodeEv_eq_ok {e : BitVec 4} {i : Instr} (h : decodeEv e = .ok i) :
    i = .init ∨ i = .trigVblank ∨ i = .trigHblank ∨ i = .trigAudio := by
  unfold decodeEv at h
  split at h
  · cases h; exact .inl rfl
  · split at h
    · cases h; exact .inr (.inl rfl)
    · split at h
      · cases h; exact .inr (.inr (.inl rfl))
      · split at h
        · cases h; exact .inr (.inr (.inr rfl))
        · cases h

/-- An audio start keeps the invariant. -/
theorem audioStart_keepsInv {s t : State} (hI : s.Inv) {c : Channel} (hc : c ∈ Config.audioCh) {v : Half} (hv : ctlEn v = true)
    (h : audioStart c v s = .next t) (hidle : (s.chan c).handler = .inactive) : t.Inv := by
  have ha : s.acceptsCmd c := (acceptCmd_eq_next h).1
  rw [audioStart_eq ha] at h
  split at h
  · cases h; exact hI.setCtrl ha.2 (.inr hv)
  · cases h
    obtain ⟨hhb, -⟩ := (hI.channel c).idle hidle
    refine hI.arm ha.2 hv _ ?_ ?_ (fun _ => hc) _ _ _ <;> simp [hhb]

/-- A `CMD`, decoded with the enable bit its slot holds, keeps the invariant (rule R206). -/
theorem exec_cmd_keepsInv {s t : State} (hI : s.Inv) {c : Channel} {v : Half}
    (h : exec (decodeDw (decodeWord c (s.eOld c) v)) s = .next t) : t.Inv := by
  rw [decodeDw_decodeWord] at h
  cases he : s.eOld c with
  | false =>
    have hidle : (s.chan c).handler = .inactive := (hI.channel c).disabled he
    cases hv : ctlEn v with
    | false =>
      rw [he, hv] at h
      obtain ⟨ha, rfl⟩ := storeControl_eq_next (h : storeControl c v s = .next t)
      exact hI.setCtrl ha.2 (.inl hidle)
    | true =>
      rw [he, hv] at h
      have h : exec (decodeStart c v) s = .next t := h
      have hstore : ∀ {d}, storeControl d v s = .next t → t.Inv := by
        intro d h
        obtain ⟨ha, rfl⟩ := storeControl_eq_next h
        exact hI.setCtrl ha.2 (.inr hv)
      unfold decodeStart at h
      split at h
      · exact hstore (h : storeControl c v s = .next t)
      · split at h
        · have h : execStartImm c v s = .next t := h
          obtain ⟨ha, ss, -, ⟨hc, u, hu, rfl⟩ | ⟨rfl, w, rfl, rfl | hf⟩⟩ := execStartImm_eq_next h
          · obtain ⟨f, wf, -, -⟩ := xfer_next hu
            have k := (hI.immStarted ha.2 hv ss).transfer f (wf hI.memory)
            refine k.completeImm (.inr hc) ?_ ?_ v _ _ _ _
            · rw [f.chan, State.immStarted_handler]; exact hidle
            · rw [f.ctrl, State.immStarted_ctrl]; exact hv
          · have hw : s.window = none := ha.2.resolve_right (fun h => h rfl)
            exact hI.openWindow hv he hw ss _
          · have hw : s.window = none := ha.2.resolve_right (fun h => h rfl)
            exact (hI.openWindow hv he hw ss _).finishWindow rfl hf
        · split at h
          · exact hstore (h : storeControl c v s = .next t)
          · split at h
            · have h : execStartHbl c v s = .next t := h
              have ha : s.acceptsCmd c := (acceptCmd_eq_next h).1
              rw [execStartHbl_eq ha] at h
              split at h
              · cases h; exact hI.setCtrl ha.2 (.inr hv)
              · cases h
                obtain ⟨-, hau⟩ := (hI.channel c).idle hidle
                refine hI.arm ha.2 hv _ ?_ ?_ ?_ s.drainRequest s.drainView s.trace
                · by_cases hw : ctlWidth v = true <;> simp [hw]
                · by_cases hw : ctlWidth v = true <;> simp [hw, hau]
                · simp [hau]
            · unfold decodeSpecial at h
              split at h
              · exact hstore (h : storeControl 0 v s = .next t)
              · exact audioStart_keepsInv hI (by decide) hv (h : audioStart 1 v s = .next t) hidle
              · exact audioStart_keepsInv hI (by decide) hv (h : audioStart 2 v s = .next t) hidle
              · exact hstore (h : storeControl 3 v s = .next t)
  | true =>
    cases hv : ctlEn v with
    | false =>
      rw [he, hv] at h
      obtain ⟨ha, rfl⟩ := execCtrlStop_eq_next (h : execCtrlStop c v s = .next t)
      exact hI.stop ha.2 v
    | true =>
      rw [he, hv] at h
      obtain ⟨ha, rfl⟩ := storeControl_eq_next (h : storeControl c v s = .next t)
      exact hI.setCtrl ha.2 (.inr hv)

/-- An event strobe keeps the invariant. -/
theorem exec_event_keepsInv {s t : State} (hI : s.Inv) {e : BitVec 4} {i : Instr} (he : decodeEv e = .ok i)
    (h : exec i s = .next t) : t.Inv := by
  rcases decodeEv_eq_ok he with rfl | rfl | rfl | rfl
  · obtain ⟨hw, rfl⟩ := execInit_eq_next h
    exact State.Inv.init hI.params hI.memory hw
  · obtain ⟨-, h⟩ := acceptStrobe_eq_next (h : execTrigVblank s = .next t)
    cases h; exact hI
  · exact State.Inv.strobe serves_hblank rfl hI (execTrigHblank_eq_next h).2
  · obtain ⟨-, ⟨-, rfl⟩ | ⟨-, -, rfl⟩ | ⟨-, -, h⟩⟩ := execTrigAudio_eq_next h
    · exact hI
    · exact hI.congr rfl rfl hI.memory (fun _ => ⟨rfl, rfl, rfl⟩) (fun _ => rfl) rfl rfl rfl rfl
    · refine State.Inv.strobe serves_audio rfl (s := s.acquireDrain.clearDrain) ?_ h
      exact hI.congr rfl rfl hI.memory (fun _ => ⟨rfl, rfl, rfl⟩) (fun _ => rfl) rfl rfl rfl rfl

/-! ### Steps of the host -/

/-- What a step of the host that is no operation leaves alone and keeps: the channels, the control slots' enable bits where they are
written at all, the levels the block drives, the window. -/
structure HostFrame (s t : State) : Prop where
  params : t.params = s.params
  initialised : t.initialised = s.initialised
  rom : t.rom = s.rom
  script : t.script = s.script
  chans : t.chans = s.chans
  enables : ∀ c, ctlEn (t.slots c).ctrl = ctlEn (s.slots c).ctrl
  ctrl : ∀ x, s.window = some x → ∀ c, (t.slots c).ctrl = (s.slots c).ctrl
  forcedIrqMask : t.forcedIrqMask = s.forcedIrqMask
  blankingIrqEnabled : t.blankingIrqEnabled = s.blankingIrqEnabled
  nestedIrqEnabled : ∀ x, s.window = some x → t.nestedIrqEnabled = s.nestedIrqEnabled
  window : t.window = s.window
  tr : t.tr = s.tr
  memory : s.mem.wf → t.mem.wf

theorem HostFrame.keepsInv {s t : State} (h : HostFrame s t) (hI : s.Inv) : t.Inv where
  initialised := h.initialised.trans hI.initialised
  params := by rw [h.params]; exact hI.params
  memory := h.memory hI.memory
  channel c := by
    have hc : t.chan c = s.chan c := by simp only [State.chan, h.chans]
    have k := hI.channel c
    exact ⟨by rw [hc, h.enables c]; exact k.enabled, by rw [hc]; exact k.blanking, by rw [hc]; exact k.audio,
      by rw [hc]; exact k.audioChannel⟩
  levels := hI.levels.congr h.params (fun c => by simp only [State.chan, h.chans]) (fun c => by simp only [State.chan, h.chans])
    h.forcedIrqMask h.blankingIrqEnabled
  window x hx := by
    have hx' : s.window = some x := h.window ▸ hx
    exact (hI.window x hx').congr (h.nestedIrqEnabled x hx') (h.ctrl x hx' 3) (by simp only [State.chan, h.chans])

theorem touchesFlight_iff {s : State} {t : Window} {a : Word} {n : Nat} :
    s.touchesFlight t a n ↔ (List.range n).any (fun k => inFlight s t (a + BitVec.ofNat 32 k)) = true := by
  simp [State.touchesFlight]

/-- A host store that touches the transfer in flight is refused (rule R266). -/
theorem hostStore_refused {s : State} {t : Window} (hw : s.window = some t) {a : Word} {n : Nat} (h : s.touchesFlight t a n)
    (f : State → State) : hostStore a n s f = .refused .windowStep := by
  simp [hostStore, hw, touchesFlight_iff.1 h]

/-- Any other is made. -/
theorem hostStore_free {s : State} {a : Word} {n : Nat} (h : s.storeFree a n) (f : State → State) :
    hostStore a n s f = .next (f s) := by
  unfold hostStore
  cases hw : s.window with
  | none => rfl
  | some t =>
    have := h t hw
    rw [touchesFlight_iff] at this
    simp [this]

/-- A host store that is carried out is the store. -/
theorem hostStore_eq_next {a : Word} {n : Nat} {s t : State} {f : State → State} (h : hostStore a n s f = .next t) : t = f s := by
  unfold hostStore at h
  split at h
  · cases h; rfl
  · split at h
    · cases h
    · cases h; rfl

/-- A change of the register view that keeps every control slot. -/
theorem HostFrame.of_view {s : State} {v : Quad Slots} (h : ∀ c, (v.get c).ctrl = (s.view.get c).ctrl) :
    HostFrame s { s with view := v } := by
  constructor <;> first | rfl | (intros; first | rfl | assumption | exact h _ | exact congrArg ctlEn (h _))

theorem HostFrame.of_setSlots {s : State} {c : Channel} {x : Slots} (h : x.ctrl = (s.slots c).ctrl) : HostFrame s (s.setSlots c x) := by
  refine HostFrame.of_view fun d => ?_
  by_cases hd : d = c
  · subst hd; rw [Quad.get_set_same]; exact h
  · simp [hd]

theorem HostFrame.of_mem {s : State} {m : Memory} (h : s.mem.wf → m.wf) : HostFrame s { s with mem := m } := by
  constructor <;> first | rfl | exact h | (intros; rfl)

theorem HostFrame.refl (s : State) : HostFrame s s := by
  constructor <;> first | rfl | exact fun h => h | (intros; rfl)

/-- A control word stored whole by a byte store that keeps bit 15, outside the window. -/
theorem HostFrame.of_setCtrl {s : State} {c : Channel} {v : Half} (hw : s.window = none) (h : ctlEn v = s.eOld c) :
    HostFrame s (s.setCtrl c v) := by
  constructor
  case enables =>
    intro d
    by_cases hd : d = c
    · subst hd; rw [State.setCtrl_slots_same]; exact h
    · rw [State.setCtrl_slots_other _ hd]
  case ctrl => intro x hx; rw [hw] at hx; cases hx
  case nestedIrqEnabled => intros; rfl
  case memory => exact fun h => h
  all_goals rfl

theorem hostElem_frame {a : Word} {w : Width} {v : Word} {s t : State} (h : hostElem a w v s = .next t) : HostFrame s t := by
  rw [hostStore_eq_next h]
  split
  · obtain ⟨m, hm, hwf⟩ := s.backWrite_eq (s.xlate a) w v
    rw [hm]; exact HostFrame.of_mem hwf
  · obtain ⟨u, hu, hc, -⟩ := s.slotWrite_eq a w v
    rw [hu]; exact HostFrame.of_view hc

theorem hostCount_frame {c : Channel} {n : Half} {s t : State} (h : hostCount c n s = .next t) : HostFrame s t := by
  rw [hostStore_eq_next h]; exact HostFrame.of_setSlots rfl

theorem hostByte_frame {a : Word} {b : Byte} {s t : State} (h : hostByte a b s = .next t) : HostFrame s t := by
  unfold hostByte at h
  split at h
  · rename_i c o ho
    split at h
    · unfold controlByte at h
      dsimp only at h
      split at h
      · cases h
      · rename_i hw
        split at h
        · rename_i he
          cases h
          exact HostFrame.of_setCtrl (by simpa using hw) he
        · cases h
    · rw [hostStore_eq_next h]
      exact HostFrame.of_setSlots (Slots.setByte_ctrl ..)
  · rw [hostStore_eq_next h]
    split
    · exact HostFrame.of_mem fun k => Memory.write_wf k (BitVec.isLt _) _
    · exact HostFrame.refl s

/-- Serving a line: an operation, or a step of the host, or (a 32-bit store over count and control) the two in this order. -/
theorem serve_cases {l : HostLine} {s t : State} (h : serve l s = .next t) :
    HostFrame s t ∨ (∃ ra v, serveCmd ra v s = .next t) ∨ (∃ e, serveEv e s = .next t) ∨
      ∃ c n u ra v, hostCount c n s = .next u ∧ serveCmd ra v u = .next t := by
  cases l with
  | cmd ra v => exact .inr (.inl ⟨ra, v, h⟩)
  | ev e => exact .inr (.inr (.inl ⟨e, h⟩))
  | sadw c a => refine .inl ?_; simp only [serve] at h; rw [hostStore_eq_next h]; exact HostFrame.of_setSlots rfl
  | dadw c a => refine .inl ?_; simp only [serve] at h; rw [hostStore_eq_next h]; exact HostFrame.of_setSlots rfl
  | cntw c n => exact .inl (hostCount_frame h)
  | memw8 a b => exact .inl (hostByte_frame h)
  | memw16 a v =>
    have h : hostHalf a v s = .next t := h
    unfold hostHalf at h
    dsimp only at h
    split at h
    · exact .inr (.inl ⟨_, _, h⟩)
    · exact .inl (hostElem_frame h)
  | memw32 a v =>
    have h : hostWord a v s = .next t := h
    unfold hostWord at h
    dsimp only at h
    split at h
    · obtain ⟨u, hu, ht⟩ := andThen_eq_next.1 h
      exact .inr (.inr (.inr ⟨_, _, u, _, _, hu, ht⟩))
    · exact .inl (hostElem_frame h)
  | dispMode m =>
    have h : hostDispMode m s = .next t := h
    unfold hostDispMode at h
    split at h
    · cases h
    · cases h
      refine .inl ?_
      constructor <;> first | rfl | exact fun h => h | (intros; rfl)
  | drainSet => cases h; refine .inl ?_; constructor <;> first | rfl | exact fun h => h | (intros; rfl)
  | irqAck m => cases h; refine .inl ?_; constructor <;> first | rfl | exact fun h => h | (intros; rfl)
  | nestPolicy on =>
    have h : hostNestPolicy on s = .next t := h
    unfold hostNestPolicy at h
    split at h
    · cases h
    · rename_i hw
      cases h
      refine .inl ?_
      have hw : s.window = none := by simpa using hw
      constructor
      case nestedIrqEnabled => intro x hx; rw [hw] at hx; cases hx
      all_goals first | rfl | exact fun h => h | (intros; rfl)
  | look => cases h; exact .inl (HostFrame.refl _)

end Sys2Proof.Machine
end

