-- ==== Sys2Proof/Laws/Strobe.lean ====
section
/-! SUPPORT. What a whole strobe leaves, by following the four turns of its channels; and the next line offered. -/

namespace Sys2Proof.Machine

/-! ### A strobe, turn by turn -/

/-- A transfer that stores to no slot stores to no control half-word. -/
theorem Job.sparesView.sparesControl {j : Job} {n : Nat} (h : j.sparesView n) : j.sparesControl n := by
  intro i hi
  have := h i hi
  have hb : ∀ a, isSlotByte a = false → isCtrlByte a = false := by
    intro a ha
    unfold isSlotByte at ha; unfold isCtrlByte
    cases h : slotOf a <;> simp_all
  revert this
  unfold coversByte
  cases j.width <;> simp only [Bool.or_eq_false_iff] <;> intro h
  · exact ⟨hb _ h.1, hb _ h.2⟩
  · exact ⟨⟨⟨hb _ h.1.1.1, hb _ h.1.1.2⟩, hb _ h.1.2⟩, hb _ h.2⟩

/-- The state after the channels below `k` have had their turn in a strobe from `s`. -/
structure ServedUpTo (serves : Handler → Option Width) (s : State) (k : Nat) (t : State) : Prop where
  done : ∀ c : Channel, c.val < k → ∀ w ss, serves (s.chan c).handler = some w → sstep (s.slots c).ctrl = some ss →
    t.chan c = s.triggeredChan c w ss ∧ t.slots c = { s.slots c with ctrl := s.triggeredCtrl c }
  rest : ∀ c : Channel, (c.val < k → serves (s.chan c).handler = none) → t.chan c = s.chan c ∧ t.slots c = s.slots c
  pending : ∀ b, t.irqPending.getLsbD b = true ↔
    (s.irqPending.getLsbD b = true ∨
      ∃ c : Channel, c.val < k ∧ b = 8 + c.val ∧ (serves (s.chan c).handler).isSome = true ∧ ctlIrq (s.slots c).ctrl = true)
  bytes : ∀ x, (∀ c w ss, serves (s.chan c).handler = some w → sstep (s.slots c).ctrl = some ss →
    ¬ s.storedBy (s.triggerJob c w ss) (s.count c) x) → t.byteAt x = s.byteAt x
  params : t.params = s.params
  initialised : t.initialised = s.initialised
  rom : t.rom = s.rom
  dispMode : t.dispMode = s.dispMode
  nestedIrqEnabled : t.nestedIrqEnabled = s.nestedIrqEnabled
  window : t.window = s.window
  script : t.script = s.script
  drainRequest : t.drainRequest = s.drainRequest
  drainView : t.drainView = s.drainView
  levels : s.params.ok = true → s.LevelsOk → t.LevelsOk
  idle : (∀ c : Channel, serves (s.chan c).handler = none) → t = s

/-- The turn of the next channel completes. -/
theorem ServedUpTo.step {serves : Handler → Option Width} {f : Channel → State → Answer} (hf : Serves serves f) {s t : State} {k : Nat} (hk : k < 4) (hs : s.canServe serves)
    (h : ServedUpTo serves s k t) : ∃ r, f ⟨k, hk⟩ t = .next r ∧ ServedUpTo serves s (k+1) r := by
  let c : Channel := ⟨k, hk⟩
  have hc := h.rest c (fun h => absurd h (Nat.lt_irrefl k))
  cases hw : serves (s.chan c).handler with
  | none =>
    refine ⟨t, ?_, ?_⟩
    · rw [hf]; show (match serves (t.chan c).handler with | some w => _ | none => _) = _
      rw [hc.1, hw]
    · refine ⟨?_, ?_, ?_, h.bytes, h.params, h.initialised, h.rom, h.dispMode, h.nestedIrqEnabled, h.window, h.script, h.drainRequest, h.drainView, h.levels, h.idle⟩
      · intro d hd w ss h1 h2
        by_cases hdk : d.val < k
        · exact h.done d hdk w ss h1 h2
        · have : d = c := Fin.ext (by show d.val = k; omega)
          rw [this, hw] at h1; cases h1
      · intro d hd
        exact h.rest d (fun hlt => hd (by omega))
      · intro b
        rw [h.pending]
        constructor
        · rintro (h | ⟨d, h1, h2⟩)
          · exact .inl h
          · exact .inr ⟨d, by omega, h2⟩
        · rintro (h | ⟨d, h1, h2, h3, h4⟩)
          · exact .inl h
          · by_cases hdk : d.val < k
            · exact .inr ⟨d, hdk, h2, h3, h4⟩
            · have : d = c := Fin.ext (by show d.val = k; omega)
              rw [this, hw] at h3; cases h3
  | some w =>
    obtain ⟨ss, hss, hsv⟩ := hs c w hw
    have hct : t.slots c = s.slots c := hc.2
    have hcc : t.chan c = s.chan c := hc.1
    have hcnt : t.count c = s.count c := by simp only [State.count, hct]
    have hjob : ∀ i, (t.triggerJob c w ss).dstAt i = (s.triggerJob c w ss).dstAt i := by
      intro i; simp only [State.triggerJob, mkJob_dstAt, State.triggerDst, hct, hcc]
    have hsv' : (t.triggerJob c w ss).sparesView (t.count c) := by
      intro i hi; rw [hjob]; exact hsv i (by rwa [← hcnt])
    have hss' : sstep (t.slots c).ctrl = some ss := by rw [hct]; exact hss
    obtain ⟨u, hu⟩ := xfer_completes (src := (t.chan c).src) (dst := t.triggerDst c (t.slots c).ctrl) (n := t.count c) (ss := ss) (ds := dstep (t.slots c).ctrl) (w := w)
      (s := t.advanceCursors c (t.slots c).ctrl (t.count c) w ss) (Job.sparesView.sparesControl hsv')
    obtain ⟨fr, wf, hb, hv⟩ := xfer_next hu
    have hp : ∃ r, periodic c w t = .next r := by
      rw [periodic_eq hss', hu]; exact ⟨_, rfl⟩
    obtain ⟨r, hp⟩ := hp
    obtain ⟨ss', u', h1, hu', r', hr', hrt⟩ := periodic_eq_next hp
    rw [hss'] at h1; cases h1
    rw [hu] at hu'; cases hu'
    obtain ⟨ss', h1, g2, g3, g4⟩ := periodic_channel hp
    rw [hss'] at h1; cases h1
    have g := periodic_frame hp
    have hview : u.view = t.view := hv hsv'
    have hslots : ∀ d, d ≠ c → r.slots d = t.slots d := by
      intro d hd
      rw [hrt]; split
      · rw [hr']; show u.view.get d = _; rw [hview]; rfl
      · rw [State.deactivate_slots_other _ hd, hr']; show u.view.get d = _; rw [hview]; rfl
    have hslotc : r.slots c = { t.slots c with ctrl := t.triggeredCtrl c } := by
      rw [hrt]; unfold State.triggeredCtrl
      have : r'.slots c = t.slots c := by rw [hr']; show u.view.get c = _; rw [hview]; rfl
      split
      · rw [this]
      · rw [State.deactivate_slots_same, this]
    have hmem : ∀ x, r.byteAt x = u.byteAt x := by
      intro x; rw [hrt]; split <;> (rw [hr']; rfl)
    refine ⟨r, ?_, ?_⟩
    · rw [hf]; show (match serves (t.chan c).handler with | some w => _ | none => _) = _
      rw [hcc, hw]; exact hp
    · refine ⟨?_, ?_, ?_, ?_, g.params.trans h.params, g.initialised.trans h.initialised, g.rom.trans h.rom, g.dispMode.trans h.dispMode, g.nestedIrqEnabled.trans h.nestedIrqEnabled, g.window.trans h.window, g.script.trans h.script, g.drainRequest.trans h.drainRequest, g.drainView.trans h.drainView, ?_, ?_⟩
      · intro d hd w' ss' k1 k2
        by_cases hdk : d.val < k
        · have hne : d ≠ c := fun e => by rw [e] at hdk; exact absurd hdk (Nat.lt_irrefl k)
          rw [g.chans d hne, hslots d hne]
          exact h.done d hdk w' ss' k1 k2
        · have hd : d = c := Fin.ext (by show d.val = k; omega)
          rw [hd] at k1 k2 ⊢
          rw [hw] at k1; cases k1
          rw [hss] at k2; cases k2
          rw [g2, hslotc]
          simp only [State.triggeredChan, State.triggeredCtrl, hct, hcc, hcnt]
          exact ⟨trivial, trivial⟩
      · intro d hd
        have hne : d ≠ c := fun e => by
          have := hd (by rw [e]; exact Nat.lt_succ_self k)
          rw [e, hw] at this; cases this
        rw [g.chans d hne, hslots d hne]
        exact h.rest d (fun hlt => hd (by omega))
      · intro b
        rw [g4]
        have : (pendingAfter t.irqPending c (ctlIrq (t.slots c).ctrl)).getLsbD b = true ↔ (t.irqPending.getLsbD b = true ∨ (b = 8 + c.val ∧ ctlIrq (s.slots c).ctrl = true)) := by
          unfold pendingAfter
          rw [hct]
          by_cases hi : ctlIrq (s.slots c).ctrl = true
          · simp only [hi, if_true, and_true]; exact raise_bit _ _ _
          · simp [hi]
        rw [this, h.pending]
        constructor
        · rintro ((h | ⟨d, h1, h2⟩) | ⟨h1, h2⟩)
          · exact .inl h
          · exact .inr ⟨d, by omega, h2⟩
          · exact .inr ⟨c, Nat.lt_succ_self k, h1, by rw [hw]; rfl, h2⟩
        · rintro (h | ⟨d, h1, h2, h3, h4⟩)
          · exact .inl (.inl h)
          · by_cases hdk : d.val < k
            · exact .inl (.inr ⟨d, hdk, h2, h3, h4⟩)
            · have hd : d = c := Fin.ext (by show d.val = k; omega)
              rw [hd] at h2 h4
              exact .inr ⟨h2, h4⟩
      · intro x hx
        rw [hmem x]
        have := hb x (fun hst => hx c w ss hw hss (by
          obtain ⟨i, hi, h1, h2⟩ := hst
          have hxl : ∀ a, (t.advanceCursors c (t.slots c).ctrl (t.count c) w ss).xlate a = s.xlate a := by
            intro a; show xlate t.params t.dispMode a = _; rw [h.params, h.dispMode]; rfl
          rw [hxl] at h2
          have hj : (mkJob (t.chan c).src (t.triggerDst c (t.slots c).ctrl) ss (dstep (t.slots c).ctrl) w (t.advanceCursors c (t.slots c).ctrl (t.count c) w ss).tr).dstAt i = (s.triggerJob c w ss).dstAt i := hjob i
          rw [hj] at h1 h2
          exact ⟨i, by rwa [← hcnt], h1, h2⟩))
        exact this.trans (h.bytes x hx)
      · intro hp hl
        have hl := h.levels hp hl
        rw [hrt]
        have hr'l : r'.LevelsOk := by
          have hch : ∀ d, (r'.chan d).hb = (t.chan d).hb ∧ (r'.chan d).au = (t.chan d).au := by
            intro d
            have : r'.chan d = (t.advanceCursors c (t.slots c).ctrl (t.count c) w ss).chan d := by rw [hr']; exact fr.chan d
            rw [this]
            unfold State.advanceCursors
            by_cases hd : d = c
            · subst hd; rw [State.setCursors_chan_same]; exact ⟨rfl, rfl⟩
            · rw [State.setCursors_chan_other _ hd]; exact ⟨rfl, rfl⟩
          have hany : r'.anyHb = t.anyHb := by simp only [State.anyHb, (hch _).1]
          have hanya : r'.anyAu = t.anyAu := by simp only [State.anyAu, (hch _).2]
          have e1 : r'.forcedIrqMask = t.forcedIrqMask := by rw [hr']; exact fr.forcedIrqMask
          have e2 : r'.blankingIrqEnabled = t.blankingIrqEnabled := by rw [hr']; exact fr.blankingIrqEnabled
          have e3 : r'.params = t.params := by rw [hr']; exact fr.params
          exact ⟨by rw [e1, e3, hany]; exact hl.forcedBlank, by rw [e2, hany]; exact hl.display, by rw [e1, e3, hanya]; exact hl.forcedAudio⟩
        split
        · exact hr'l
        · refine State.deactivate_levels ?_ c
          have e3 : r'.params = t.params := by rw [hr']; exact fr.params
          rw [e3, h.params]; exact hp
      · intro hall
        rw [hall c] at hw; cases hw

/-- Before the first turn. -/
theorem ServedUpTo.zero (serves : Handler → Option Width) (s : State) : ServedUpTo serves s 0 s := by
  refine ⟨fun c h => absurd h (by omega), fun _ _ => ⟨rfl, rfl⟩, fun b => ?_, fun _ _ => rfl, rfl, rfl, rfl, rfl, rfl, rfl, rfl, rfl, rfl, fun _ h => h, fun _ => rfl⟩
  constructor
  · exact .inl
  · rintro (h | ⟨c, h, -⟩)
    · exact h
    · omega

/-- After the last turn the strobe has its result. -/
theorem ServedUpTo.result {serves : Handler → Option Width} {s t : State} (h : ServedUpTo serves s 4 t) : StrobeResult serves s t :=
  ⟨fun c w ss h1 h2 => h.done c c.isLt w ss h1 h2, fun c hc => h.rest c (fun _ => hc),
   fun b => by
     rw [h.pending]
     constructor
     · rintro (h | ⟨c, -, h⟩)
       · exact .inl h
       · exact .inr ⟨c, h⟩
     · rintro (h | ⟨c, h⟩)
       · exact .inl h
       · exact .inr ⟨c, c.isLt, h⟩,
   h.bytes, h.params, h.initialised, h.rom, h.dispMode, h.nestedIrqEnabled, h.window, h.script⟩

/-- A strobe that can serve every channel completes, one turn after another. -/
theorem eachChannel_completes {serves : Handler → Option Width} {f : Channel → State → Answer} (hf : Serves serves f) {s : State} (hs : s.canServe serves) :
    ∃ t1 t2 t3 t, f 0 s = .next t1 ∧ f 1 t1 = .next t2 ∧ f 2 t2 = .next t3 ∧ f 3 t3 = .next t ∧ eachChannel f s = .next t ∧ ServedUpTo serves s 4 t := by
  obtain ⟨t1, h1, p1⟩ := ServedUpTo.step hf (by decide) hs (ServedUpTo.zero serves s)
  obtain ⟨t2, h2, p2⟩ := ServedUpTo.step hf (by decide) hs p1
  obtain ⟨t3, h3, p3⟩ := ServedUpTo.step hf (by decide) hs p2
  obtain ⟨t4, h4, p4⟩ := ServedUpTo.step hf (by decide) hs p3
  refine ⟨t1, t2, t3, t4, h1, h2, h3, h4, ?_, p4⟩
  have h1 : f 0 s = .next t1 := h1
  have h2 : f 1 t1 = .next t2 := h2
  have h3 : f 2 t2 = .next t3 := h3
  have h4 : f 3 t3 = .next t4 := h4
  unfold eachChannel
  rw [h1, andThen_next, h2, andThen_next, h3, andThen_next, h4]

/-! ### Interrupts and cursors over a strobe and over the end of a window -/

/-- The pending mask bit by bit. -/
theorem pendingAfter_getLsbD (m : BitVec 16) (c : Channel) (i : Bool) (b : Nat) : (pendingAfter m c i).getLsbD b = true ↔ (m.getLsbD b = true ∨ (b = 8 + c.val ∧ i = true)) := by
  unfold pendingAfter
  cases i
  · simp
  · simp only [if_true, and_true]; exact raise_bit _ _ _

/-- The end of a window raises channel 3's interrupt where its control word asks for it. -/
theorem finishWindow_irqPending {t : Window} {s r : State} (h : finishWindow t s = .next r) : r.irqPending = pendingAfter s.irqPending 3 (ctlIrq t.control) := by
  rw [finishWindow_eq] at h
  obtain ⟨u, hu, hr⟩ := andThen_eq_next.1 h
  cases hr
  obtain ⟨f, -⟩ := moveFrom_next hu
  rw [State.completeImm_eq _ 3 t.control 0#32 _ 0#32 _ .inc]
  show pendingAfter u.irqPending _ _ = _
  rw [f.irqPending]

/-- Which pending bits a completed strobe leaves set. -/
theorem eachChannel_irqPending {serves : Handler → Option Width} {f : Channel → State → Answer} (hf : Serves serves f) {s t : State} (h : eachChannel f s = .next t) :
    ∀ b, t.irqPending.getLsbD b = true ↔ (s.irqPending.getLsbD b = true ∨
      ∃ c : Channel, b = 8 + c.val ∧ (serves (s.chan c).handler).isSome = true ∧ ctlIrq (s.slots c).ctrl = true) := by
  obtain ⟨t1, t2, t3, h1, h2, h3, h4⟩ := eachChannel_eq_next h
  have one : ∀ {c s t}, f c s = .next t → ∀ b, t.irqPending.getLsbD b = true ↔ (s.irqPending.getLsbD b = true ∨ (b = 8 + c.val ∧ (serves (s.chan c).handler).isSome = true ∧ ctlIrq (s.slots c).ctrl = true)) := by
    intro c s t h b
    rcases hf.cases h with ⟨hn, rfl⟩ | ⟨w, hw, hp⟩
    · simp [hn]
    · obtain ⟨ss, -, -, -, hi⟩ := periodic_channel hp
      rw [hi, pendingAfter_getLsbD, hw]; simp
  have f1 := hf.frame h1
  have f2 := hf.frame h2
  have f3 := hf.frame h3
  intro b
  rw [one h4, one h3, one h2, one h1]
  rw [f3.chans 3 (by decide), f3.ctrl 3 (by decide), f2.chans 3 (by decide), f2.ctrl 3 (by decide), f1.chans 3 (by decide), f1.ctrl 3 (by decide),
    f2.chans 2 (by decide), f2.ctrl 2 (by decide), f1.chans 2 (by decide), f1.ctrl 2 (by decide), f1.chans 1 (by decide), f1.ctrl 1 (by decide)]
  constructor
  · rintro ((((h | h) | h) | h) | h)
    · exact .inl h
    all_goals exact .inr ⟨_, h⟩
  · rintro (h | ⟨c, h⟩)
    · exact .inl (.inl (.inl (.inl h)))
    · match c with
      | 0 => exact .inl (.inl (.inl (.inr h)))
      | 1 => exact .inl (.inl (.inr h))
      | 2 => exact .inl (.inr h)
      | 3 => exact .inr h

/-- A strobe leaves the record of a channel it does not serve. -/
theorem eachChannel_chan_unserved {serves : Handler → Option Width} {f : Channel → State → Answer} (hf : Serves serves f) {s t : State} (h : eachChannel f s = .next t) (c : Channel) (hn : serves (s.chan c).handler = none) : t.chan c = s.chan c := by
  obtain ⟨t1, t2, t3, h1, h2, h3, h4⟩ := eachChannel_eq_next h
  have one : ∀ {d s t}, f d s = .next t → serves (s.chan c).handler = none → t.chan c = s.chan c := by
    intro d s t h hn
    by_cases hd : c = d
    · subst hd
      rcases hf.cases h with ⟨-, rfl⟩ | ⟨w, hw, hp⟩
      · rfl
      · rw [hn] at hw; cases hw
    · exact (hf.frame h).chans c hd
  have e1 := one h1 hn
  have e2 := one h2 (e1 ▸ hn)
  have e3 := one h3 (by rw [e2, e1]; exact hn)
  have e4 := one h4 (by rw [e3, e2, e1]; exact hn)
  rw [e4, e3, e2, e1]

/-- The end of a window leaves every other channel's record. -/
theorem finishWindow_chan_other {t : Window} {s r : State} (h : finishWindow t s = .next r) (c : Channel) (hc : c ≠ 3) : r.chan c = s.chan c := by
  rw [finishWindow_eq] at h
  obtain ⟨u, hu, hr⟩ := andThen_eq_next.1 h
  cases hr
  obtain ⟨f, -⟩ := moveFrom_next hu
  rw [State.completeImm_eq _ 3 t.control 0#32 _ 0#32 _ .inc]
  show (u.chans.set 3 _).get c = _
  rw [Quad.get_set_other _ hc, f.chans]; rfl

/-! ### The next line -/

@[simp] theorem ctlEn_withEn (v : Half) (e : Bool) : ctlEn (withEn v e) = e := by
  cases e <;> simp [withEn, ctlEn, clearEn]

/-- A line offered now is the one the next step serves. -/
theorem State.offerNow_step (s : State) (l : HostLine) : Machine.step (s.offerNow l) = serve l s := by
  have h : (s.offerNow l).offered = some (l, s) := by
    unfold State.offered State.offerNow
    dsimp only
    split
    · rfl
    · rename_i t ht
      rw [if_pos (by simp [Offer.due])]
  unfold Machine.step
  rw [h]

end Sys2Proof.Machine
end

