-- ==== Sys2Proof/Tests/Slice0.lean ====
section
/-! SUPPORT. The model's own tests. Expected values are those of 95_test_vectors.md (the vector's name stands in each docstring) or
are written out from the encodings of the operation rules; the second half shows states that meet the hypotheses of each statement. -/

namespace Sys2Proof.Tests

open Sys2Proof.Machine

/-! ### Small states and questions -/

/-- The answer is a next state of which the test holds. -/
def nextIs (o : Answer) (p : State → Bool) : Bool :=
  match o with
  | .next t => p t
  | .fault _ => false
  | .refused _ => false

/-- The answer is this refusal. -/
def refusedIs (o : Answer) (r : Refusal) : Bool :=
  match o with
  | .next _ => false
  | .fault _ => false
  | .refused q => decide (q = r)

/-- After `INIT`, with `TR` drawn as in section 2.5. -/
def base : State := { State.reset with tr := 0xDEADBEEF#32, trace := [] }

/-- 32-bit words stored from a guest address on. -/
def putWords (a : Word) : List Word → State → State
  | [], s => s
  | v :: rest, s => putWords (a + 4#32) rest (s.backWrite (s.xlate a) .w32 v)

/-- 16-bit half-words stored from a guest address on. -/
def putHalves (a : Word) : List Half → State → State
  | [], s => s
  | v :: rest, s => putHalves (a + 2#32) rest (s.backWrite (s.xlate a) .w16 (v.zeroExtend 32))

/-- The words at a guest address. -/
def words (s : State) (a : Word) : Nat → List Word
  | 0 => []
  | n + 1 => s.backRead (s.xlate a) .w32 :: words s (a + 4#32) n

/-- The half-words at a guest address. -/
def halves (s : State) (a : Word) : Nat → List Word
  | 0 => []
  | n + 1 => s.backRead (s.xlate a) .w16 :: halves s (a + 2#32) n

/-- A channel's slots set, the control slot apart. -/
def slots (c : Channel) (src dst : Word) (n : Half) (s : State) : State :=
  s.setSlots c { s.slots c with sad := src, dad := dst, cnt := n }

/-- A channel armed as a start leaves it. -/
def armed (c : Channel) (src dst : Word) (n ctrl : Half) (h : Handler) (s : State) : State :=
  let s := s.setSlots c { sad := src, dad := dst, cnt := n, ctrl := ctrl }
  let s := s.setChan c { src := src, dst := dst, handler := h, hb := decide (h ≠ .audioTrigger), au := decide (h = .audioTrigger) }
  { s.updateSharedEnables with trace := s.trace }

/-- The cursors of a channel. -/
def cursors (s : State) (c : Channel) : Word × Word := ((s.chan c).src, (s.chan c).dst)

/-! ### WellFormed: an ill-formed term for each check -/

theorem test_illformed_upd0 : ¬ (Instr.ctrlUpd0 0 0x8000#16).WellFormed := by decide
theorem test_illformed_upd1 : ¬ (Instr.ctrlUpd1 0 0x7FFF#16).WellFormed := by decide
theorem test_illformed_stop : ¬ (Instr.ctrlStop 3 0xFFFF#16).WellFormed := by decide
theorem test_illformed_xreq : ¬ (Instr.startXreq 0 0x8000#16).WellFormed ∧ ¬ (Instr.startXreq 0 0x0800#16).WellFormed := by decide
theorem test_illformed_imm : ¬ (Instr.startImm 0 0x8800#16).WellFormed ∧ ¬ (Instr.startImm 0 0x9000#16).WellFormed := by decide
theorem test_illformed_vbl : ¬ (Instr.startVbl 0 0x8000#16).WellFormed := by decide
theorem test_illformed_hbl : ¬ (Instr.startHbl 0 0xB000#16).WellFormed := by decide
theorem test_illformed_spc0 : ¬ (Instr.startSpc0 0xB800#16).WellFormed := by decide
theorem test_illformed_aud1 : ¬ (Instr.startAud1 0x3000#16).WellFormed := by decide
theorem test_illformed_aud2 : ¬ (Instr.startAud2 0xA000#16).WellFormed := by decide
theorem test_illformed_spc3 : ¬ (Instr.startSpc3 0x9000#16).WellFormed := by decide

/-! ### Decoding (section 2.1) -/

/-- DC1, DC2. -/
theorem test_decode_upd0 :
    decodeTableWord 24 0x00000 = some (.ctrlUpd0 0 0x0000#16) ∧ decodeTableWord 24 0x07FFF = some (.ctrlUpd0 0 0x7FFF#16) := by decide
/-- DC3, DC4. -/
theorem test_decode_upd1 :
    decodeTableWord 24 0x58000 = some (.ctrlUpd1 2 0x8000#16) ∧ decodeTableWord 24 0x5FFFF = some (.ctrlUpd1 2 0xFFFF#16) := by decide
/-- DC5, DC6. -/
theorem test_decode_stop :
    decodeTableWord 24 0x30000 = some (.ctrlStop 1 0x0000#16) ∧ decodeTableWord 24 0x77FFF = some (.ctrlStop 3 0x7FFF#16) := by decide
/-- DC7, DC8 (the external-request test precedes the timing), DC9. -/
theorem test_decode_xreq :
    decodeTableWord 24 0x08800 = some (.startXreq 0 0x8800#16) ∧ decodeTableWord 24 0x2B800 = some (.startXreq 1 0xB800#16) ∧
    decodeTableWord 24 0x6FFFF = some (.startXreq 3 0xFFFF#16) := by decide
/-- DC10, DC11 (bits 4:0 are carried), DC12. -/
theorem test_decode_imm :
    decodeTableWord 24 0x08000 = some (.startImm 0 0x8000#16) ∧ decodeTableWord 24 0x0801F = some (.startImm 0 0x801F#16) ∧
    decodeTableWord 24 0x6C7FF = some (.startImm 3 0xC7FF#16) := by decide
/-- DC13. -/
theorem test_decode_vbl : decodeTableWord 24 0x49000 = some (.startVbl 2 0x9000#16) := by decide
/-- DC14. -/
theorem test_decode_hbl : decodeTableWord 24 0x2A000 = some (.startHbl 1 0xA000#16) := by decide
/-- DC15. -/
theorem test_decode_spc0 : decodeTableWord 24 0x0B000 = some (.startSpc0 0xB000#16) := by decide
/-- DC16. -/
theorem test_decode_aud1 : decodeTableWord 24 0x2B000 = some (.startAud1 0xB000#16) := by decide
/-- DC17. -/
theorem test_decode_aud2 : decodeTableWord 24 0x4B000 = some (.startAud2 0xB000#16) := by decide
/-- DC18. -/
theorem test_decode_spc3 : decodeTableWord 24 0x6B000 = some (.startSpc3 0xB000#16) := by decide
/-- DC19, DC20: no control slot. -/
theorem test_decode_address : decodeRa 0x040000B8#32 = .error .notAControlSlot ∧ decodeRa 0x040000EA#32 = .error .notAControlSlot :=
  ⟨rfl, rfl⟩
/-- DC21: no strobe or two. -/
theorem test_decode_vector : decodeTableWord 8 0b0000 = none ∧ decodeTableWord 8 0b0110 = none := by decide
/-- Rule R95: the four strobes. -/
theorem test_decode_strobes :
    decodeTableWord 8 1 = some .init ∧ decodeTableWord 8 2 = some .trigVblank ∧ decodeTableWord 8 4 = some .trigHblank ∧
    decodeTableWord 8 8 = some .trigAudio := by decide
/-- Section 2.1, control words from names, and the lines of `DMASET` (rule R112). -/
theorem test_names :
    controlWord ["EN", "T_HBL", "REP", "D_RLD"] = 0xA260#16 ∧ controlWord ["EN", "T_SPC", "W32", "REP", "D_FIX"] = 0xB640#16 ∧
    controlWord ["EN", "W32", "S_DEC", "D_FIX"] = 0x84C0#16 ∧
    dmaSet 1 0x03000100#32 0x040000A0#32 4#16 0xB640#16 =
      [.sadw 1 0x03000100#32, .dadw 1 0x040000A0#32, .cntw 1 4#16, .cmd 0x040000C6#32 0xB640#16] := by decide

/-! ### Translation and eligibility (sections 2.2, 2.3) -/

/-- T2, T9, T13, T16, T20, T22, T32, T44. -/
theorem test_xlate :
    let x := fun (m : BitVec 3) (a : Word) => xlate Config.Params.testInstantiation m a
    x 0 0x02FC1234#32 = 0x02001234#32 ∧ x 0 0x03FFFFFC#32 = 0x03007FFC#32 ∧ x 0 0x05FFFFFE#32 = 0x050003FE#32 ∧
    x 0 0x07000400#32 = 0x07000000#32 ∧ x 0 0x06010000#32 = 0x06400000#32 ∧ x 3 0x06010000#32 = 0x06010000#32 ∧
    x 0 0x06030000#32 = 0x06400000#32 ∧ x 0 0xFFFFFFFE#32 = 0xFFFFFFFE#32 := by decide

/-- E9, E10, E16, E20, E22, E29, E31. -/
theorem test_elig :
    let e := fun (a b : Word) (ds : StepDir) (n : Nat) => elig State.reset a b .inc ds n .w32
    e 0x03000000#32 0x0203FFF0#32 .inc 4 = true ∧ e 0x03000000#32 0x0203FFF0#32 .inc 5 = false ∧
    e 0x02FFFFFC#32 0x03000100#32 .inc 2 = false ∧ e 0x02000000#32 0x0200001C#32 .inc 4 = false ∧
    e 0x02000000#32 0x02000020#32 .inc 4 = true ∧ e 0x03000000#32 0x06013FFC#32 .inc 2 = false ∧
    e 0x03000000#32 0x02040000#32 .dec 0x8001 = true := by decide

/-- A destination that straddles the whole bank window passes the two end tests of rule R146 though its middle is not linear
(log entry 14): the element-wise transfer, which the operations use, stores the middle word in the bank. -/
theorem test_straddled_bank :
    let s := putWords 0x03000000#32 [1#32, 2#32, 3#32]
      { base with params := { Config.Params.testInstantiation with vbankHi := 0x06010004#32 } }
    elig s 0x03000000#32 0x0600FFFC#32 .inc .inc 3 .w32 = true ∧
    nextIs (xfer 0x03000000#32 0x0600FFFC#32 3 .inc .inc .w32 s) (fun t =>
      decide (t.backRead 0x0600FFFC#32 .w32 = 1#32 ∧ t.backRead 0x06400000#32 .w32 = 2#32 ∧ t.backRead 0x06010004#32 .w32 = 3#32 ∧
        t.backRead 0x06010000#32 .w32 = 0#32)) = true := by decide

/-- A destination from palette RAM into the bank passes the test of the two ends of rule R146 though its middle element, in video RAM
below the bank, is not linear (log entry 14): the run leaves its selector, which rule R130 asks it to stay in. -/
theorem test_palette_run_into_the_bank :
    let s := { base with params := { Config.Params.testInstantiation with
      vbankLo := 0x06000004#32, vbankHi := 0x06000008#32, vbankOffTile := 0xFF000400#32 } }
    s.params.ok = true ∧ elig s 0x02000000#32 0x05FFFFFC#32 .inc .inc 3 .w32 = true ∧
    s.xlate 0x06000000#32 = 0x06000000#32 ∧ s.xlate 0x05FFFFFC#32 + 4#32 = 0x05000400#32 ∧
    sel (adv 0x05FFFFFC#32 2 .w32 .inc) ≠ sel 0x05FFFFFC#32 := by decide

/-! ### Transfers (section 2.4) -/

/-- X5: forward overlap. -/
theorem test_xfer_overlap :
    nextIs (xfer 0x02000000#32 0x02000004#32 4 .inc .inc .w32
      (putWords 0x02000000#32 [0x11111111#32, 0x22222222#32, 0x33333333#32, 0x44444444#32, 0x55555555#32] base))
      (fun t => decide (words t 0x02000000#32 5 = List.replicate 5 0x11111111#32 ∧ t.tr = 0x11111111#32)) = true := by decide

/-- X15: an unreadable element takes `TR`. -/
theorem test_xfer_unreadable :
    nextIs (xfer 0x02000000#32 0x03000000#32 2 .dec .inc .w32 (putWords 0x02000000#32 [0x0BADF00D#32] base))
      (fun t => decide (words t 0x03000000#32 2 = [0x0BADF00D#32, 0x0BADF00D#32])) = true := by decide

/-- Byte order: section 2.4, last paragraph. -/
theorem test_byte_order :
    nextIs (xfer 0x02000000#32 0x03000000#32 2 .inc .inc .w16 (putHalves 0x02000000#32 [0x2211#16, 0x4433#16] base))
      (fun t => decide (t.mem.drop 4 = [(0x03000000, 0x11#8), (0x03000001, 0x22#8), (0x03000002, 0x33#8), (0x03000003, 0x44#8)] ∧
        t.tr = 0x44334433#32)) = true := by decide

/-! ### One step of each operation (sections 2.5 to 2.8) -/

/-- K1. -/
theorem test_step_upd0 :
    nextIs (step (base.offerNow (.cmd 0x040000BA#32 0x0440#16))) (fun t =>
      decide ((t.slots 0).ctrl = 0x0440#16 ∧ t.chans = base.chans ∧ t.trace = [])) = true := by decide

/-- K2, second line: nothing is re-armed although `WIDTH` changes. -/
theorem test_step_upd1 :
    nextIs (step ((armed 0 0x02001000#32 0x05000000#32 0#16 0xA200#16 .blankingTrigger16 base).offerNow
      (.cmd 0x040000BA#32 0xE600#16))) (fun t =>
      decide ((t.slots 0).ctrl = 0xE600#16 ∧ cursors t 0 = (0x02001000#32, 0x05000000#32) ∧
        (t.chan 0).handler = .blankingTrigger16 ∧ t.blankingIrqEnabled = true)) = true := by decide

/-- K4, lines 3 and 4: a sibling keeps the level, the last holder lowers it. -/
theorem test_step_stop :
    let s := armed 3 0x03000000#32 0x06000000#32 0#16 0xA600#16 .blankingTrigger32 base
    nextIs (step ((armed 0 0x02001000#32 0x05000000#32 0#16 0xA200#16 .blankingTrigger16 s).offerNow
      (.cmd 0x040000BA#32 0x2200#16))) (fun t =>
        decide ((t.chan 0).handler = .inactive ∧ (t.slots 0).ctrl = 0x2200#16 ∧ cursors t 0 = (0x02001000#32, 0x05000000#32) ∧
          t.blankingIrqEnabled = true)) = true ∧
    nextIs (step (s.offerNow (.cmd 0x040000DE#32 0x0000#16))) (fun t => decide (t.blankingIrqEnabled = false)) = true := by decide

/-- K5. -/
theorem test_step_xreq :
    nextIs (step ((slots 3 0x02000000#32 0x03000000#32 4#16 base).offerNow (.cmd 0x040000DE#32 0x8800#16))) (fun t =>
      decide ((t.slots 3).ctrl = 0x8800#16 ∧ (t.chan 3) = Chan.reset ∧ t.trace = [])) = true := by decide

/-- S9, the document's worked example. -/
theorem test_step_imm :
    nextIs (step ((slots 0 0x02000000#32 0x06000000#32 4#16
        (putHalves 0x02000000#32 [0x1111#16, 0x2222#16, 0x3333#16, 0x4444#16] base)).offerNow (.cmd 0x040000BA#32 0x8000#16)))
      (fun t => decide (halves t 0x06000000#32 5 = [0x1111#32, 0x2222#32, 0x3333#32, 0x4444#32, 0#32] ∧
        cursors t 0 = (0x02000008#32, 0x06000008#32) ∧ t.tr = 0x44444444#32 ∧ (t.slots 0).ctrl = 0#16 ∧
        t.trace = [.icInvalidate 0x06000000#32 0x06000007#32])) = true := by decide

/-- K9: a rebased source. -/
theorem test_step_imm_rebased :
    nextIs (step ((slots 0 0x02200010#32 0x02000000#32 1#16
        { base with rom := [(0x08000010, 0x10#8), (0x08000011, 0x11#8), (0x08000012, 0x12#8), (0x08000013, 0x13#8)] }).offerNow
        (.cmd 0x040000BA#32 0xC400#16)))
      (fun t => decide (words t 0x02000000#32 1 = [0x13121110#32] ∧ cursors t 0 = (0x08000014#32, 0x02000004#32) ∧
        t.irqPending = 0x0100#16)) = true := by decide

/-- K6. -/
theorem test_step_vbl :
    nextIs (step (base.offerNow (.cmd 0x040000D2#32 0x9000#16))) (fun t =>
      decide ((t.slots 2).ctrl = 0x9000#16 ∧ t.chans = base.chans ∧ t.blankingIrqEnabled = false)) = true := by decide

/-- K14: the edges of the rebasing window. -/
theorem test_step_hbl :
    [(0x021FFFFE#32, true), (0x02200000#32, false), (0x023FFFFE#32, false), (0x02400000#32, true), (0x07FFFFFE#32, true)].all
      (fun (p : Word × Bool) =>
        nextIs (step ((slots 0 p.1 0x05000000#32 1#16 base).offerNow (.cmd 0x040000BA#32 0xA200#16))) (fun t =>
          decide ((t.chan 0).handler = .blankingTrigger16) == p.2 && t.blankingIrqEnabled == p.2)) = true := by decide

/-- K18. -/
theorem test_step_spc0 :
    nextIs (step (base.offerNow (.cmd 0x040000BA#32 0xB000#16))) (fun t =>
      decide ((t.slots 0).ctrl = 0xB000#16 ∧ t.chans = base.chans)) = true := by decide

/-- K18. -/
theorem test_step_spc3 :
    nextIs (step (base.offerNow (.cmd 0x040000DE#32 0xB000#16))) (fun t =>
      decide ((t.slots 3).ctrl = 0xB000#16 ∧ t.chans = base.chans ∧ t.window = none)) = true := by decide

/-- K16. -/
theorem test_step_aud1 :
    nextIs (step ((slots 1 0x03000100#32 0x040000A0#32 4#16 { base with drainRequest := true }).offerNow
      (.cmd 0x040000C6#32 0xB640#16))) (fun t =>
      decide (cursors t 1 = (0x03000100#32, 0x040000A0#32) ∧ (t.chan 1).handler = .audioTrigger ∧ (t.chan 1).au = true ∧
        t.drainRequest = false ∧ t.forcedIrqMask = 2 ∧ t.blankingIrqEnabled = false)) = true := by decide

/-- K17: a cartridge source is dropped and the flag stays. -/
theorem test_step_aud2 :
    nextIs (step ((slots 2 0x08000000#32 0x040000A4#32 4#16 { base with drainRequest := true }).offerNow
      (.cmd 0x040000D2#32 0xB640#16))) (fun t =>
      decide ((t.slots 2).ctrl = 0xB640#16 ∧ t.chans = base.chans ∧ t.drainRequest = true ∧ t.forcedIrqMask = 0)) = true := by decide

/-- I3: two armed channels; the control slots stay enabled. -/
theorem test_step_init :
    nextIs (step ((armed 1 0#32 0#32 0#16 0xB640#16 .audioTrigger
        (armed 0 0#32 0#32 0#16 0xA200#16 .blankingTrigger16 base)).offerNow (.ev 0b0001#4))) (fun t =>
      decide (t.chans = Quad.all Chan.reset ∧ t.forcedIrqMask = 0 ∧ t.blankingIrqEnabled = false ∧
        (t.slots 0).ctrl = 0xA200#16 ∧ (t.slots 1).ctrl = 0xB640#16)) = true := by decide

/-- I1, I2: before the first `INIT`, a `CMD` is refused and `INIT` completes. -/
theorem test_step_before_init :
    refusedIs (step (State.beforeInit.offerNow (.cmd 0x040000BA#32 0x8000#16))) .notInitialised = true ∧
    nextIs (step (State.beforeInit.offerNow (.ev 0b0001#4))) (fun t => decide (t = State.reset)) = true := by decide

/-- TG3, `VBLANK`. -/
theorem test_step_vblank : nextIs (step (base.offerNow (.ev 0b0010#4))) (fun t => decide (t = base)) = true := by decide

/-- TG1. -/
theorem test_step_hblank :
    nextIs (step ((armed 0 0x02001000#32 0x05000000#32 1#16 0xA240#16 .blankingTrigger16
        (armed 3 0x03000000#32 0x06000000#32 2#16 0xE400#16 .blankingTrigger32
          (putHalves 0x02001000#32 [0x0A00#16] (putWords 0x03000000#32 [0xB0000001#32, 0xB0000002#32] base)))).offerNow
        (.ev 0b0100#4))) (fun t =>
      decide (halves t 0x05000000#32 1 = [0x0A00#32] ∧ cursors t 0 = (0x02001002#32, 0x05000000#32) ∧
        words t 0x06000000#32 2 = [0xB0000001#32, 0xB0000002#32] ∧ cursors t 3 = (0x03000008#32, 0x06000008#32) ∧
        t.irqPending = 0x0800#16 ∧ (t.slots 3).ctrl = 0x6400#16 ∧ (t.chan 3).handler = .inactive ∧
        t.blankingIrqEnabled = true ∧ t.tr = 0xB0000002#32)) = true := by decide

/-- TG7: the width stays 16 from the tag. TG8: source control 3 is refused at the strobe. -/
theorem test_step_hblank_width :
    nextIs (step ((armed 0 0x02000000#32 0x03000000#32 1#16 0xA600#16 .blankingTrigger16
        (putWords 0x02000000#32 [0x89ABCDEF#32] base)).offerNow (.ev 0b0100#4))) (fun t =>
      decide (words t 0x03000000#32 1 = [0x0000CDEF#32] ∧ t.tr = 0xCDEFCDEF#32)) = true ∧
    refusedIs (step ((armed 0 0x02000000#32 0x05000000#32 1#16 0xA380#16 .blankingTrigger16 base).offerNow (.ev 0b0100#4)))
      .srcCtlIllegal = true := by decide

/-- TG13: the request observed, cleared, and one refill. -/
theorem test_step_audio :
    nextIs (step ((armed 1 0x03000100#32 0x040000A0#32 2#16 0xB640#16 .audioTrigger
        (putWords 0x03000100#32 [0xF1F00000#32, 0xF1F00001#32] { base with drainRequest := true })).offerNow (.ev 0b1000#4)))
      (fun t => decide (t.drainRequest = false ∧ cursors t 1 = (0x03000108#32, 0x040000A0#32) ∧ t.tr = 0xF1F00001#32 ∧
        (t.chan 1).handler = .audioTrigger ∧
        t.trace = [.icInvalidate 0x040000A0#32 0x040000A3#32, .devWrite 0x040000A0#32 .w32 0xF1F00001#32,
          .devWrite 0x040000A0#32 .w32 0xF1F00000#32, .releaseDrain, .acquireDrain])) = true := by decide

/-- TG14: no audio-armed channel, so the flag stays. -/
theorem test_step_audio_unarmed :
    nextIs (step ({ base with drainRequest := true }.offerNow (.ev 0b1000#4))) (fun t => decide (t.drainRequest = true)) = true := by
  decide

/-! ### The nesting window (section 2.7) -/

/-- Channel 3 about to start two words, with a line offered for the window before element 1. -/
def beforeWindow (l : HostLine) : State :=
  { slots 3 0x03000000#32 0x02000100#32 2#16 (putWords 0x03000000#32 [0xD0000001#32, 0xD0000002#32] base) with
    script := [⟨none, .cmd 0x040000DE#32 0x8400#16⟩, ⟨some 1, l⟩] }

/-- The window open with element 0 moved and a line still offered for it, as NW2 describes it. -/
def inWindow (l : HostLine) : State :=
  match step (beforeWindow l) with
  | .next s =>
    (match step s with
     | .next t => t
     | .fault _ => base
     | .refused _ => base)
  | .fault _ => base
  | .refused _ => base

/-- NW2: at the strobe the host sees element 0 written, element 1 not yet, the cursors final, the channel enabled. -/
theorem test_window_open :
    let t := inWindow (.ev 0b0100#4)
    words t 0x02000100#32 2 = [0xD0000001#32, 0#32] ∧ cursors t 3 = (0x03000008#32, 0x02000108#32) ∧ (t.slots 3).ctrl = 0x8400#16 ∧
    (t.chan 3).handler = .inactive ∧ t.nestedIrqEnabled = true := by decide

/-- NW1: with nothing more offered the step ends the transfer and restores the policy. -/
theorem test_window_close :
    nextIs (step { inWindow .look with script := [] }) (fun t =>
      decide (words t 0x02000100#32 2 = [0xD0000001#32, 0xD0000002#32] ∧ t.nestedIrqEnabled = false ∧ t.window = none ∧
        (t.slots 3).ctrl = 0x0400#16 ∧ t.tr = 0xD0000002#32)) = true := by decide

/-- NW3, NW4, NW5. -/
theorem test_window_refusals :
    refusedIs (step (inWindow (.cmd 0x040000DE#32 0x0000#16))) .nestedChannel3 = true ∧
    refusedIs (step (inWindow (.ev 0b0001#4))) .initInWindow = true ∧
    refusedIs (step (inWindow (.dispMode 3))) .windowStep = true ∧
    refusedIs (step (inWindow (.memw32 0x03000004#32 0#32))) .windowStep = true := by decide

/-! ### The host (rules R300, R301) -/

/-- A 32-bit store over count and control is split; a byte store that changes bit 15 is refused; a transfer onto a control half-word
is refused. -/
theorem test_host_stores :
    nextIs (step (base.offerNow (.memw32 0x040000B8#32 0x88000007#32))) (fun t =>
      decide ((t.slots 0).cnt = 7#16 ∧ (t.slots 0).ctrl = 0x8800#16)) = true ∧
    refusedIs (step (base.offerNow (.memw8 0x040000BB#32 0x80#8))) .controlByteStore = true ∧
    refusedIs (xfer 0x02000000#32 0x040000BA#32 1 .inc .inc .w16 base) .controlSlotWrite = true := by decide

/-! ### Witnesses: for each statement with hypotheses, states and operands that meet them, at the boundaries of each clause -/

theorem test_witness_DecodeOfEncodeIsTheInstruction :
    (Instr.startAud1 0xB7FF#16).WellFormed ∧ (Instr.ctrlUpd0 3 0x7FFF#16).WellFormed ∧ Instr.trigAudio.WellFormed := by decide

theorem test_witness_EncodeOfDecodeIsTheWord :
    decodeOp (.dw 0x6C7FF#19) = .ok (.startImm 3 0xC7FF#16) ∧ decodeOp (.ev 0b1000#4) = .ok .trigAudio := ⟨rfl, rfl⟩

theorem test_witness_DecodingFollowsTheOrderOfRuleR102 :
    ctlEn 0x7FFF#16 = false ∧ ctlEn 0x8000#16 = true ∧ (ctlEn 0xFFFF#16 = true ∧ ctlXreq 0xFFFF#16 = true) ∧
    (ctlEn 0x87FF#16 = true ∧ ctlXreq 0x87FF#16 = false ∧ ctlTiming 0x87FF#16 = 0#2) ∧
    (ctlEn 0x9000#16 = true ∧ ctlXreq 0x9000#16 = false ∧ ctlTiming 0x9000#16 = 1#2) ∧
    (ctlEn 0xA000#16 = true ∧ ctlXreq 0xA000#16 = false ∧ ctlTiming 0xA000#16 = 2#2) ∧
    (ctlEn 0xF7FF#16 = true ∧ ctlXreq 0xF7FF#16 = false ∧ ctlTiming 0xF7FF#16 = 3#2) := by decide

theorem test_witness_EventVectorsAreOneHot :
    (0b0000#4 ≠ 0b0001#4 ∧ 0b0000#4 ≠ 0b0010#4 ∧ 0b0000#4 ≠ 0b0100#4 ∧ 0b0000#4 ≠ 0b1000#4) ∧
    (0b1111#4 ≠ 0b0001#4 ∧ 0b1111#4 ≠ 0b0010#4 ∧ 0b1111#4 ≠ 0b0100#4 ∧ 0b1111#4 ≠ 0b1000#4) := by decide

theorem test_witness_RegisterAddressSelectsTheChannel :
    decodeRa 0x040000BA#32 = .ok 0 ∧ decodeRa 0x040000DE#32 = .ok 3 ∧ decodeRa 0x040000B9#32 = .error .notAControlSlot ∧
    decodeRa 0x040000EA#32 = .error .notAControlSlot ∧ decodeRa 0xFFFFFFFF#32 = .error .notAControlSlot := ⟨rfl, rfl, rfl, rfl, rfl⟩

theorem test_witness_StepsAndWidthOfAControlWord :
    (0xFF9F#16).extractLsb' 5 2 = 0#2 ∧ (0xFFBF#16).extractLsb' 5 2 = 1#2 ∧ (0xFFDF#16).extractLsb' 5 2 = 2#2 ∧
    (0xFFFF#16).extractLsb' 5 2 = 3#2 ∧ (0xFE7F#16).extractLsb' 7 2 = 0#2 ∧ (0xFEFF#16).extractLsb' 7 2 = 1#2 ∧
    (0xFF7F#16).extractLsb' 7 2 = 2#2 ∧ (0xFFFF#16).extractLsb' 7 2 = 3#2 := by decide

theorem test_witness_CursorArithmeticAndCount :
    ((3 : Channel) = 3 ∧ (0#16) = 0#16) ∧ ¬ ((0 : Channel) = 3 ∧ (0#16) = 0#16) ∧ ¬ ((3 : Channel) = 3 ∧ (0xFFFF#16) = 0#16) := by
  decide

/-- The test instantiation meets the constraints of rule R9. -/
theorem test_params_ok : Config.Params.testInstantiation.ok = true := by decide

/-- Rule R9 bounds neither the two bit indices nor the block size: an h-blank start drives the blanking bit wherever it is, and every
ROM address lies in the one block of a block size beyond the address space. -/
theorem test_open_parameters :
    let p := { Config.Params.testInstantiation with forcedBlankBit := 40, forcedAudioBit := 3, blockBits := 40 }
    let s := { base with params := p, forcedIrqMask := 9, rom := [(0x08000010, 0x10#8), (0x08000011, 0x11#8)] }
    p.ok = true ∧
    nextIs (step ((slots 0 0x02000000#32 0x05000000#32 1#16 s).offerNow (.cmd 0x040000BA#32 0xA200#16)))
      (fun t => decide (t.forcedIrqMask = 2 ^ 40 + 1)) = true ∧
    (s.romElem 0x08000010#32 .w16).1 = 0x1110#32 ∧ (s.romElem 0x08000010#32 .w16).2.block = some 0#32 := by decide

theorem test_witness_RebaseLandsInRomAndSuchSourcesAreRejected :
    let p := Config.Params.testInstantiation
    p.ok = true ∧ (p.rebaseLo ≤ 0x02200000#32 ∧ 0x02200000#32 < p.rebaseHi) ∧ (p.rebaseLo ≤ 0x023FFFFF#32 ∧ 0x023FFFFF#32 < p.rebaseHi) ∧
    ¬ (p.rebaseLo ≤ 0x021FFFFF#32 ∧ 0x021FFFFF#32 < p.rebaseHi) ∧ ¬ (p.rebaseLo ≤ 0x02400000#32 ∧ 0x02400000#32 < p.rebaseHi) := by decide

theorem test_witness_TranslationIsModuloTheCanonicalSize :
    let p := Config.Params.testInstantiation
    let v := fun a : Word => 0x06000000 + a.toNat % 0x20000
    sel 0x02FFFFFF#32 = 0x02#8 ∧ sel 0x03FFFFFF#32 = 0x03#8 ∧ sel 0x05FFFFFF#32 = 0x05#8 ∧ sel 0x07000400#32 = 0x07#8 ∧
    (sel 0x06010000#32 = 0x06#8 ∧ p.vbankLo.toNat ≤ v 0x06010000#32 ∧ v 0x06013FFF#32 < p.vbankHi.toNat) ∧
    (sel 0x0600FFFF#32 = 0x06#8 ∧ ¬ p.vbankLo.toNat ≤ v 0x0600FFFF#32 ∧ ¬ v 0x06014000#32 < p.vbankHi.toNat) ∧
    (sel 0xFFFFFFFF#32 ≠ 0x02#8 ∧ sel 0xFFFFFFFF#32 ≠ 0x03#8 ∧ sel 0xFFFFFFFF#32 ≠ 0x05#8 ∧ sel 0xFFFFFFFF#32 ≠ 0x06#8 ∧
      sel 0xFFFFFFFF#32 ≠ 0x07#8) := by decide

theorem test_witness_MirrorsCollapseAndTranslationIsIdempotent :
    sel 0x02FC1234#32 = 0x02#8 ∧ sel 0x03008000#32 = 0x03#8 ∧ sel 0x05FFFFFE#32 = 0x05#8 ∧ sel 0x07000400#32 = 0x07#8 ∧
    sel 0x06FF0002#32 = 0x06#8 ∧ sel 0x04000000#32 ≠ 0x06#8 := by decide

theorem test_witness_TranslationIsLinearInsideACanonicalRange :
    let p := Config.Params.testInstantiation
    ((region 0x02FC0000#32).plain = true ∧ (0x02FC0000#32).toNat / 2 ^ 24 = ((0x02FC0000#32).toNat + 0x3FFFF) / 2 ^ 24 ∧
      region 0x02FC0000#32 ≠ .vram ∧ (0x02FC0000#32).toNat % canonicalSize (region 0x02FC0000#32) + 0x3FFFF < canonicalSize (region 0x02FC0000#32)) ∧
    ((region 0x06010000#32).plain = true ∧ (0x06010000#32).toNat / 2 ^ 24 = ((0x06010000#32).toNat + 0x3FFF) / 2 ^ 24 ∧
      region 0x06010000#32 = .vram ∧ (0x06010000#32).toNat % 0x20000 + 0x3FFF < 0x20000 ∧
      (0x06000000 + (0x06010000#32).toNat % 0x20000 < p.vbankLo.toNat ↔
        0x06000000 + (0x06010000#32).toNat % 0x20000 + 0x3FFF < p.vbankLo.toNat) ∧
      (0x06000000 + (0x06010000#32).toNat % 0x20000 < p.vbankHi.toNat ↔
        0x06000000 + (0x06010000#32).toNat % 0x20000 + 0x3FFF < p.vbankHi.toNat)) ∧
    (region 0x06000000#32 = .vram ∧ (0x06000000#32).toNat % 0x20000 + 0x1FFFF < 0x20000 ∧ 3 ≤ (3#3).toNat ∧
      p.vbankOffBitmap = 0#32) := by decide

theorem test_witness_TranslationKeepsAlignment :
    Config.Params.testInstantiation.ok = true ∧ (0x06013FFE#32).toNat % 2 = 0 ∧ (0x06010000#32).toNat % 4 = 0 := by decide

theorem test_witness_CornerCasesOfTranslation :
    let p := Config.Params.testInstantiation
    0xFF01FFFF#32 ∈ [0xFF03FFFF#32, 0xFF007FFF#32, 0xFF0003FF#32, 0xFF01FFFF#32] ∧ sel 0x05FFFFFF#32 ≠ 0x06#8 ∧
    (sel 0x06014000#32 = 0x06#8 ∧ ¬ (p.vbankLo ≤ 0x06014000#32 &&& 0xFF01FFFF#32 ∧ 0x06014000#32 &&& 0xFF01FFFF#32 < p.vbankHi)) := by
  decide

/-- A machine with two words in fast RAM. -/
def twoWords : State := putWords 0x03000000#32 [0xB0000001#32, 0xB0000002#32] base

theorem test_twoWords_wf : twoWords.mem.wf := by decide

theorem test_witness_AWriteToAPlainRegionIsReadBack :
    twoWords.mem.wf ∧ (region 0x02FFFFFC#32).plain = true ∧ ¬ inBacking 0x02040000#32 (twoWords.xlate 0x02FFFFFC#32) .w32 := by decide

theorem test_witness_ElementsAreLittleEndian : twoWords.mem.wf ∧ 3 < Width.w32.bytes ∧ 1 < Width.w16.bytes := by decide

theorem test_witness_AccessesOutsidePlainRegions :
    region 0x01FFFFFE#32 = .openBus ∧ region 0x10000000#32 = .unmapped ∧ region 0x0DFFFFFE#32 = .rom ∧ region 0x0E000000#32 = .save ∧
    (region 0x040000AC#32 = .io ∧ coversByte isSlotByte 0x040000AC#32 .w32 = false) ∧
    (region 0x040000E0#32 = .io ∧ coversByte isSlotByte 0x040000E0#32 .w32 = false) := by decide

theorem test_witness_ARomElementIsReadFromOneBlock :
    State.reset.params.ok = true ∧ (0x080001FC#32).toNat % Width.w32.bytes = 0 ∧ (0x080001FE#32).toNat % Width.w16.bytes = 0 := by decide

theorem test_witness_RomAndParametersNeverChange : step State.reset = .next State.reset := rfl

theorem test_witness_ConditionsOfTheEligibilityCheck :
    ((0x0200001F#32).toNat < (0x02000000#32).toNat + 32 ∧ (0x02000000#32).toNat < (0x0200001F#32).toNat + 32) ∧
    elig State.reset 0x02000000#32 0x0203FFFE#32 .inc .fix 1 .w16 = true ∧ (1 < 2 ∧ 2 ≤ 0x10000) ∧ (1 < 0x10000 ∧ 0x10000 ≤ 0x10000) ∧
    StepDir.fix ≠ .inc ∧ StepDir.dec ≠ .inc := by decide

theorem test_witness_EligibleRunsAreLinearOutsideVideoRam :
    elig State.reset 0x03000000#32 0x0203FFF0#32 .inc .inc 4 .w32 = true ∧ region 0x0203FFF0#32 ≠ .vram ∧
    sel (adv 0x0203FFF0#32 3 .w32 .inc) = sel 0x0203FFF0#32 ∧
    ((region 0x03000000#32).plain = true ∧ region 0x03000000#32 ≠ .vram) ∧
    State.reset.xlate (adv 0x03000000#32 3 .w32 .inc) = State.reset.xlate 0x03000000#32 + BitVec.ofNat 32 (3 * Width.w32.bytes) := by decide

theorem test_witness_FastRamPathAgreesWithTheSafePath :
    twoWords.mem.wf ∧ pathOf twoWords 0x03000000#32 0x03000020#32 2 .inc .inc .w32 = .fastRam ∧
    twoWords.linearRun (alignDown 0x03000000#32 .w32) 2 .w32 ∧ twoWords.linearRun (alignDown 0x03000020#32 .w32) 2 .w32 ∧
    32 ≤ absDiff (twoWords.xlate (alignDown 0x03000020#32 .w32)) (twoWords.xlate (alignDown 0x03000000#32 .w32)) := by decide

theorem test_witness_FastRomPathAgreesWithTheSafePath :
    twoWords.params.ok = true ∧ twoWords.mem.wf ∧ pathOf twoWords 0x080001FC#32 0x02000000#32 2 .inc .inc .w32 = .fastRom ∧
    twoWords.linearRun (alignDown 0x02000000#32 .w32) 2 .w32 := by decide

theorem test_witness_OpenBusPassWritesThePattern :
    twoWords.params.ok = true ∧ twoWords.mem.wf ∧ alignDown 0x01FFFFFF#32 .w32 < 0x02000000#32 ∧
    (mkJob 0x01FFFFFF#32 0x0203FFFC#32 .dec .inc .w32 twoWords.tr).sparesControl 2 ∧
    (region (adv (alignDown 0x0203FFFC#32 .w32) 1 .w32 .inc)).plain = true ∧
    ¬ twoWords.storedBy (mkJob 0x01FFFFFF#32 0x0203FFFC#32 .dec .inc .w32 twoWords.tr) 2 0x02000004#32 := by decide

theorem test_witness_ATransferLeavesChannelStateAlone :
    nextIs (xfer 0x03000000#32 0x02000000#32 2 .inc .inc .w32 twoWords) (fun t =>
      decide (¬ twoWords.storedBy (mkJob 0x03000000#32 0x02000000#32 .inc .inc .w32 twoWords.tr) 2 0x02000008#32 ∧
        (mkJob 0x03000000#32 0x02000000#32 .inc .inc .w32 twoWords.tr).sparesView 2 ∧ t.tr = 0xB0000002#32)) = true := by decide

theorem test_witness_what_a_transfer_reads_from :
    (mkJob 0x03000000#32 0x02000000#32 .inc .inc .w32 0#32).readsNone 2 (fun r => decide (r = .rom)) ∧
    (mkJob 0x00000000#32 0x02000000#32 .inc .inc .w32 0#32).readsNone 2 Region.device ∧
    (∀ i < 2, (region ((mkJob 0x03000000#32 0x02000000#32 .inc .inc .w32 0#32).dstAt i)).device = false) := by decide

theorem test_witness_FootprintIsAGuestByteRange :
    1 ≤ 0x10000 ∧ 0x10000 ≤ 0x10000 ∧ (mkJob 0x02000000#32 0x03000000#32 .inc .dec .w32 0#32).footprint 2 = (0x02FFFFFC#32, 8) := by decide

/-- Two elements whose backing addresses are at least a width apart both ways share no byte. -/
theorem elementsApart_of_far {a b : Word} {w : Width} (h : w.bytes ≤ (a - b).toNat ∧ w.bytes ≤ (b - a).toNat) : elementsApart a b w := by
  rintro x ⟨hx, hy⟩
  have hb : w.bytes = 2 ∨ w.bytes = 4 := by cases w <;> simp [Width.bytes]
  have hx' : (x - a).toNat < w.bytes := hx
  have hy' : (x - b).toNat < w.bytes := hy
  have h1 := a.isLt
  have h2 := b.isLt
  have h3 := x.isLt
  rw [BitVec.toNat_sub] at hx' hy'
  rw [BitVec.toNat_sub, BitVec.toNat_sub] at h
  omega

theorem test_witness_ATransferCopiesItsSource :
    let from_ := fun i => adv (alignDown 0x03000000#32 .w32) i .w32 .inc
    let to_ := fun i => adv (alignDown 0x0203FFFC#32 .w32) i .w32 .inc
    twoWords.mem.wf ∧ ¬ alignDown 0x03000000#32 .w32 < 0x02000000#32 ∧
    (∀ i < 2, (region (from_ i)).plain = true ∧ (region (to_ i)).plain = true) ∧
    (∀ i < 2, ∀ j < 2, i ≠ j → elementsApart (twoWords.xlate (to_ i)) (twoWords.xlate (to_ j)) .w32) ∧
    (∀ i < 2, ∀ j < 2, elementsApart (twoWords.xlate (from_ i)) (twoWords.xlate (to_ j)) .w32) ∧
    (∀ i < 2, ¬ inBacking 0x02000004#32 (twoWords.xlate (to_ i)) .w32) := by
  refine ⟨by decide, by decide, by decide, fun i hi j hj h => elementsApart_of_far ?_, fun i hi j hj => elementsApart_of_far ?_, by decide⟩
  · revert i j; decide
  · revert i j; decide

theorem test_witness_TheTransferRegisterHoldsTheLastElement :
    twoWords.mem.wf ∧ nextIs (xfer 0x03000000#32 0x02FFFFFE#32 2 .inc .inc .w16 twoWords) (fun t =>
      decide ((region (adv (alignDown 0x02FFFFFC#32 .w16) 1 .w16 .inc)).plain = true ∧ t.tr = 0xB000B000#32)) = true := by decide

/-- Rule R172, "whether or not its write was dropped": a last element dropped by ROM, by unmapped space and by the open-bus range, and
one handed to a device, load `TR`. -/
theorem test_tr_of_dropped_element :
    [0x08000000#32, 0x10000000#32, 0x00000000#32, 0x040000A0#32].all (fun dst =>
      nextIs (xfer 0x03000000#32 dst 2 .inc .fix .w32 twoWords) (fun t => decide (t.tr = 0xB0000002#32))) = true ∧
    ¬ alignDown 0x03000000#32 .w32 < 0x02000000#32 := by decide

theorem test_witness_UpdatesStoreTheControlWordOnly : base.acceptsCmd 3 ∧ (inWindow .look).acceptsCmd 0 := by decide

theorem test_witness_IgnoredStartsStoreTheControlWordOnly : base.acceptsCmd 0 ∧ base.acceptsCmd 3 := by decide

theorem test_witness_StopClearsTheChannelAndReevaluatesTheLevels :
    (armed 3 0#32 0#32 1#16 0xA600#16 .blankingTrigger32 base).acceptsCmd 3 ∧ (inWindow .look).acceptsCmd 2 := by decide

theorem test_witness_SharedEnablesAreTheOrOfTheFlags :
    base.params.ok = true ∧ (15 ≠ base.params.forcedBlankBit ∧ 15 ≠ base.params.forcedAudioBit) ∧
    (2 ≠ base.params.forcedBlankBit ∧ 2 ≠ base.params.forcedAudioBit) := by decide

theorem test_witness_OnlyTheLastHolderLowersASharedLevel :
    (armed 3 0#32 0#32 1#16 0xA600#16 .blankingTrigger32 base).params.ok = true ∧
    (armed 3 0#32 0#32 1#16 0xA600#16 .blankingTrigger32 base).acceptsCmd 3 := by decide

theorem test_witness_HblankStartArmsOrIsDropped :
    (base.acceptsCmd 0 ∧ disallowed base.params ((slots 0 0x07FFFFFE#32 0#32 1#16 base).slots 0).sad = false) ∧
    disallowed base.params ((slots 0 0x08000000#32 0#32 1#16 base).slots 0).sad = true ∧
    disallowed base.params ((slots 0 0x023FFFFE#32 0#32 1#16 base).slots 0).sad = true := by decide

theorem test_witness_AudioStartArmsOrIsDropped :
    (base.acceptsCmd 1 ∧ disallowed base.params ((slots 1 0x07FFFFFE#32 0#32 1#16 base).slots 1).sad = false) ∧
    (base.acceptsCmd 2 ∧ disallowed base.params ((slots 2 0x08000000#32 0#32 1#16 base).slots 2).sad = true) := by decide

/-- Channel `c` about to copy the two words to working RAM. -/
def beforeCopy (c : Channel) : State := slots c 0x03000000#32 0x02000100#32 2#16 twoWords

theorem test_witness_ImmediateStartTransfersAtOnce :
    (beforeCopy 2).acceptsCmd 2 ∧ (2 : Channel) ≠ 3 ∧ sstep 0xC400#16 = some .inc ∧
    ((beforeCopy 2).immJob 2 0xC400#16 .inc).sparesControl ((beforeCopy 2).count 2) ∧
    ((beforeCopy 2).immJob 2 0xC400#16 .inc).sparesView ((beforeCopy 2).count 2) ∧
    ¬ (beforeCopy 2).storedBy ((beforeCopy 2).immJob 2 0xC400#16 .inc) ((beforeCopy 2).count 2) 0x02000108#32 := by decide

theorem test_witness_ImmediateStartOnChannelThreeIsBracketed :
    (beforeCopy 3).acceptsCmd 3 ∧ sstep 0x8400#16 = some .inc ∧
    ((beforeCopy 3).immJob 3 0x8400#16 .inc).sparesControl ((beforeCopy 3).count 3) ∧
    ((beforeCopy 3).immJob 3 0x8400#16 .inc).sparesView ((beforeCopy 3).count 3) ∧
    ¬ (beforeCopy 3).storedBy ((beforeCopy 3).immJob 3 0x8400#16 .inc) ((beforeCopy 3).count 3) 0x02000108#32 := by decide

theorem test_witness_no_host_in_window : ¬ (beforeCopy 3).hostInWindow ((beforeCopy 3).count 3) := by
  rintro ⟨k, hk, -⟩; cases hk

theorem test_witness_TheNestingWindowOpensBeforeTheFirstElement :
    let s := { beforeCopy 3 with script := [⟨some 2, .ev 0b0100#4⟩] }
    s.acceptsCmd 3 ∧ sstep 0x8400#16 = some .inc ∧ s.hostInWindow (s.count 3) := ⟨by decide, by decide, 2, rfl, by decide⟩

/-- The window of `inWindow`, for reading. -/
def openWindowOf (s : State) : Window :=
  match s.window with
  | some t => t
  | none => ⟨mkJob 0#32 0#32 .inc .inc .w16 0#32, 0, 0, 0#16, false, 0#32⟩

theorem test_witness_ElementByElementInTheWindowIsTheWholeTransfer :
    (inWindow .look).window = some (openWindowOf (inWindow .look)) ∧ (openWindowOf (inWindow .look)).index = 1 ∧
    (openWindowOf (inWindow .look)).index < (openWindowOf (inWindow .look)).count := by decide

/-- A line for no window, and a line for an element beyond the count, are offered for no window of two elements. -/
theorem not_in_window (s : State) (o : Offer) (rest : List Offer) (hs : s.script = o :: rest) (h : ∀ k, o.inWindow = some k → 2 < k) :
    ¬ s.hostInWindow 2 := by
  rintro ⟨k, hk, h2⟩
  have : k ∈ o.inWindow := by simpa [State.nextInWindow, hs] using hk
  have := h k this
  omega

theorem test_witness_TheNestingWindowClosesAndRestoresThePolicy :
    let s := { inWindow .look with script := [⟨none, .ev 0b0100#4⟩, ⟨some 1, .look⟩] }
    let t := openWindowOf s
    s.window = some t ∧ ¬ s.hostInWindow t.count ∧ t.index ≤ t.count ∧ t.job.sparesControl t.count ∧ t.job.pattern = none :=
  ⟨by decide, not_in_window _ ⟨none, .ev 0b0100#4⟩ [⟨some 1, .look⟩] rfl (by intro k h; cases h), by decide, by decide, by decide⟩

/-- Every element moved, a line for a third element next: the image of the last element stands although a nested step changed `TR`. -/
def allMoved : State :=
  { inWindow .look with
    tr := 0x5A5A5A5A#32, script := [⟨some 3, .look⟩]
    window := some { openWindowOf (inWindow .look) with index := 2, lastImage := 0xD0000002#32 } }

theorem test_witness_window_closes_with_every_element_moved :
    (allMoved.window = some (openWindowOf allMoved) ∧ ¬ allMoved.hostInWindow (openWindowOf allMoved).count ∧
      (openWindowOf allMoved).index = (openWindowOf allMoved).count ∧
      (openWindowOf allMoved).job.sparesControl (openWindowOf allMoved).count) ∧
    nextIs (step allMoved) (fun t => decide (t.tr = 0xD0000002#32 ∧ t.script = allMoved.script)) = true :=
  ⟨⟨by decide, not_in_window _ ⟨some 3, .look⟩ [] rfl (by intro k h; cases h; omega), by decide, by decide⟩, by decide⟩

/-- The window of an open-bus pass, its first element moved. -/
def openBusWindow : State :=
  { base with
    nestedIrqEnabled := true
    window := some ⟨mkJob 0x00000000#32 0x02000100#32 .inc .inc .w16 0x5AA5C33C#32, 2, 1, 0x8000#16, false, 0xC33CC33C#32⟩ }

theorem test_witness_window_closes_on_an_open_bus_pass :
    (openBusWindow.window = some (openWindowOf openBusWindow) ∧ ¬ openBusWindow.hostInWindow (openWindowOf openBusWindow).count ∧
      (openWindowOf openBusWindow).index ≤ (openWindowOf openBusWindow).count ∧
      (openWindowOf openBusWindow).job.sparesControl (openWindowOf openBusWindow).count ∧
      (openWindowOf openBusWindow).job.pattern = some 0xC33C#32) ∧
    nextIs (step openBusWindow) (fun t => decide (t.tr = 0xC33CC33C#32 ∧ t.nestedIrqEnabled = false)) = true :=
  ⟨⟨by decide, (by rintro ⟨k, hk, -⟩; cases hk), by decide, by decide, by decide⟩, by decide⟩

theorem test_witness_SourceControlThreeIsRefusedByTransfersOnly :
    base.acceptsCmd 3 ∧ ctlSrc 0x8180#16 = 3#2 ∧ base.window = none ∧
    ctlSrc ((armed 0 0#32 0#32 1#16 0xA380#16 .blankingTrigger16 base).slots 0).ctrl = 3#2 := by decide

/-- Channel 0 armed with repeat and channel 3 without, as in TG1; channel 1 armed for audio, its destination a device. -/
def threeArmed : State :=
  armed 0 0x02001000#32 0x05000000#32 1#16 0xA240#16 .blankingTrigger16
    (armed 3 0x03000000#32 0x06000000#32 2#16 0xE400#16 .blankingTrigger32
      (armed 1 0x03000000#32 0x040000A0#32 2#16 0xB640#16 .audioTrigger twoWords))

theorem test_witness_OneTriggerIsOneTransfer :
    (sstep (threeArmed.slots 0).ctrl = some .inc ∧ ctlRep (threeArmed.slots 0).ctrl = true ∧
      (threeArmed.triggerJob 0 .w16 .inc).sparesControl (threeArmed.count 0)) ∧
    (sstep (threeArmed.slots 3).ctrl = some .inc ∧ ctlRep (threeArmed.slots 3).ctrl = false ∧
      (threeArmed.triggerJob 3 .w32 .inc).sparesControl (threeArmed.count 3)) := by decide

/-- The same with the audio request set. -/
def threeArmedRequested : State := { threeArmed with drainRequest := true }

/-- Each channel's control word steps up, and its transfer at either width stays off the register view. -/
theorem threeArmed_canServe (serves : Handler → Option Width) : threeArmed.canServe serves := by
  intro c w h
  clear h
  refine ⟨.inc, ?_, ?_⟩
  · revert c; decide
  · cases w <;> (revert c; decide)

theorem threeArmedRequested_canServe (serves : Handler → Option Width) : threeArmedRequested.canServe serves := by
  intro c w h
  clear h
  refine ⟨.inc, ?_, ?_⟩
  · revert c; decide
  · cases w <;> (revert c; decide)

theorem test_witness_HblankServesEveryBlankingChannelOnce :
    threeArmed.initialised = true ∧ threeArmed.canServe hblankServes ∧ hblankServes (threeArmed.chan 0).handler = some .w16 ∧
    hblankServes (threeArmed.chan 3).handler = some .w32 ∧ hblankServes (threeArmed.chan 1).handler = none ∧
    threeArmed.params.ok = true ∧ threeArmed.LevelsOk :=
  ⟨by decide, threeArmed_canServe _, by decide, by decide, by decide, by decide, ⟨by decide, by decide, by decide⟩⟩

theorem test_witness_AudioServesEveryAudioChannelOnARequest :
    (threeArmedRequested.initialised = true ∧ threeArmedRequested.drainRequest = true ∧ threeArmedRequested.canServe audioServes ∧
      ∃ c, (threeArmedRequested.chan c).handler = .audioTrigger) ∧
    threeArmed.drainRequest = false ∧ (∀ c, (base.chan c).handler ≠ .audioTrigger) :=
  ⟨⟨by decide, by decide, threeArmedRequested_canServe _, 1, by decide⟩, by decide, by decide⟩

theorem test_witness_VblankChangesNothing : base.initialised = true := rfl

theorem test_witness_OnlyCompletedTransfersRaiseInterrupts :
    nextIs (exec .trigHblank threeArmed) (fun t =>
      decide (t.irqPending.getLsbD 11 = true ∧ threeArmed.irqPending.getLsbD 11 = false)) = true ∧
    nextIs (exec (.startImm 2 0xC400#16) (beforeCopy 2)) (fun t =>
      decide (t.irqPending.getLsbD 10 = true ∧ (beforeCopy 2).irqPending.getLsbD 10 = false)) = true := by decide

theorem test_witness_OnlyStartsAndTriggersMoveTheCursors :
    nextIs (exec .trigHblank threeArmed) (fun t => decide ((t.chan 0).src ≠ (threeArmed.chan 0).src)) = true ∧
    (decodeRa 0x040000BA#32 = .ok 0 ∧ ctlEn 0xE640#16 = ctlEn (threeArmed.slots 0).ctrl ∧
      nextIs (serveCmd 0x040000BA#32 0xE640#16 threeArmed) (fun _ => true) = true) ∧
    nextIs (serve (.sadw 0 0xFFFFFFFF#32) threeArmed) (fun _ => true) = true :=
  ⟨by decide, ⟨rfl, by decide, by decide⟩, by decide⟩

theorem test_witness_TheDrainRequestIsClearedInTwoPlaces :
    (threeArmedRequested.drainRequest = true ∧ nextIs (exec .trigAudio threeArmedRequested) (fun t => decide (t.drainRequest = false)) = true) ∧
    (base.drainRequest = false ∧ nextIs (exec .trigAudio base) (fun _ => true) = true) := by decide

theorem test_witness_InitResetsTheChannelsAndNothingElse : threeArmed.window = none ∧ State.beforeInit.window = none := ⟨rfl, rfl⟩

/-- A window whose transfer reads the register view and writes over it: its source is the slots of channel 0, its destination the
source slot of channel 1 and the control half-word before it. -/
def slotsInFlight : State :=
  { base with window := some ⟨mkJob 0x040000B0#32 0x040000B8#32 .inc .inc .w32 0#32, 2, 0, 0x8400#16, false, 0#32⟩ }

theorem test_witness_WhatIsRefused :
    (State.beforeInit.initialised = false ∧ Instr.trigAudio ≠ .init) ∧
    ((inWindow .look).window = some (openWindowOf (inWindow .look)) ∧ (inWindow .look).initialised = true ∧
      3#3 ≠ (inWindow .look).dispMode ∧ 1 < (openWindowOf (inWindow .look)).count ∧
      3 < (openWindowOf (inWindow .look)).job.width.bytes ∧ (openWindowOf (inWindow .look)).job.pattern = none) ∧
    decodeRa 0x040000B8#32 = .error .notAControlSlot ∧ decodeEv 0b0110#4 = .error .badEventVector :=
  ⟨by decide, by decide, rfl, rfl⟩

/-- Clause by clause, at the ends of the two ranges: the last byte of the destination and of the source, a mirror of it; halves and
words that overlap a range by one byte; slots inside the ranges. -/
theorem test_witness_host_writes_refused_in_the_window :
    let s := inWindow .look
    let t := openWindowOf s
    (inFlight s t 0x02000107#32 = true ∧ inFlight s t 0x03000007#32 = true ∧ inFlight s t 0x02040107#32 = true ∧
      inFlight s t 0x02000108#32 = false ∧ inFlight s t 0x02FFFFFF#32 = false) ∧
    (s.touchesFlight t (alignDown 0x02000107#32 .w16) 2 ∧ ∀ c, alignDown 0x02000107#32 .w16 ≠ ctrlAddress c) ∧
    (s.touchesFlight t (alignDown 0x03000004#32 .w32) 4 ∧ ∀ c, alignDown 0x03000004#32 .w32 + 2#32 ≠ ctrlAddress c) ∧
    (slotsInFlight.window = some (openWindowOf slotsInFlight) ∧
      slotsInFlight.touchesFlight (openWindowOf slotsInFlight) (slotAddress 1 0) 4 ∧
      slotsInFlight.touchesFlight (openWindowOf slotsInFlight) (slotAddress 0 4) 4 ∧
      slotsInFlight.touchesFlight (openWindowOf slotsInFlight) (slotAddress 0 8) 2) := by decide

theorem test_witness_HostStoresLandWhereTheyAreAddressed :
    ((region 0x02FFFFFF#32).plain = true ∧ base.storeFree 0x02FFFFFF#32 1) ∧
    ((inWindow .look).storeFree (alignDown 0x02000108#32 .w16) 2 ∧ (inWindow .look).storeFree (alignDown 0x020000FC#32 .w32) 4) ∧
    ((inWindow .look).storeFree (slotAddress 3 0) 4 ∧ (inWindow .look).storeFree (slotAddress 3 4) 4 ∧
      (inWindow .look).storeFree (slotAddress 3 8) 2) ∧
    (base.storeFree (slotAddress 0 0) 1 ∧ base.storeFree (slotAddress 0 (4 + 3)) 1 ∧ base.storeFree (slotAddress 3 (8 + 1)) 1 ∧
      base.storeFree (slotAddress 0 2) 2 ∧ base.storeFree (slotAddress 3 6) 2) ∧
    ((region 0x040000AF#32).plain = false ∧ isSlotByte 0x040000AF#32 = false ∧ isSlotByte 0x040000E0#32 = false) ∧
    (coversByte isSlotByte (alignDown 0x040000AF#32 .w16) .w16 = false ∧ (region 0x08000000#32).plain = false ∧
      coversByte isSlotByte (alignDown 0x08000000#32 .w32) .w32 = false) := by
  have free : ∀ a n, base.storeFree a n := fun _ _ _ h => nomatch h
  refine ⟨⟨by decide, free _ _⟩, ⟨?_, ?_⟩, ⟨?_, ?_, ?_⟩, ⟨free _ _, free _ _, free _ _, free _ _, free _ _⟩, by decide, by decide⟩
  all_goals
    intro t h
    cases h
    decide

/-- A store through a mirror lands at the translated address (rule R122), a store into ROM changes nothing. -/
theorem test_host_store_plain :
    nextIs (step (base.offerNow (.memw32 0x02FC0004#32 0x11223344#32))) (fun t =>
      decide (t.mem = [(0x02000004, 0x44#8), (0x02000005, 0x33#8), (0x02000006, 0x22#8), (0x02000007, 0x11#8)])) = true ∧
    nextIs (step (base.offerNow (.memw16 0x08000000#32 0xFFFF#16))) (fun t => decide (t = base)) = true := by decide

theorem test_witness_HostStoresToAControlHalfWord :
    threeArmed.window = none ∧ (0xA2#8).getLsbD 7 = ctlEn (threeArmed.slots 0).ctrl ∧ (0x22#8).getLsbD 7 ≠ ctlEn (threeArmed.slots 0).ctrl := by
  decide

theorem test_witness_AStepRunsTheOperationOffered :
    ((inWindow (.cmd (ctrlAddress 0) 0#16)).window = some (openWindowOf (inWindow (.cmd (ctrlAddress 0) 0#16))) ∧
      1 ≤ (openWindowOf (inWindow (.cmd (ctrlAddress 0) 0#16))).index ∧
      (inWindow (.cmd (ctrlAddress 0) 0#16)).script = [⟨some 1, .cmd (ctrlAddress 0) 0#16⟩]) ∧
    ((base.offerNow (.ev 0b0001#4)).window = none ∧ (base.offerNow (.ev 0b0001#4)).script = ⟨some 0, .ev 0b0001#4⟩ :: [] ∧
      decodeEv 0b0001#4 = .ok .init) := ⟨by decide, rfl, rfl, rfl⟩

theorem test_witness_AStepRunsTheTableWord : decodeEv 0b1000#4 = .ok .trigAudio := rfl

theorem test_witness_ALineThatIsNotDueWaits :
    let s := { inWindow .look with script := [⟨some 2, .look⟩] }
    let o : Offer := ⟨some 2, .look⟩
    (s.window = some (openWindowOf s) ∧ s.script = o :: [] ∧ o.due (openWindowOf s) = false ∧ nextIs (step s) (fun _ => true) = true) ∧
    (o.inWindow = some 2 ∧ (openWindowOf s).index < 2 ∧ 2 ≤ (openWindowOf s).count ∧
      nextIs (moveOne (openWindowOf s).job (openWindowOf s).index s) (fun _ => true) = true) ∧
    (base.window = none ∧ base.script = []) := by decide

/-- A step of NW2's run moves one element while the next line is for a later one, and the window stays open. -/
theorem test_window_one_element :
    nextIs (step { inWindow .look with script := [⟨some 2, .look⟩] }) (fun t =>
      decide (words t 0x02000100#32 2 = [0xD0000001#32, 0xD0000002#32] ∧ (openWindowOf t).index = 2 ∧ t.window.isSome = true ∧
        (t.slots 3).ctrl = 0x8400#16)) = true := by decide

/-- The invariant holds with three channels armed. -/
theorem threeArmed_inv : threeArmed.Inv where
  initialised := rfl
  params := by decide
  memory := by decide
  channel c := by
    constructor
    · revert c; decide
    · revert c; decide
    · revert c; decide
    · revert c; decide
  levels := ⟨by decide, by decide, by decide⟩
  window t h := nomatch h

theorem test_witness_TheInvariantGivesRulesR32AndR33 : threeArmed.Inv ∧ (threeArmed.chan 3).handler ≠ .inactive := ⟨threeArmed_inv, by decide⟩

theorem test_witness_EveryStepKeepsTheInvariant :
    threeArmed.Inv ∧ nextIs (step threeArmed) (fun t => decide (t = threeArmed)) = true := ⟨threeArmed_inv, by decide⟩

end Sys2Proof.Tests
end

section
/-! Rule R62's byte order: the bytes and the halves of an element, read and written, and the statement that elements are
little-endian. -/

namespace Sys2Proof.Machine

/-! ### The bytes of a little-endian concatenation -/

theorem extractLsb'_append_byte_zero {n : Nat} (x : BitVec n) (y : Byte) : (x ++ y).extractLsb' (8 * 0) 8 = y := by
  rw [BitVec.extractLsb'_append_eq_of_add_le (by decide), BitVec.extractLsb'_eq_self]

theorem extractLsb'_append_byte_succ {n : Nat} (x : BitVec n) (y : Byte) (k : Nat) :
    (x ++ y).extractLsb' (8 * (k + 1)) 8 = x.extractLsb' (8 * k) 8 := by
  rw [BitVec.extractLsb'_append_eq_of_le (by omega)]
  congr 1

/-! ### Bytes and halves of an element -/

/-- The bits an element keeps are the value's own. -/
theorem elem_extractLsb' (v : Word) {w : Width} {i n : Nat} (h : i + n ≤ 8 * w.bytes) :
    (elem w v).extractLsb' i n = v.extractLsb' i n := by
  cases w with
  | w16 =>
    have hmask : 0x0000FFFF#32 = (BitVec.allOnes 16).setWidth 32 := rfl
    ext j hj
    have hbit : i + j < 16 := by simp only [Width.bytes] at h; omega
    simp only [elem, hmask, BitVec.getElem_extractLsb', BitVec.getLsbD_and, BitVec.getLsbD_setWidth, BitVec.getLsbD_allOnes]
    simp [hbit, show i + j < 32 by omega]
  | w32 => rfl

/-- Byte `k` of an element read is the backing byte at offset `k`. -/
theorem State.backRead_byte (s : State) (b : Word) {w : Width} {k : Nat} (hk : k < w.bytes) :
    (s.backRead b w).extractLsb' (8 * k) 8 = s.byteAt (b + BitVec.ofNat 32 k) := by
  cases w with
  | w16 =>
    simp only [State.backRead, BitVec.zeroExtend_eq_setWidth]
    rw [BitVec.extractLsb'_setWidth_of_le (by simp only [Width.bytes] at hk; omega)]
    match k, hk with
    | 0, _ => rw [extractLsb'_append_byte_zero, BitVec.add_zero]
    | 1, _ => rw [extractLsb'_append_byte_succ, BitVec.extractLsb'_eq_self]
  | w32 =>
    simp only [State.backRead]
    match k, hk with
    | 0, _ => rw [extractLsb'_append_byte_zero, BitVec.add_zero]
    | 1, _ => rw [extractLsb'_append_byte_succ, extractLsb'_append_byte_zero]
    | 2, _ => rw [extractLsb'_append_byte_succ, extractLsb'_append_byte_succ, extractLsb'_append_byte_zero]
    | 3, _ =>
      rw [extractLsb'_append_byte_succ, extractLsb'_append_byte_succ, extractLsb'_append_byte_succ, BitVec.extractLsb'_eq_self]

/-- Each byte of an element write lands at its place. -/
theorem State.backWrite_byteAt {s : State} (hm : s.mem.wf) (b : Word) {w : Width} (v : Word) {k : Nat} (hk : k < w.bytes) :
    (s.backWrite b w v).byteAt (b + BitVec.ofNat 32 k) = v.extractLsb' (8 * k) 8 := by
  rw [← State.backRead_byte _ _ hk, State.backRead_backWrite hm, elem_extractLsb' v (by omega)]

/-- A 32-bit read is the two 16-bit reads it covers, the one at the lower address in bits 15:0. -/
theorem State.backRead_w32_eq_halves (s : State) (b : Word) :
    s.backRead b .w32 = (s.backRead (b + 2#32) .w16).extractLsb' 0 16 ++ (s.backRead b .w16).extractLsb' 0 16 := by
  have hb : b + 2#32 + 1#32 = b + 3#32 := by rw [BitVec.add_assoc]; rfl
  simp only [State.backRead, BitVec.zeroExtend_eq_setWidth, hb]
  rw [BitVec.extractLsb'_setWidth_of_le (by decide), BitVec.extractLsb'_setWidth_of_le (by decide),
    BitVec.extractLsb'_eq_self, BitVec.extractLsb'_eq_self]
  exact BitVec.append_assoc

/-! ### Elements apart -/

/-- An element write leaves every element apart from it as it was. -/
theorem State.backRead_backWrite_apart (s : State) {a b : Word} {w : Width} (h : elementsApart a b w) (v : Word) :
    (s.backWrite b w v).backRead a w = s.backRead a w :=
  State.backRead_congr fun x hx => s.backWrite_byteAt_other (fun hb => h x ⟨hx, hb⟩) v

theorem elementsApart_w16_add_two (b : Word) : elementsApart b (b + 2#32) .w16 := by
  rintro x ⟨hlo, hhi⟩
  simp only [inBacking, Width.bytes] at hlo hhi
  bv_omega

/-- Settles O16: a byte written is a byte of what reads back at the same width; a 32-bit read splits into two 16-bit reads, and
the second write is apart from the first. -/
theorem elementsAreLittleEndian : Obligations.ElementsAreLittleEndian := by
  intro s b w v lo hi hm
  refine ⟨fun k hk => State.backWrite_byteAt hm b v hk, ?_⟩
  have hlow (x : Word) : (elem .w16 x).extractLsb' 0 16 = x.extractLsb' 0 16 := elem_extractLsb' x (by decide)
  rw [State.backRead_w32_eq_halves, State.backRead_backWrite (s.backWrite_wf hm b .w16 lo),
    State.backRead_backWrite_apart _ (elementsApart_w16_add_two b), State.backRead_backWrite hm, hlow, hlow]

end Sys2Proof.Machine
end

section
/-! Rules R93, R95 and R102: the order in which a `CMD` is decoded, the row of the opcode table a decode word lies in, the channel of
a register address, and the event vectors. -/

namespace Sys2Proof

/-! ### The dispatch of a start, in the order of rule R102 -/

/-- A `CMD` that turns the enable bit on is a start. -/
theorem decodeDw_start (c : Channel) {v : Half} (hen : ctlEn v = true) : decodeDw (decodeWord c false v) = decodeStart c v := by
  rw [decodeDw_decodeWord, hen]

theorem decodeStart_xreq (c : Channel) {v : Half} (hx : ctlXreq v = true) : decodeStart c v = .startXreq c v := by
  simp [decodeStart, hx]

theorem decodeStart_immediate (c : Channel) {v : Half} (hx : ctlXreq v = false) (ht : ctlTiming v = 0#2) :
    decodeStart c v = .startImm c v := by
  simp [decodeStart, hx, ht]

theorem decodeStart_vblank (c : Channel) {v : Half} (hx : ctlXreq v = false) (ht : ctlTiming v = 1#2) :
    decodeStart c v = .startVbl c v := by
  simp [decodeStart, hx, ht]

theorem decodeStart_hblank (c : Channel) {v : Half} (hx : ctlXreq v = false) (ht : ctlTiming v = 2#2) :
    decodeStart c v = .startHbl c v := by
  simp [decodeStart, hx, ht]

theorem decodeStart_special (c : Channel) {v : Half} (hx : ctlXreq v = false) (ht : ctlTiming v = 3#2) :
    decodeStart c v = decodeSpecial c v := by
  simp [decodeStart, hx, ht]

theorem twoBit_cases : ∀ t : BitVec 2, t = 0#2 ∨ t = 1#2 ∨ t = 2#2 ∨ t = 3#2 := by decide

/-! ### What is decoded is well-formed and encodes to the word it came from -/

theorem startsWithTiming_of_fields {v : Half} {t : BitVec 2} (hen : ctlEn v = true) (hx : ctlXreq v = false) (ht : ctlTiming v = t) :
    startsWithTiming v t = true := by
  simp [startsWithTiming, hen, hx, ht]

theorem decodeSpecial_wellFormed_and_encode {v : Half} (hv : startsWithTiming v 3#2 = true) (c : Channel) :
    (decodeSpecial c v).WellFormed ∧ encode (decodeSpecial c v) = .dw (decodeWord c false v) := by
  match c with
  | 0 => exact ⟨hv, rfl⟩
  | 1 => exact ⟨hv, rfl⟩
  | 2 => exact ⟨hv, rfl⟩
  | 3 => exact ⟨hv, rfl⟩

theorem decodeStart_wellFormed_and_encode {v : Half} (hen : ctlEn v = true) (c : Channel) :
    (decodeStart c v).WellFormed ∧ encode (decodeStart c v) = .dw (decodeWord c false v) := by
  cases hx : ctlXreq v with
  | true =>
    rw [decodeStart_xreq c hx]
    exact ⟨by simp [Instr.WellFormed, Instr.wellFormed, hen, hx], rfl⟩
  | false =>
    rcases twoBit_cases (ctlTiming v) with ht | ht | ht | ht
    · rw [decodeStart_immediate c hx ht]
      exact ⟨startsWithTiming_of_fields hen hx ht, rfl⟩
    · rw [decodeStart_vblank c hx ht]
      exact ⟨startsWithTiming_of_fields hen hx ht, rfl⟩
    · rw [decodeStart_hblank c hx ht]
      exact ⟨startsWithTiming_of_fields hen hx ht, rfl⟩
    · rw [decodeStart_special c hx ht]
      exact decodeSpecial_wellFormed_and_encode (startsWithTiming_of_fields hen hx ht) c

/-- Every decode word decodes to a well-formed operation whose encoding is that word (the `CMD` half of the converse round trip). -/
theorem decodeDw_wellFormed_and_encode (d : BitVec 19) : (decodeDw d).WellFormed ∧ encode (decodeDw d) = .dw d := by
  have of_fields (c : Channel) (e : Bool) (v : Half) :
      (decodeDw (decodeWord c e v)).WellFormed ∧ encode (decodeDw (decodeWord c e v)) = .dw (decodeWord c e v) := by
    rw [decodeDw_decodeWord]
    cases e <;> cases hen : ctlEn v
    case false.true => exact decodeStart_wellFormed_and_encode hen c
    all_goals exact ⟨by simp [Instr.WellFormed, Instr.wellFormed, hen], rfl⟩
  simpa only [decodeWord_fields] using of_fields (dwChannel d) (dwOld d) (dwValue d)

/-! ### The rows of the opcode table -/

/-- Two rows of the table that agree on the bits both masks select are one row. -/
theorem opcodeTable_disjoint :
    ∀ q ∈ opcodeTable, ∀ r ∈ opcodeTable, q.value &&& r.mask = r.value &&& q.mask → q = r := by decide

/-- A decode word lies in at most one row. -/
theorem opcodeTable_covers_unique {q r : TableRow} (hq : q ∈ opcodeTable) (hr : r ∈ opcodeTable) {d : BitVec 19}
    (hqd : q.covers d = true) (hrd : r.covers d = true) : q = r := by
  refine opcodeTable_disjoint q hq r hr ?_
  rw [← of_decide_eq_true hqd, ← of_decide_eq_true hrd]
  ac_rfl

/-- The encoding of every well-formed operation lies in the row its mnemonic names, or is the event vector of its strobe. -/
theorem encodesRow (i : Instr) : Laws.EncodesRow.Statement i := by
  cases i with
  | ctrlUpd0 c v => exact Laws.EncodesRow.ctrlUpd0 c v
  | ctrlUpd1 c v => exact Laws.EncodesRow.ctrlUpd1 c v
  | ctrlStop c v => exact Laws.EncodesRow.ctrlStop c v
  | startXreq c v => exact Laws.EncodesRow.startXreq c v
  | startImm c v => exact Laws.EncodesRow.startImm c v
  | startVbl c v => exact Laws.EncodesRow.startVbl c v
  | startHbl c v => exact Laws.EncodesRow.startHbl c v
  | startSpc0 v => exact Laws.EncodesRow.startSpc0 v
  | startAud1 v => exact Laws.EncodesRow.startAud1 v
  | startAud2 v => exact Laws.EncodesRow.startAud2 v
  | startSpc3 v => exact Laws.EncodesRow.startSpc3 v
  | init => exact Laws.EncodesRow.init
  | trigVblank => exact Laws.EncodesRow.trigVblank
  | trigHblank => exact Laws.EncodesRow.trigHblank
  | trigAudio => exact Laws.EncodesRow.trigAudio

/-- A decode word lies in the row of the operation it decodes to. -/
theorem exists_row_covers_decodeDw (d : BitVec 19) :
    ∃ r ∈ opcodeTable, r.covers d = true ∧ r.mnemonic = (decodeDw d).mnemonic := by
  obtain ⟨hwf, henc⟩ := decodeDw_wellFormed_and_encode d
  have hrow := encodesRow (decodeDw d) hwf
  rw [henc] at hrow
  exact hrow

/-- Settles O3: the clauses follow the branches of the decoder; the row exists because what is decoded encodes to the word again, and
is the only one because no two rows agree under both their masks. -/
theorem decodingFollowsTheOrderOfRuleR102 : Obligations.DecodingFollowsTheOrderOfRuleR102 := by
  refine ⟨fun c v => ⟨fun hen => ?_, fun hen => ?_, fun hen => ?_, fun hen hx => ?_, fun hen hx ht => ?_, fun hen hx ht => ?_,
    fun hen hx ht => ?_, fun hen hx ht => ?_⟩, fun d => ?_⟩
  · rw [decodeDw_decodeWord, hen]
  · rw [decodeDw_decodeWord, hen]
  · rw [decodeDw_decodeWord, hen]
  · rw [decodeDw_start c hen, decodeStart_xreq c hx]
  · rw [decodeDw_start c hen, decodeStart_immediate c hx ht]
  · rw [decodeDw_start c hen, decodeStart_vblank c hx ht]
  · rw [decodeDw_start c hen, decodeStart_hblank c hx ht]
  · have special (k : Channel) : decodeDw (decodeWord k false v) = decodeSpecial k v := by
      rw [decodeDw_start k hen, decodeStart_special k hx ht]
    exact ⟨special 0, special 1, special 2, special 3⟩
  · obtain ⟨r, hr, hcov, hmn⟩ := exists_row_covers_decodeDw d
    exact ⟨r, hr, hcov, hmn, fun q hq hqd => opcodeTable_covers_unique hq hr hqd hcov⟩

/-! ### The channel of a register address -/

theorem decodeRa_eq_ok_iff {ra : Word} {c : Channel} : decodeRa ra = .ok c ↔ ra.toNat = 0x040000B0 + 10 + 12 * c.val := by
  have hc := c.isLt
  simp only [decodeRa]
  split_ifs with h <;> simp only [Config.iobaseDma, Config.offCtrl, Config.chStride] at h ⊢
  · rw [Except.ok.injEq, Fin.ext_iff]
    dsimp only
    omega
  · simp only [false_iff]
    omega

theorem decodeRa_eq_error {ra : Word} {e : DecodeError} (h : decodeRa ra = .error e) : e = .notAControlSlot := by
  simp only [decodeRa] at h
  split_ifs at h
  cases h
  rfl

/-- The address of a control slot is not rejected. -/
theorem ne_ctrlAddress_of_decodeRa_error {ra : Word} {e : DecodeError} (h : decodeRa ra = .error e) (c : Channel) :
    ra ≠ ctrlAddress c := by
  rintro rfl
  rw [decodeRa_ctrlAddress] at h
  cases h

/-- Settles O6: the accepted addresses are the four of `ctrlAddress`, and those are the ones named. -/
theorem registerAddressSelectsTheChannel : Obligations.RegisterAddressSelectsTheChannel := by
  refine ⟨fun ra c => decodeRa_eq_ok_iff, fun ra e h => ⟨decodeRa_eq_error h, ?_⟩, rfl, rfl, rfl, rfl⟩
  have hne := ne_ctrlAddress_of_decodeRa_error h
  simp only [List.mem_cons, List.not_mem_nil, or_false, not_or]
  exact ⟨hne 0, hne 1, hne 2, hne 3⟩

/-! ### Event vectors -/

theorem decodeEv_not_oneHot {e : BitVec 4} (h0 : e ≠ 0b0001#4) (h1 : e ≠ 0b0010#4) (h2 : e ≠ 0b0100#4) (h3 : e ≠ 0b1000#4) :
    decodeEv e = .error .badEventVector := by
  rw [decodeEv, if_neg h0, if_neg h1, if_neg h2, if_neg h3]

/-- Settles O4: one branch of the decoder for each vector, and the last for all others. -/
theorem eventVectorsAreOneHot : Obligations.EventVectorsAreOneHot :=
  ⟨rfl, rfl, rfl, rfl, fun _ h0 h1 h2 h3 => decodeEv_not_oneHot h0 h1 h2 h3⟩

end Sys2Proof
end

section
/-! Rules R98 and R99: the arithmetic of a cursor over the integers, and the number of elements a count stands for. -/

namespace Sys2Proof

theorem adv_toNat (a : Word) (n : Nat) (w : Width) (d : StepDir) :
    ((adv a n w d).toNat : Int) = ((a.toNat : Int) + n * w.bytes * d.toInt) % 2 ^ 32 := by
  rw [← Nat.cast_mul]
  have ha := a.isLt
  cases d with
  | inc =>
    simp only [adv, StepDir.toInt, BitVec.toNat_add, BitVec.toNat_ofNat]
    omega
  | dec =>
    simp only [adv, StepDir.toInt, BitVec.toNat_sub, BitVec.toNat_ofNat]
    omega
  | fix =>
    simp only [adv, StepDir.toInt]
    omega

/-- On channel 3 a count of 0 stands for the maximum. -/
theorem effCount_sentinel : effCount 3 0#16 = 0x10000 := rfl

theorem effCount_eq_toNat {c : Channel} {n : Half} (h : ¬ (c = 3 ∧ n = 0#16)) : effCount c n = n.toNat := if_neg h

theorem effCount_le (c : Channel) (n : Half) : effCount c n ≤ 0x10000 := by
  by_cases h : c = 3 ∧ n = 0#16
  · obtain ⟨rfl, rfl⟩ := h
    exact effCount_sentinel.le
  · rw [effCount_eq_toNat h]
    exact n.isLt.le

/-- Settles O8: the step as the integer of rule R12, and the two branches of rule R99. -/
theorem cursorArithmeticAndCount : Obligations.CursorArithmeticAndCount := by
  refine ⟨adv_toNat, fun c n => ⟨?_, effCount_eq_toNat, ?_, effCount_le c n⟩⟩
  · rintro rfl rfl
    exact effCount_sentinel
  · rintro rfl
    exact (Machine.effCount_bounds n).1

end Sys2Proof
end

section
/-! Rule R104: a control word with source control 3 has no step, so a transfer that needs one is refused; an operation without a
transfer stores it like any other. -/

namespace Sys2Proof.Machine

theorem sstep_eq_none_of_illegal {v : Half} (h : ctlSrc v = 3#2) : sstep v = none := by
  simp [sstep, h]

/-- The operation completes and leaves the control word `v` in channel `c`'s slot (rule R191). -/
abbrev StoresControl (c : Channel) (v : Half) (o : Answer) : Prop := ∃ t, o = .next t ∧ (t.slots c).ctrl = v

theorem State.setCtrl_ctrl (s : State) (c : Channel) (v : Half) : ((s.setCtrl c v).slots c).ctrl = v := by
  rw [State.setCtrl_slots_same]

theorem storeControl_stores {s : State} {c : Channel} (h : s.acceptsCmd c) (v : Half) : StoresControl c v (storeControl c v s) :=
  ⟨s.setCtrl c v, acceptCmd_of_accepts h _, s.setCtrl_ctrl c v⟩

theorem execCtrlStop_stores {s : State} {c : Channel} (h : s.acceptsCmd c) (v : Half) : StoresControl c v (execCtrlStop c v s) :=
  ⟨(s.setCtrl c v).stop c, acceptCmd_of_accepts h _, s.setCtrl_ctrl c v⟩

/-- An h-blank start stores the word whether its source is allowed or not. -/
theorem execStartHbl_stores {s : State} {c : Channel} (h : s.acceptsCmd c) (v : Half) : StoresControl c v (execStartHbl c v s) := by
  rw [execStartHbl_eq h]
  split
  · exact ⟨_, rfl, s.setCtrl_ctrl c v⟩
  · exact ⟨_, rfl, s.setCtrl_ctrl c v⟩

/-- An audio start stores the word whether its source is allowed or not. -/
theorem audioStart_stores {s : State} {c : Channel} (h : s.acceptsCmd c) (v : Half) : StoresControl c v (audioStart c v s) := by
  rw [audioStart_eq h]
  split
  · exact ⟨_, rfl, s.setCtrl_ctrl c v⟩
  · exact ⟨_, rfl, s.setCtrl_ctrl c v⟩

/-- Settles O43: the transfers find no source step; every other operation stores its word first. -/
theorem sourceControlThreeIsRefusedByTransfersOnly : Obligations.SourceControlThreeIsRefusedByTransfersOnly := by
  intro c v w s
  refine ⟨fun ha hv => execStartImm_illegal ha (sstep_eq_none_of_illegal hv),
    fun hv => periodic_illegal (sstep_eq_none_of_illegal hv), fun _ i hi ha => ?_, fun _ hs => ?_⟩
  · simp only [List.mem_cons, List.not_mem_nil, or_false] at hi
    rcases hi with rfl | rfl | rfl | rfl | rfl | rfl
    · exact storeControl_stores ha v
    · exact storeControl_stores ha v
    · exact execCtrlStop_stores ha v
    · exact storeControl_stores ha v
    · exact storeControl_stores ha v
    · exact execStartHbl_stores ha v
  · have ha (d : Channel) : s.acceptsCmd d := ⟨hs.1, .inl hs.2⟩
    exact ⟨storeControl_stores (ha 0) v, audioStart_stores (ha 1) v, audioStart_stores (ha 2) v, storeControl_stores (ha 3) v⟩

end Sys2Proof.Machine
end

section
/-! Rules R61 and R121 to R132: the region of an address, the mirror masks as arithmetic, and one equation of the translation for
each of its arms. -/

namespace Sys2Proof.Machine

/-! ### The selector and the region -/

theorem sel_toNat (a : Word) : (sel a).toNat = a.toNat / 2 ^ 24 := by
  have ha := a.isLt
  simp only [sel, BitVec.extractLsb'_toNat, Nat.shiftRight_eq_div_pow]
  omega

/-- The selector of a plain region (rule R61); the value elsewhere is of no account. -/
def Region.plainSelector : Region → Byte
  | .ewram => 0x02#8
  | .iwram => 0x03#8
  | .palette => 0x05#8
  | .vram => 0x06#8
  | .oam => 0x07#8
  | .openBus | .io | .rom | .save | .unmapped => 0xFF#8

/-- A plain region is one selector (rule R61): the region looks at nothing else of an address, and there are 256 selectors. -/
theorem region_eq_iff {a : Word} {r : Region} (hr : r.plain = true) : region a = r ↔ sel a = r.plainSelector := by
  simp only [region]
  generalize sel a = x
  cases r
  case ewram | iwram | palette | vram | oam => revert x; decide
  all_goals cases hr

/-- An address whose selector is none of the five lies in no plain region. -/
theorem region_not_plain {a : Word} (h2 : sel a ≠ 0x02#8) (h3 : sel a ≠ 0x03#8) (h5 : sel a ≠ 0x05#8) (h6 : sel a ≠ 0x06#8)
    (h7 : sel a ≠ 0x07#8) : (region a).plain = false := by
  refine Bool.eq_false_iff.mpr fun hp => ?_
  have hsel : sel a = (region a).plainSelector := (region_eq_iff hp).mp rfl
  cases hr : region a <;> rw [hr] at hp hsel
  case ewram => exact h2 hsel
  case iwram => exact h3 hsel
  case palette => exact h5 hsel
  case vram => exact h6 hsel
  case oam => exact h7 hsel
  all_goals cases hp

/-! ### Mirror masks -/

/-- A mask whose selector is all ones keeps the selector. -/
theorem sel_and_mask {mask : Word} (hsel : sel mask = 0xFF#8) (a : Word) : sel (a &&& mask) = sel a := by
  have hand : sel (a &&& mask) = sel a &&& sel mask := BitVec.extractLsb'_and
  rw [hand, hsel]
  exact BitVec.and_allOnes

/-- A mirror mask with `n` low ones keeps the selector and takes the offset modulo `2 ^ n`. -/
theorem toNat_and_mask {mask : Word} {n : Nat} (hsel : sel mask = 0xFF#8) (hlow : mask.toNat % 2 ^ 24 = 2 ^ n - 1) (hn : n ≤ 24)
    (a : Word) : (a &&& mask).toNat = 2 ^ 24 * (sel a).toNat + a.toNat % 2 ^ n := by
  have hhigh : (a &&& mask).toNat / 2 ^ 24 = (sel a).toNat := by rw [← sel_toNat, sel_and_mask hsel]
  have hoff : (a &&& mask).toNat % 2 ^ 24 = a.toNat % 2 ^ n := by
    rw [BitVec.toNat_and, Nat.and_mod_two_pow, hlow, Nat.and_two_pow_sub_one_eq_mod,
      Nat.mod_mod_of_dvd _ (Nat.pow_dvd_pow 2 hn)]
  rw [← hhigh, ← hoff, Nat.div_add_mod]

/-! ### The arms of the translation (rules R121 to R127) -/

section
variable (p : Config.Params) (m : BitVec 3) {a : Word}

theorem xlate_ewram (h : sel a = 0x02#8) : xlate p m a = a &&& 0xFF03FFFF#32 := by
  rw [xlate, (region_eq_iff (r := .ewram) rfl).mpr h]; rfl

theorem xlate_iwram (h : sel a = 0x03#8) : xlate p m a = a &&& 0xFF007FFF#32 := by
  rw [xlate, (region_eq_iff (r := .iwram) rfl).mpr h]; rfl

theorem xlate_palette (h : sel a = 0x05#8) : xlate p m a = a &&& 0xFF0003FF#32 := by
  rw [xlate, (region_eq_iff (r := .palette) rfl).mpr h]; rfl

theorem xlate_oam (h : sel a = 0x07#8) : xlate p m a = a &&& 0xFF0003FF#32 := by
  rw [xlate, (region_eq_iff (r := .oam) rfl).mpr h]; rfl

/-- Outside the five plain regions an address is its own translation (rule R127). -/
theorem xlate_of_not_plain (h : (region a).plain = false) : xlate p m a = a := by
  unfold xlate
  cases hr : region a
  case ewram | iwram | palette | vram | oam => rw [hr] at h; cases h
  all_goals rfl

/-- The masked address lies in the bank-selection sub-range of video RAM (rule R125). -/
abbrev InBankRange (p : Config.Params) (a : Word) : Prop := p.vbankLo ≤ a &&& 0xFF01FFFF#32 ∧ a &&& 0xFF01FFFF#32 < p.vbankHi

/-- The offset a display mode adds in the bank-selection sub-range (rule R125). -/
def bankOffset (p : Config.Params) (m : BitVec 3) : Word := if Config.bitmapModeMin ≤ m then p.vbankOffBitmap else p.vbankOffTile

theorem xlate_vram_inside (h : sel a = 0x06#8) (hb : InBankRange p a) : xlate p m a = (a &&& 0xFF01FFFF#32) + bankOffset p m := by
  rw [xlate, (region_eq_iff (r := .vram) rfl).mpr h, bankOffset, apply_ite ((a &&& 0xFF01FFFF#32) + ·)]
  exact if_pos hb

theorem xlate_vram_outside (h : sel a = 0x06#8) (hb : ¬ InBankRange p a) : xlate p m a = a &&& 0xFF01FFFF#32 := by
  rw [xlate, (region_eq_iff (r := .vram) rfl).mpr h]
  exact if_neg hb

/-- Outside video RAM the translation does not look at the display mode. -/
theorem xlate_mode_irrel (k : BitVec 3) (h : sel a ≠ 0x06#8) : xlate p m a = xlate p k a := by
  have hr : region a ≠ .vram := mt (region_eq_iff rfl).mp h
  unfold xlate
  cases hreg : region a
  case vram => exact absurd hreg hr
  all_goals rfl

end

theorem bankOffset_toNat (p : Config.Params) (m : BitVec 3) :
    (bankOffset p m).toNat = if 3 ≤ m.toNat then p.vbankOffBitmap.toNat else p.vbankOffTile.toNat := by
  rw [bankOffset, apply_ite BitVec.toNat]
  rfl

/-- Masked video RAM in arithmetic. -/
theorem vram_toNat {a : Word} (h : sel a = 0x06#8) : (a &&& 0xFF01FFFF#32).toNat = 0x06000000 + a.toNat % 0x20000 := by
  rw [toNat_and_mask (n := 17) rfl rfl (by decide), h]; rfl

theorem inBankRange_iff (p : Config.Params) {a : Word} (h : sel a = 0x06#8) :
    InBankRange p a ↔ p.vbankLo.toNat ≤ 0x06000000 + a.toNat % 0x20000 ∧ 0x06000000 + a.toNat % 0x20000 < p.vbankHi.toNat := by
  simp only [InBankRange, BitVec.le_def, BitVec.lt_def, vram_toNat h]

/-- Settles O10: each arm of the translation, its mask read as a remainder. -/
theorem translationIsModuloTheCanonicalSize : Obligations.TranslationIsModuloTheCanonicalSize := by
  intro p m a
  refine ⟨fun h => ?_, fun h => ?_, fun h => ?_, fun h => ?_, fun h => ⟨fun hb => ?_, fun hb => ?_⟩, fun h2 h3 h5 h6 h7 => ?_⟩
  · rw [xlate_ewram p m h, toNat_and_mask (n := 18) rfl rfl (by decide), h]; rfl
  · rw [xlate_iwram p m h, toNat_and_mask (n := 15) rfl rfl (by decide), h]; rfl
  · rw [xlate_palette p m h, toNat_and_mask (n := 10) rfl rfl (by decide), h]; rfl
  · rw [xlate_oam p m h, toNat_and_mask (n := 10) rfl rfl (by decide), h]; rfl
  · rw [xlate_vram_inside p m h ((inBankRange_iff p h).mpr hb), BitVec.toNat_add, vram_toNat h, bankOffset_toNat]
  · rw [xlate_vram_outside p m h (mt (inBankRange_iff p h).mp hb), vram_toNat h]
  · exact xlate_of_not_plain p m (region_not_plain h2 h3 h5 h6 h7)

/-- Settles O14: the run across the selector change evaluates in the arms of its two ends; the masks keep the selector; the mode is
looked at in the bank sub-range only. -/
theorem cornerCasesOfTranslation : Obligations.CornerCasesOfTranslation := by
  intro p m k a
  refine ⟨⟨?_, ?_⟩, fun mask hmask => ?_, xlate_mode_irrel p m k, fun h hb => ?_⟩
  · exact xlate_ewram p m rfl
  · exact xlate_iwram p m rfl
  · have hsel : sel mask = 0xFF#8 := by
      simp only [List.mem_cons, List.not_mem_nil, or_false] at hmask
      rcases hmask with rfl | rfl | rfl | rfl <;> rfl
    exact sel_and_mask hsel a
  · rw [xlate_vram_outside p m h hb, xlate_vram_outside p k h hb]

end Sys2Proof.Machine
end

section
/-! Rules R141 to R146 and R150: the eligibility check as the conjunction of its conditions, and each condition at one element, at a
fixed destination and at the threshold of the overlap guard. -/

namespace Sys2Proof

/-- No step taken: the cursor is where it was, whatever its direction. -/
theorem adv_zero (a : Word) (w : Width) (d : StepDir) : adv a 0 w d = a := by
  cases d with
  | inc => simp [adv]
  | dec => simp [adv]
  | fix => rfl

theorem absDiff_lt_iff {a b : Word} {k : Nat} : absDiff a b < k ↔ a.toNat < b.toNat + k ∧ b.toNat < a.toNat + k := by
  unfold absDiff
  split <;> omega

end Sys2Proof

namespace Sys2Proof.Machine

/-- Rule R146 as a conjunction: source step, destination linearity, the two allow-lists, source selector, overlap guard. -/
theorem elig_iff {s : State} {src dst : Word} {ss ds : StepDir} {n : Nat} {w : Width} :
    elig s src dst ss ds n w = true ↔
      ss = .inc ∧ s.xlate (adv dst (n - 1) w ds) = s.xlate dst + BitVec.ofNat 32 (spanOf n w) ∧
        srcAllowed src = true ∧ dstAllowed dst = true ∧ sel (adv src (n - 1) w ss) = sel src ∧
        Config.overlapMin ≤ absDiff dst src := by
  simp only [elig, Bool.and_eq_true, decide_eq_true_eq, Bool.not_eq_true', decide_eq_false_iff_not, Nat.not_lt, and_assoc]

/-- The overlap guard passes when one address is 32 bytes or more above the other (rule R145). -/
theorem overlapGuard_passes_iff {src dst : Word} :
    Config.overlapMin ≤ absDiff dst src ↔ src.toNat + 32 ≤ dst.toNat ∨ dst.toNat + 32 ≤ src.toNat := by
  rw [← Nat.not_lt, absDiff_lt_iff, Config.overlapMin]
  omega

/-- From two elements to the largest count, the two ends of a run are a span apart that is not 0 as a word. -/
theorem ofNat_spanOf_ne_zero {n : Nat} (h1 : 1 < n) (hmax : n ≤ 0x10000) (w : Width) : BitVec.ofNat 32 (spanOf n w) ≠ 0#32 := by
  intro h
  have hmod : spanOf n w % 2 ^ 32 = 0 := by simpa using congrArg BitVec.toNat h
  cases w <;> simp only [spanOf, Width.bytes] at hmod <;> omega

section
variable (s : State) (src dst : Word) (ss ds : StepDir) (w : Width) {n : Nat}

/-- Addresses less than 32 bytes apart, either way, are rejected (rule R145). -/
theorem elig_of_close (h : dst.toNat < src.toNat + 32 ∧ src.toNat < dst.toNat + 32) : elig s src dst ss ds n w = false := by
  refine Bool.eq_false_iff.mpr fun he => ?_
  obtain ⟨-, -, -, -, -, hfar⟩ := elig_iff.mp he
  exact absurd (absDiff_lt_iff.mpr h) hfar.not_gt

/-- One element is its own first and last, so the conditions on the ends hold and the other three remain (rule R150 (a)). -/
theorem elig_one_iff : elig s src dst ss ds 1 w = true ↔
    ss = .inc ∧ srcAllowed src = true ∧ dstAllowed dst = true ∧ (src.toNat + 32 ≤ dst.toNat ∨ dst.toNat + 32 ≤ src.toNat) := by
  have hspan : BitVec.ofNat 32 (spanOf 1 w) = 0#32 := by simp [spanOf]
  rw [elig_iff, Nat.sub_self, adv_zero, adv_zero, hspan, BitVec.add_zero, overlapGuard_passes_iff]
  simp only [true_and]

/-- A fixed destination of several elements ends where it begins, which is not a span further (rule R150 (b)). -/
theorem elig_fixed_dst (h1 : 1 < n) (hmax : n ≤ 0x10000) : elig s src dst ss .fix n w = false := by
  refine Bool.eq_false_iff.mpr fun he => ?_
  obtain ⟨-, hlin, -⟩ := elig_iff.mp he
  exact ofNat_spanOf_ne_zero h1 hmax w (BitVec.self_eq_add_right.mp hlin)

/-- A source step that is not positive is rejected (rule R141). -/
theorem elig_of_ss_ne_inc {ss : StepDir} (h : ss ≠ .inc) : elig s src dst ss ds n w = false :=
  Bool.eq_false_iff.mpr fun he => h (elig_iff.mp he).1

end

/-- Settles O21: each condition by its lemma, the threshold in both directions by evaluation at reset. -/
theorem conditionsOfTheEligibilityCheck : Obligations.ConditionsOfTheEligibilityCheck := by
  refine ⟨fun s src dst ss ds n w => ⟨?_, ?_, ?_, ?_⟩, ?_, ?_, ?_⟩
  · exact elig_of_close s src dst ss ds w
  · exact elig_one_iff s src dst ss ds w
  · exact elig_fixed_dst s src dst ss w
  · exact elig_of_ss_ne_inc s src dst ds w
  · decide
  · decide
  · exact elig_of_close State.reset 0x02000000#32 0x0200001F#32 .inc .inc .w32 (by decide)

end Sys2Proof.Machine
end

section
/-! Rules R79, R162 and R164 for the count 0: the first branch of the path choice and of the code-invalidate request. -/

namespace Sys2Proof.Machine

/-- The path of a count of 0 is chosen before the addresses are looked at (rule R164). -/
@[simp] theorem pathOf_zero (s : State) (src dst : Word) (ss ds : StepDir) (w : Width) : pathOf s src dst 0 ss ds w = .empty :=
  if_pos rfl

/-- A range of no element is not put out on port `COH` (rule R79). -/
@[simp] theorem State.requestCodeInvalidate_zero (s : State) (dst : Word) (ds : StepDir) (w : Width) :
    s.requestCodeInvalidate dst 0 ds w = s :=
  if_pos rfl

/-- Settles O25: the transfer, its path and its request each take their branch for a count of 0. -/
theorem aTransferOfNoElementDoesNothing : Obligations.ATransferOfNoElementDoesNothing := by
  intro s src dst ss ds w
  exact ⟨xfer_zero src dst ss ds w s, pathOf_zero s src dst ss ds w, s.requestCodeInvalidate_zero dst ds w⟩

end Sys2Proof.Machine
end

section
/-! The channel state machine (44_channel_fsm.md): what a `CMD` without a transfer leaves, as the exact next state. -/

namespace Sys2Proof.Machine

/-! ### The control word alone -/

theorem storeControl_of_accepts {s : State} {c : Channel} (h : s.acceptsCmd c) (v : Half) :
    storeControl c v s = .next (s.setCtrl c v) :=
  acceptCmd_of_accepts h _

/-- Settles O31: an update is the store of the control word (rules R191, R196, R197). -/
theorem updatesStoreTheControlWordOnly : Obligations.UpdatesStoreTheControlWordOnly := fun _ v _ h =>
  ⟨storeControl_of_accepts h v, storeControl_of_accepts h v⟩

/-- Settles O32: a start that starts nothing is the store of the control word, too (rules R200, R203, R204). -/
theorem ignoredStartsStoreTheControlWordOnly : Obligations.IgnoredStartsStoreTheControlWordOnly := fun _ v _ =>
  ⟨fun h => storeControl_of_accepts h v, fun h => storeControl_of_accepts h v, fun h => storeControl_of_accepts h v,
    fun h => storeControl_of_accepts h v⟩

/-! ### The shared levels -/

/-- What `updateSharedEnables` leaves where both ORs are known (rule R256). -/
theorem State.updateSharedEnables_of_levels {s : State} {b a : Bool} (hb : s.anyHb = b) (ha : s.anyAu = a) :
    s.updateSharedEnables = { s with
      forcedIrqMask := setMaskBit (setMaskBit s.forcedIrqMask s.params.forcedBlankBit b) s.params.forcedAudioBit a
      blankingIrqEnabled := b
      trace := .sharedEnables b a :: s.trace } := by
  rw [← hb, ← ha]
  rfl

/-- A channel record with the blanking flag set asserts the blanking level. -/
theorem State.setChan_anyHb_of_hb (s : State) (c : Channel) {x : Chan} (hx : x.hb = true) : (s.setChan c x).anyHb = true :=
  (State.anyHb_iff _).mpr ⟨c, by rw [State.setChan_chan_same, hx]⟩

/-- A channel record that keeps the audio flag keeps the audio level. -/
theorem State.setChan_anyAu_of_au_eq (s : State) {c : Channel} {x : Chan} (hx : x.au = (s.chan c).au) :
    (s.setChan c x).anyAu = s.anyAu := by
  have hkeep (d : Channel) : ((s.setChan c x).chan d).au = (s.chan d).au := by
    by_cases hd : d = c
    · rw [hd, State.setChan_chan_same, hx]
    · rw [State.setChan_chan_other s hd]
  simp only [State.anyAu, hkeep]

/-! ### The stop and the h-blank start -/

theorem execCtrlStop_of_accepts {s : State} {c : Channel} (h : s.acceptsCmd c) (v : Half) :
    execCtrlStop c v s = .next ((s.setCtrl c v).stop c) :=
  acceptCmd_of_accepts h _

/-- Settles O33: `stop` clears the record, and the ORs after it are those over the other channels. -/
theorem stopClearsTheChannelAndReevaluatesTheLevels : Obligations.StopClearsTheChannelAndReevaluatesTheLevels := by
  intro c v s h
  have hexec : exec (.ctrlStop c v) s = .next ((s.setCtrl c v).stop c) := execCtrlStop_of_accepts h v
  refine ⟨_, _, State.stop_anyHb (s.setCtrl c v) c, State.stop_anyAu (s.setCtrl c v) c, hexec.trans ?_⟩
  obtain ⟨t, hstop, rfl⟩ := (s.setCtrl c v).stop_eq c
  rw [hstop]
  rfl

/-- Settles O36: the record an h-blank start arms has the blanking flag set and keeps the audio flag, which gives both ORs. -/
theorem hblankStartArmsOrIsDropped : Obligations.HblankStartArmsOrIsDropped := by
  intro c v s h
  have hexec : exec (.startHbl c v) s = _ := execStartHbl_eq h
  rw [hexec]
  refine ⟨fun hd => if_pos hd, fun hd => ⟨s.anyAu, s.anyAu_iff, ?_⟩⟩
  rw [if_neg (Bool.eq_false_iff.mp hd)]
  exact congrArg _ (State.updateSharedEnables_of_levels ((s.setCtrl c v).setChan_anyHb_of_hb c rfl)
    ((s.setCtrl c v).setChan_anyAu_of_au_eq rfl))

end Sys2Proof.Machine
end

section
/-! The triggered handler (45_triggered_handler.md): the strobe that serves no channel. -/

namespace Sys2Proof.Machine

/-- An accepted v-blank strobe leaves the state as it is: no channel is served (rule R237). -/
theorem execTrigVblank_of_initialised {s : State} (h : s.initialised = true) : execTrigVblank s = .next s :=
  acceptStrobe_of_initialised h _

/-- Settles O47: what the strobe does once accepted is nothing. -/
theorem vblankChangesNothing : Obligations.VblankChangesNothing := fun _ h => execTrigVblank_of_initialised h

end Sys2Proof.Machine
end

section
/-! The exceptions (60_exceptions.md): the shared levels, and what stays of the forced mask. -/

namespace Sys2Proof.Machine

/-- A bit of the forced mask that belongs to neither level keeps its value (rule R256). -/
theorem State.updateSharedEnables_testBit_other (s : State) {b : Nat} (hBlank : b ≠ s.params.forcedBlankBit)
    (hAudio : b ≠ s.params.forcedAudioBit) : s.updateSharedEnables.forcedIrqMask.testBit b = s.forcedIrqMask.testBit b := by
  rw [State.updateSharedEnables_forcedIrqMask, setMaskBit_other _ hAudio, setMaskBit_other _ hBlank]

/-- Settles O34: the driven levels are the two ORs, each true exactly if some channel holds its flag. -/
theorem sharedEnablesAreTheOrOfTheFlags : Obligations.SharedEnablesAreTheOrOfTheFlags := by
  intro s hp
  obtain ⟨hBlank, hEnabled, hAudio⟩ := State.updateSharedEnables_levels hp
  exact ⟨(Bool.eq_iff_iff.mp hBlank).trans s.anyHb_iff, (Bool.eq_iff_iff.mp hEnabled).trans s.anyHb_iff,
    (Bool.eq_iff_iff.mp hAudio).trans s.anyAu_iff, fun _ => s.updateSharedEnables_testBit_other,
    _, _, _, rfl⟩

end Sys2Proof.Machine
end

section
/-! Reset (70_reset_and_hazards.md): the initialiser outside a nesting window. -/

namespace Sys2Proof.Machine

/-- Outside a window the initialiser is accepted, whether the block was initialised or not (rules R266, R290). -/
theorem execInit_of_window_eq_none {s : State} (h : s.window = none) :
    execInit s = .next ({ s with initialised := true, chans := Quad.all Chan.reset }).updateSharedEnables := by
  unfold execInit
  rw [h]
  rfl

/-- No reset record holds the blanking flag, so the blanking OR over four of them is low. -/
theorem State.anyHb_of_chans_reset {s : State} (h : s.chans = Quad.all Chan.reset) : s.anyHb = false := by
  simp [State.anyHb, State.chan, h, Chan.reset]

/-- No reset record holds the audio flag, so the audio OR over four of them is low. -/
theorem State.anyAu_of_chans_reset {s : State} (h : s.chans = Quad.all Chan.reset) : s.anyAu = false := by
  simp [State.anyAu, State.chan, h, Chan.reset]

/-- Settles O51: the initialiser resets the four records, and over reset records both ORs are low. -/
theorem initResetsTheChannelsAndNothingElse : Obligations.InitResetsTheChannelsAndNothingElse := by
  intro s h
  have hexec : exec .init s = _ := execInit_of_window_eq_none h
  rw [hexec]
  exact congrArg _ (State.updateSharedEnables_of_levels (State.anyHb_of_chans_reset rfl) (State.anyAu_of_chans_reset rfl))

end Sys2Proof.Machine
end

section
/-! Rules R90, R94 to R97, R101: the two round trips between operations and words, words of the table, and the step and width
fields of a control word. -/

namespace Sys2Proof

/-! ### Operation words as table words -/

/-- The number of an operation word, at the size the table gives it, stands for the word. -/
theorem opWordOf_number (o : OpWord) : opWordOf o.nbits o.number = some o := by
  cases o with
  | dw d =>
    have hd : d.toNat < 2 ^ 19 := d.isLt
    rw [OpWord.nbits, OpWord.number, opWordOf, if_neg (by decide), if_pos hd, BitVec.ofNat_toNat, BitVec.setWidth_eq]
  | ev e =>
    have he : e.toNat < 16 := e.isLt
    rw [OpWord.nbits, OpWord.number, opWordOf, if_pos (by decide), if_pos he, BitVec.ofNat_toNat, BitVec.setWidth_eq]

/-- A word of the table decodes as its operation word does. -/
theorem decodeTableWord_number {o : OpWord} {i : Instr} (h : decodeOp o = .ok i) : decodeTableWord o.nbits o.number = some i := by
  rw [decodeTableWord, opWordOf_number]
  simp only [h]

/-! ### Decoding what was encoded -/

theorem startsWithTiming_iff {v : Half} {t : BitVec 2} :
    startsWithTiming v t = true ↔ ctlEn v = true ∧ ctlXreq v = false ∧ ctlTiming v = t := by
  simp [startsWithTiming, and_assoc]

/-- A start that reaches the timing dispatch: the decoder follows its timing. -/
theorem decodeDw_of_startsWithTiming (c : Channel) {v : Half} {t : BitVec 2} (h : startsWithTiming v t = true) {i : Instr}
    (hi : ctlXreq v = false → ctlTiming v = t → decodeStart c v = i) : decodeDw (decodeWord c false v) = i := by
  obtain ⟨hen, hx, ht⟩ := startsWithTiming_iff.mp h
  rw [decodeDw_start c hen, hi hx ht]

/-- Decoding the encoding of a well-formed operation gives it back: the fields its row of rule R101 asks for select its branch. -/
theorem decodeOp_encode {i : Instr} (h : i.WellFormed) : decodeOp (encode i) = .ok i := by
  have special (c : Channel) {v : Half} (hv : startsWithTiming v 3#2 = true) :
      decodeDw (decodeWord c false v) = decodeSpecial c v :=
    decodeDw_of_startsWithTiming c hv fun hx ht => decodeStart_special c hx ht
  cases i with
  | ctrlUpd0 c v =>
    have hen : ctlEn v = false := by simpa [Instr.WellFormed, Instr.wellFormed] using h
    rw [encode, decodeOp, decodeDw_decodeWord, hen]
  | ctrlUpd1 c v =>
    have hen : ctlEn v = true := h
    rw [encode, decodeOp, decodeDw_decodeWord, hen]
  | ctrlStop c v =>
    have hen : ctlEn v = false := by simpa [Instr.WellFormed, Instr.wellFormed] using h
    rw [encode, decodeOp, decodeDw_decodeWord, hen]
  | startXreq c v =>
    obtain ⟨hen, hx⟩ : ctlEn v = true ∧ ctlXreq v = true := by simpa [Instr.WellFormed, Instr.wellFormed] using h
    rw [encode, decodeOp, decodeDw_start c hen, decodeStart_xreq c hx]
  | startImm c v => exact congrArg _ (decodeDw_of_startsWithTiming c h (decodeStart_immediate c))
  | startVbl c v => exact congrArg _ (decodeDw_of_startsWithTiming c h (decodeStart_vblank c))
  | startHbl c v => exact congrArg _ (decodeDw_of_startsWithTiming c h (decodeStart_hblank c))
  | startSpc0 v => exact congrArg _ (special 0 h)
  | startAud1 v => exact congrArg _ (special 1 h)
  | startAud2 v => exact congrArg _ (special 2 h)
  | startSpc3 v => exact congrArg _ (special 3 h)
  | init => rfl
  | trigVblank => rfl
  | trigHblank => rfl
  | trigAudio => rfl

/-- Settles O1: the operation word decodes to the operation, and its number at the table's size stands for that word. -/
theorem decodeOfEncodeIsTheInstruction : Obligations.DecodeOfEncodeIsTheInstruction := fun _ h =>
  ⟨decodeOp_encode h, decodeTableWord_number (decodeOp_encode h)⟩

/-! ### Encoding what was decoded -/

/-- A vector that decodes is the vector of its strobe. -/
theorem decodeEv_wellFormed_and_encode {e : BitVec 4} {i : Instr} (h : decodeEv e = .ok i) : i.WellFormed ∧ encode i = .ev e := by
  unfold decodeEv at h
  split_ifs at h <;> (subst e; cases h; exact ⟨rfl, rfl⟩)

/-- Settles O2: a decode word is the encoding of what it decodes to, and so is a vector. -/
theorem encodeOfDecodeIsTheWord : Obligations.EncodeOfDecodeIsTheWord := by
  intro o i h
  cases o with
  | dw d =>
    cases h
    exact decodeDw_wellFormed_and_encode d
  | ev e => exact decodeEv_wellFormed_and_encode h

/-- Settles O5: each word evaluates through the decoder. -/
theorem wordsWrittenOutDecode : Obligations.WordsWrittenOutDecode :=
  ⟨rfl, rfl, rfl, rfl, rfl, rfl, rfl, rfl, rfl, rfl, rfl, rfl, rfl, rfl, rfl⟩

/-! ### Steps and width -/

/-- Settles O7: the two fields select their branches of `dstep` and `sstep`. -/
theorem stepsAndWidthOfAControlWord : Obligations.StepsAndWidthOfAControlWord := by
  intro v
  have hdst {k : BitVec 2} (h : v.extractLsb' 5 2 = k) : ctlDst v = k := h
  have hsrc {k : BitVec 2} (h : v.extractLsb' 7 2 = k) : ctlSrc v = k := h
  refine ⟨fun h => ?_, fun h => ?_, fun h => ?_, fun h => ?_, fun h => ?_, fun h => ?_, fun h => ?_, fun h => ?_, ?_⟩
  · rw [dstep, hdst h]; rfl
  · rw [dstep, hdst h]; rfl
  · rw [dstep, hdst h]; rfl
  · rw [dstep, hdst h]; rfl
  · rw [sstep, hsrc h]; rfl
  · rw [sstep, hsrc h]; rfl
  · rw [sstep, hsrc h]; rfl
  · exact Machine.sstep_eq_none_of_illegal h
  · rw [wbits, apply_ite Width.bytes]
    rfl

end Sys2Proof
end

section
/-! Rules R9, R32 to R35 and R68 over a step: the invariant, the contents of ROM and the parameters. -/

namespace Sys2Proof.Machine

/-! ### Serving a line, as an induction -/

/-- A relation that every step of the host, every `CMD` and every strobe establishes holds across any line served. -/
theorem serve_induction {P : State → State → Prop} (trans : ∀ {r s t}, P r s → P s t → P r t)
    (host : ∀ {s t}, HostFrame s t → P s t)
    (cmd : ∀ {c v s t}, exec (decodeDw (decodeWord c (s.eOld c) v)) s = .next t → P s t)
    (event : ∀ {e i s t}, decodeEv e = .ok i → exec i s = .next t → P s t)
    {l : HostLine} {s t : State} (h : serve l s = .next t) : P s t := by
  have command {ra v s t} (h : serveCmd ra v s = .next t) : P s t := by
    obtain ⟨c, -, hc⟩ := serveCmd_eq_next h
    exact cmd hc
  rcases serve_cases h with hf | ⟨ra, v, hc⟩ | ⟨e, he⟩ | ⟨c, n, u, ra, v, hu, hc⟩
  · exact host hf
  · exact command hc
  · obtain ⟨i, hi, hx⟩ := serveEv_eq_next he
    exact event hi hx
  · exact trans (host (hostCount_frame hu)) (command hc)

/-! ### The invariant -/

/-- The run waiting to be offered is outside the invariant. -/
theorem State.Inv.withScript {s : State} (h : s.Inv) (script : List Offer) : State.Inv { s with script := script } :=
  h.congr rfl rfl h.memory (fun _ => ⟨rfl, rfl, rfl⟩) (fun _ => rfl) rfl rfl rfl rfl

theorem serve_keepsInv {l : HostLine} {s t : State} (h : serve l s = .next t) : s.Inv → t.Inv :=
  serve_induction (P := fun s t => s.Inv → t.Inv) (fun h k hI => k (h hI)) (fun h hI => h.keepsInv hI)
    (fun h hI => exec_cmd_keepsInv hI h) (fun he h hI => exec_event_keepsInv hI he h) h

theorem serviceWindow_keepsInv {w : Window} {s t : State} (hI : s.Inv) (hw : s.window = some w)
    (h : serviceWindow w s = .next t) : t.Inv := by
  rcases serviceWindow_cases w s with ⟨hi, e⟩ | e
  · exact hI.advanceWindow hw hi (e ▸ h)
  · exact hI.finishWindow hw (e ▸ h)

/-- Settles O60: a step serves a line, lets the transfer in the window go on, or idles; each keeps the invariant. -/
theorem everyStepKeepsTheInvariant : Obligations.EveryStepKeepsTheInvariant := by
  intro s t hI h
  rcases step_cases s with ⟨l, k, rest, -, e⟩ | ⟨w, hw, e⟩ | ⟨-, e⟩ <;> rw [e] at h
  · exact serve_keepsInv h (hI.withScript rest)
  · exact serviceWindow_keepsInv hI hw h
  · cases h
    exact hI

/-- Settles O58: no channel is armed, no level is high, no byte is listed and no window is open. -/
theorem resetMeetsTheInvariant : Obligations.ResetMeetsTheInvariant where
  initialised := rfl
  params := by decide
  memory := ⟨List.Pairwise.nil, by simp [State.reset]⟩
  channel c := by
    have hc : State.reset.chan c = Chan.reset := Quad.get_all _ c
    constructor <;> rw [hc] <;> simp [Chan.reset]
  levels := ⟨rfl, rfl, rfl⟩
  window _ h := nomatch h

/-- Settles O59: the clauses of `ChannelOk` read off; two flags at once would need two handlers. -/
theorem theInvariantGivesRulesR32AndR33 : Obligations.TheInvariantGivesRulesR32AndR33 := by
  intro s c hI
  have hok := hI.channel c
  refine ⟨hok.enabled, ?_⟩
  rintro ⟨hb, ha⟩
  have haudio := hok.audio.mp ha
  rcases hok.blanking.mp hb with h | h <;> rw [haudio] at h <;> cases h

/-! ### ROM and parameters -/

theorem serve_rom_params {l : HostLine} {s t : State} (h : serve l s = .next t) : t.rom = s.rom ∧ t.params = s.params :=
  serve_induction (P := fun s t => t.rom = s.rom ∧ t.params = s.params)
    (fun h k => ⟨k.1.trans h.1, k.2.trans h.2⟩) (fun h => ⟨h.rom, h.params⟩)
    (fun h => ⟨(exec_opFrame h).rom, (exec_opFrame h).params⟩) (fun _ h => ⟨(exec_opFrame h).rom, (exec_opFrame h).params⟩) h

/-- Settles O20: neither a line served nor the transfer in the window writes them. -/
theorem romAndParametersNeverChange : Obligations.RomAndParametersNeverChange := by
  intro s t h
  rcases step_cases s with ⟨l, k, rest, -, e⟩ | ⟨w, -, e⟩ | ⟨-, e⟩ <;> rw [e] at h
  · exact (serve_rom_params h :)
  · exact ⟨(serviceWindow_opFrame h).rom, (serviceWindow_opFrame h).params⟩
  · cases h
    exact ⟨rfl, rfl⟩

end Sys2Proof.Machine
end

section
/-! Rules R100, R103 and R129 to R131, R147: the rebase window, mirrors, linear runs and alignment of the translation; the runs that
pass the eligibility check. -/

namespace Sys2Proof.Machine

/-! ### Selectors and regions -/

/-- The region looks at the selector alone. -/
theorem region_congr {a b : Word} (h : sel a = sel b) : region a = region b := by
  unfold region
  rw [h]

theorem region_eq_rom_iff {a : Word} : region a = .rom ↔ 0x08000000 ≤ a.toNat ∧ a.toNat < 0x0E000000 := by
  have hsel : region a = .rom ↔ 0x08#8 ≤ sel a ∧ sel a ≤ 0x0D#8 := by
    simp only [region]
    generalize sel a = x
    revert x
    decide
  rw [hsel, BitVec.le_def, BitVec.le_def, sel_toNat]
  simp only [BitVec.toNat_ofNat]
  omega

theorem cartSpace_iff {a : Word} : cartSpace a = true ↔ 0x08000000 ≤ a.toNat := by
  rw [cartSpace, decide_eq_true_eq, BitVec.le_def, sel_toNat, Config.selRomLo]
  simp only [BitVec.toNat_ofNat]
  omega

/-- A plain region is one of the first eight selectors. -/
theorem toNat_lt_of_plain {a : Word} (h : (region a).plain = true) : a.toNat < 0x08000000 := by
  have hsel : sel a = (region a).plainSelector := (region_eq_iff h).mp rfl
  have hlt : (sel a).toNat < 8 := by
    rw [hsel]
    revert h
    cases region a <;> decide
  rw [sel_toNat] at hlt
  omega

/-! ### The rebase window -/

theorem inRebaseWindow_iff {p : Config.Params} {a : Word} :
    inRebaseWindow p a = true ↔ p.rebaseLo ≤ a ∧ a < p.rebaseHi := by
  simp [inRebaseWindow]

/-- What rule R9 says of a rebase window that is not empty. -/
theorem rebase_bounds {p : Config.Params} (h : p.ok = true) (hne : p.rebaseLo.toNat < p.rebaseHi.toNat) :
    0x08000000 ≤ (p.rebaseLo + p.rebaseDelta).toNat ∧
      (p.rebaseLo + p.rebaseDelta).toNat + (p.rebaseHi.toNat - p.rebaseLo.toNat) ≤ 0x0E000000 := by
  have hok : p.rebaseOk = true := by
    simp only [Config.Params.ok, Bool.and_eq_true] at h
    exact h.1.1.2
  simp only [Config.Params.rebaseOk, Bool.and_eq_true, Bool.or_eq_true, decide_eq_true_eq, BitVec.le_def] at hok
  exact hok.2.resolve_left hne.not_ge

theorem region_rebase_window {p : Config.Params} (h : p.ok = true) {a : Word} (hlo : p.rebaseLo ≤ a) (hhi : a < p.rebaseHi) :
    region (a + p.rebaseDelta) = .rom := by
  rw [BitVec.le_def] at hlo
  rw [BitVec.lt_def] at hhi
  have hb := rebase_bounds h (hlo.trans_lt hhi)
  rw [BitVec.toNat_add] at hb
  rw [region_eq_rom_iff, BitVec.toNat_add]
  omega

/-- Settles O9: the moved window neither wraps nor leaves the ROM selectors. -/
theorem rebaseLandsInRomAndSuchSourcesAreRejected : Obligations.RebaseLandsInRomAndSuchSourcesAreRejected := by
  intro p a hp
  refine ⟨fun hlo hhi => ?_, fun hout => ?_, ?_⟩
  · rw [rebase, if_pos (inRebaseWindow_iff.mpr ⟨hlo, hhi⟩)]
    exact ⟨rfl, region_rebase_window hp hlo hhi⟩
  · exact if_neg (mt inRebaseWindow_iff.mp hout)
  · rw [disallowed, Bool.or_eq_true, inRebaseWindow_iff, cartSpace_iff]

/-! ### Mirrors -/

/-- Outside video RAM the translation of a plain address is its selector and its offset in the canonical range. -/
theorem xlate_toNat_of_plain (p : Config.Params) (m : BitVec 3) {a : Word} (hp : (region a).plain = true)
    (hv : region a ≠ .vram) :
    (xlate p m a).toNat = 2 ^ 24 * (a.toNat / 2 ^ 24) + a.toNat % canonicalSize (region a) := by
  have hsel : sel a = (region a).plainSelector := (region_eq_iff hp).mp rfl
  rw [← sel_toNat]
  cases hr : region a <;> rw [hr] at hp hv hsel
  case ewram => rw [xlate_ewram p m hsel, toNat_and_mask (n := 18) rfl rfl (by decide)]; rfl
  case iwram => rw [xlate_iwram p m hsel, toNat_and_mask (n := 15) rfl rfl (by decide)]; rfl
  case palette => rw [xlate_palette p m hsel, toNat_and_mask (n := 10) rfl rfl (by decide)]; rfl
  case oam => rw [xlate_oam p m hsel, toNat_and_mask (n := 10) rfl rfl (by decide)]; rfl
  case vram => exact absurd rfl hv
  all_goals cases hp

/-- What the translation adds to masked video RAM: the mode's offset in the bank-selection sub-range, nothing elsewhere. -/
def bankMove (p : Config.Params) (m : BitVec 3) (v : Word) : Word :=
  if p.vbankLo ≤ v ∧ v < p.vbankHi then bankOffset p m else 0#32

theorem xlate_vram (p : Config.Params) (m : BitVec 3) {a : Word} (h : sel a = 0x06#8) :
    xlate p m a = (a &&& 0xFF01FFFF#32) + bankMove p m (a &&& 0xFF01FFFF#32) := by
  unfold bankMove
  by_cases hb : InBankRange p a
  · rw [xlate_vram_inside p m h hb, if_pos hb]
  · rw [xlate_vram_outside p m h hb, if_neg hb, BitVec.add_zero]

theorem and_mask_and_mask (a mask : Word) : a &&& mask &&& mask = a &&& mask := by
  rw [BitVec.and_assoc, BitVec.and_self]

/-- Settles O11: a mirror mask keeps the selector and masking twice is masking once; outside video RAM the translation is a mask or
the identity. -/
theorem mirrorsCollapseAndTranslationIsIdempotent : Obligations.MirrorsCollapseAndTranslationIsIdempotent := by
  intro p m a
  have keeps {mask : Word} {b : Byte} (hm : sel mask = 0xFF#8) (h : sel a = b) : sel (a &&& mask) = b :=
    (sel_and_mask hm a).trans h
  have h2 (h : sel a = 0x02#8) : xlate p m a = xlate p m (a &&& 0xFF03FFFF#32) := by
    rw [xlate_ewram p m h, xlate_ewram p m (keeps rfl h), and_mask_and_mask]
  have h3 (h : sel a = 0x03#8) : xlate p m a = xlate p m (a &&& 0xFF007FFF#32) := by
    rw [xlate_iwram p m h, xlate_iwram p m (keeps rfl h), and_mask_and_mask]
  have h5 (h : sel a = 0x05#8) : xlate p m a = xlate p m (a &&& 0xFF0003FF#32) := by
    rw [xlate_palette p m h, xlate_palette p m (keeps rfl h), and_mask_and_mask]
  have h7 (h : sel a = 0x07#8) : xlate p m a = xlate p m (a &&& 0xFF0003FF#32) := by
    rw [xlate_oam p m h, xlate_oam p m (keeps rfl h), and_mask_and_mask]
  refine ⟨h2, h3, h5, h7, fun h => ?_, fun h6 => ?_⟩
  · rw [xlate_vram p m h, xlate_vram p m (keeps rfl h), and_mask_and_mask]
  · by_cases e2 : sel a = 0x02#8
    · rw [xlate_ewram p m e2, ← h2 e2, xlate_ewram p m e2]
    by_cases e3 : sel a = 0x03#8
    · rw [xlate_iwram p m e3, ← h3 e3, xlate_iwram p m e3]
    by_cases e5 : sel a = 0x05#8
    · rw [xlate_palette p m e5, ← h5 e5, xlate_palette p m e5]
    by_cases e7 : sel a = 0x07#8
    · rw [xlate_oam p m e7, ← h7 e7, xlate_oam p m e7]
    have hself := xlate_of_not_plain p m (region_not_plain e2 e3 e5 h6 e7)
    rw [hself, hself]

/-! ### Linear runs -/

/-- A step that stays inside the selector of a plain address does not wrap. -/
theorem toNat_add_of_same_selector {a : Word} {k : Nat} (hp : (region a).plain = true)
    (hk : a.toNat / 2 ^ 24 = (a.toNat + k) / 2 ^ 24) :
    (a + BitVec.ofNat 32 k).toNat = a.toNat + k ∧ region (a + BitVec.ofNat 32 k) = region a := by
  have ha := toNat_lt_of_plain hp
  have hadd : (a + BitVec.ofNat 32 k).toNat = a.toNat + k := by
    rw [BitVec.toNat_add, BitVec.toNat_ofNat]
    omega
  refine ⟨hadd, region_congr (BitVec.eq_of_toNat_eq ?_)⟩
  rw [sel_toNat, sel_toNat, hadd, hk]

/-- An offset that moves by `k` modulo the canonical size moves by `k` exactly when it stays below that size. -/
theorem add_mod_eq_iff {a k P : Nat} (hP : 0 < P) : (a + k) % P = a % P + k ↔ a % P + k < P :=
  ⟨fun h => h ▸ Nat.mod_lt _ hP, fun h => by rw [← Nat.mod_add_mod, Nat.mod_eq_of_lt h]⟩

theorem canonicalSize_pos {r : Region} (h : r.plain = true) : 0 < canonicalSize r := by
  cases r <;> first | decide | cases h

theorem canonicalSize_le (r : Region) : canonicalSize r ≤ 2 ^ 24 := by
  cases r <;> decide

/-- Outside video RAM (rule R130): the translation moves with the address exactly where the offset stays in the canonical range. -/
theorem xlate_add_iff (p : Config.Params) (m : BitVec 3) {a : Word} {k : Nat} (hp : (region a).plain = true)
    (hv : region a ≠ .vram) (hk : a.toNat / 2 ^ 24 = (a.toNat + k) / 2 ^ 24) :
    xlate p m (a + BitVec.ofNat 32 k) = xlate p m a + BitVec.ofNat 32 k ↔
      a.toNat % canonicalSize (region a) + k < canonicalSize (region a) := by
  obtain ⟨hadd, hreg⟩ := toNat_add_of_same_selector hp hk
  have hlt := toNat_lt_of_plain hp
  have hpos := canonicalSize_pos hp
  have hsize := canonicalSize_le (region a)
  have hoff := Nat.mod_lt a.toNat hpos
  rw [← BitVec.toNat_inj, BitVec.toNat_add, xlate_toNat_of_plain p m hp hv,
    xlate_toNat_of_plain p m (by rwa [hreg]) (by rwa [hreg]), hreg, hadd, BitVec.toNat_ofNat, ← add_mod_eq_iff hpos]
  generalize canonicalSize (region a) = P at *
  generalize (a.toNat + k) % P = y
  omega

/-- The masked address of video RAM moves with the address inside the canonical range. -/
theorem vram_mask_add {a : Word} {j : Nat} (h : sel a = 0x06#8) (h' : sel (a + BitVec.ofNat 32 j) = 0x06#8)
    (hadd : (a + BitVec.ofNat 32 j).toNat = a.toNat + j) (hj : a.toNat % 0x20000 + j < 0x20000) :
    (a + BitVec.ofNat 32 j) &&& 0xFF01FFFF#32 = (a &&& 0xFF01FFFF#32) + BitVec.ofNat 32 j := by
  rw [← BitVec.toNat_inj, BitVec.toNat_add, vram_toNat h, vram_toNat h', hadd, BitVec.toNat_ofNat]
  omega

/-- In video RAM (rule R130): the translation moves with the address where the bank moves both alike. -/
theorem xlate_vram_add (p : Config.Params) (m : BitVec 3) {a : Word} {j : Nat} (h : sel a = 0x06#8)
    (h' : sel (a + BitVec.ofNat 32 j) = 0x06#8) (hadd : (a + BitVec.ofNat 32 j).toNat = a.toNat + j)
    (hj : a.toNat % 0x20000 + j < 0x20000)
    (hbank : bankMove p m ((a + BitVec.ofNat 32 j) &&& 0xFF01FFFF#32) = bankMove p m (a &&& 0xFF01FFFF#32)) :
    xlate p m (a + BitVec.ofNat 32 j) = xlate p m a + BitVec.ofNat 32 j := by
  rw [xlate_vram p m h, xlate_vram p m h', hbank, vram_mask_add h h' hadd hj, add_right_comm]

/-- Two masked addresses on the same side of each bank bound move alike. -/
theorem bankMove_congr {p : Config.Params} (m : BitVec 3) {v x : Word} (hlo : v.toNat < p.vbankLo.toNat ↔ x.toNat < p.vbankLo.toNat)
    (hhi : v.toNat < p.vbankHi.toNat ↔ x.toNat < p.vbankHi.toNat) : bankMove p m x = bankMove p m v := by
  refine if_congr ?_ rfl rfl
  simp only [BitVec.le_def, BitVec.lt_def, ← Nat.not_lt, hlo, hhi]

theorem bankMove_of_no_offset {p : Config.Params} {m : BitVec 3} (h : bankOffset p m = 0#32) (v : Word) : bankMove p m v = 0#32 := by
  rw [bankMove, h, ite_self]

/-- Settles O12: a shorter run of the same start stays in the canonical range and, in video RAM, on the same sides of the bank. -/
theorem translationIsLinearInsideACanonicalRange : Obligations.TranslationIsLinearInsideACanonicalRange := by
  intro p m a k hp hk
  have shorter {j : Nat} (hj : j ≤ k) : a.toNat / 2 ^ 24 = (a.toNat + j) / 2 ^ 24 := by omega
  refine ⟨fun hv => ⟨xlate_add_iff p m hp hv hk, fun hlt j hj => ?_⟩, fun hr hlt hside j hj => ?_⟩
  · exact (xlate_add_iff p m hp hv (shorter hj)).mpr (by omega)
  · have hsel : sel a = 0x06#8 := (region_eq_iff (r := .vram) rfl).mp hr
    obtain ⟨hadd, hreg⟩ := toNat_add_of_same_selector hp (shorter hj)
    have hsel' : sel (a + BitVec.ofNat 32 j) = 0x06#8 := (region_eq_iff (r := .vram) rfl).mp (hreg.trans hr)
    have hmod : (a.toNat + j) % 0x20000 = a.toNat % 0x20000 + j := (add_mod_eq_iff (by decide)).mpr (by omega)
    refine xlate_vram_add p m hsel hsel' hadd (by omega) ?_
    rcases hside with ⟨hlo, hhi⟩ | hzero
    · refine bankMove_congr m ?_ ?_ <;> (rw [vram_toNat hsel, vram_toNat hsel', hadd, hmod]; omega)
    · have hoff : bankOffset p m = 0#32 := hzero
      rw [bankMove_of_no_offset hoff, bankMove_of_no_offset hoff]

/-! ### Alignment -/

theorem bankOffset_aligned {p : Config.Params} (h : p.ok = true) (m : BitVec 3) : (bankOffset p m).toNat % 4 = 0 := by
  simp only [Config.Params.ok, Bool.and_eq_true, decide_eq_true_eq] at h
  obtain ⟨⟨⟨⟨⟨-, htile⟩, hbitmap⟩, -⟩, -⟩, -⟩ := h
  rw [bankOffset_toNat]
  split <;> assumption

theorem bankMove_aligned {p : Config.Params} (h : p.ok = true) (m : BitVec 3) (v : Word) : (bankMove p m v).toNat % 4 = 0 := by
  unfold bankMove
  split
  · exact bankOffset_aligned h m
  · rfl

/-- The translation keeps the last two bits of an address (rule R131). -/
theorem xlate_mod_four {p : Config.Params} (h : p.ok = true) (m : BitVec 3) (a : Word) :
    (xlate p m a).toNat % 4 = a.toNat % 4 := by
  by_cases hp : (region a).plain = true
  · by_cases hv : region a = .vram
    · have hsel : sel a = 0x06#8 := (region_eq_iff (r := .vram) rfl).mp hv
      have hmove := bankMove_aligned h m (a &&& 0xFF01FFFF#32)
      rw [xlate_vram p m hsel, BitVec.toNat_add, vram_toNat hsel]
      omega
    · have hdvd : 4 ∣ canonicalSize (region a) := by cases region a <;> decide
      rw [xlate_toNat_of_plain p m hp hv, Nat.add_mod, Nat.mod_mod_of_dvd _ hdvd]
      omega
  · rw [xlate_of_not_plain p m (Bool.eq_false_iff.mpr hp)]

/-- Settles O13: the last two bits decide both alignments. -/
theorem translationKeepsAlignment : Obligations.TranslationKeepsAlignment := by
  intro p m a hp
  have hmod := xlate_mod_four hp m a
  exact ⟨fun h => by omega, fun h => by omega⟩

/-! ### Eligible runs -/

/-- Outside video RAM a run of a plain region that ends in its own selector, where a linear copy puts its end, is linear. -/
theorem linearRun_of_ends {s : State} {a : Word} {n : Nat} {w : Width} (hmax : n ≤ 0x10000) (hp : (region a).plain = true)
    (hv : region a ≠ .vram) (hsel : sel (adv a (n - 1) w .inc) = sel a)
    (hend : s.xlate (adv a (n - 1) w .inc) = s.xlate a + BitVec.ofNat 32 ((n - 1) * w.bytes)) : s.linearRun a n w := by
  have hlt := toNat_lt_of_plain hp
  have hspan : (n - 1) * w.bytes ≤ 0x40000 := by cases w <;> simp only [Width.bytes] <;> omega
  have hdiv : a.toNat / 2 ^ 24 = (a.toNat + (n - 1) * w.bytes) / 2 ^ 24 := by
    have h := congrArg BitVec.toNat hsel
    rw [sel_toNat, sel_toNat, adv, BitVec.toNat_add, BitVec.toNat_ofNat] at h
    omega
  have hoff := (xlate_add_iff s.params s.dispMode hp hv hdiv).mp hend
  intro i hi
  have hle : i * w.bytes ≤ (n - 1) * w.bytes := Nat.mul_le_mul_right _ (by omega)
  have hdiv' : a.toNat / 2 ^ 24 = (a.toNat + i * w.bytes) / 2 ^ 24 := by omega
  obtain ⟨-, hreg⟩ := toNat_add_of_same_selector hp hdiv'
  exact ⟨by rw [adv, hreg]; exact hp, (xlate_add_iff s.params s.dispMode hp hv hdiv').mpr (by omega)⟩

/-- Settles O22: the check has the end of the destination run and the selector of the source run; the premises give the rest. -/
theorem eligibleRunsAreLinearOutsideVideoRam : Obligations.EligibleRunsAreLinearOutsideVideoRam := by
  intro s src dst ds n w _ hmax helig hds
  obtain ⟨-, hend, -, hdst, hsrcSel, -⟩ := elig_iff.mp helig
  have hadv : adv dst (n - 1) w ds = adv dst (n - 1) w .inc := by
    rcases hds with rfl | rfl
    · rfl
    · rw [adv_zero, adv_zero]
  rw [hadv] at hend
  exact ⟨fun hv hsel => linearRun_of_ends hmax hdst hv hsel hend,
    fun hp hv hsrcEnd => linearRun_of_ends hmax hp hv hsrcSel hsrcEnd⟩

end Sys2Proof.Machine
end

section
/-! Rules R66 to R69: the element access primitives in the plain regions, outside them, and in cartridge ROM. -/

namespace Sys2Proof.Machine

/-! ### Plain regions -/

/-- Settles O15: the write is the element write at the translated address, and the read is the element read there. -/
theorem aWriteToAPlainRegionIsReadBack : Obligations.AWriteToAPlainRegionIsReadBack := by
  intro s a w v hm hp
  obtain ⟨m, hwrite, hwf⟩ := s.backWrite_eq (s.xlate a) w v
  have hread : State.memRead { s with mem := m } a w = (elem w v, { s with mem := m }) := by
    have hx : State.xlate { s with mem := m } a = s.xlate a := rfl
    rw [State.memRead_plain hp, hx, ← hwrite, State.backRead_backWrite hm]
  refine ⟨m, ?_, hread, fun x hx => ?_, hwf hm⟩
  · rw [← hwrite]
    exact if_pos hp
  · have hother := s.backWrite_byteAt_other hx v
    rwa [hwrite] at hother

/-! ### Outside the plain regions -/

/-- An element of no readable class is the open-bus value. -/
theorem State.memRead_unreadable {a : Word} (hp : (region a).plain = false) (hr : region a ≠ .rom)
    (hd : (region a).device = false) (s : State) (w : Width) : s.memRead a w = (elem w s.tr, s) := by
  simp [State.memRead, hp, hr, hd]

theorem State.memRead_device {a : Word} (hd : (region a).device = true) (s : State) (w : Width) :
    s.memRead a w = s.devRead a w := by
  have hp : (region a).plain = false := by
    revert hd
    cases region a <;> decide
  have hr : region a ≠ .rom := by
    intro hr
    rw [hr] at hd
    cases hd
  simp [State.memRead, hp, hr, hd]

/-- A write to no writable class is dropped. -/
theorem State.memWrite_dropped {a : Word} (hp : (region a).plain = false) (hd : (region a).device = false) (s : State) (w : Width)
    (v : Word) : s.memWrite a w v = .next s := by
  simp [State.memWrite, hp, hd]

/-- A control half-word is part of the register view. -/
theorem isCtrlByte_of_not_slot {a : Word} (h : isSlotByte a = false) : isCtrlByte a = false := by
  have hnone : slotOf a = none := by simpa [isSlotByte] using h
  rw [isCtrlByte, hnone]

theorem coversByte_isCtrlByte_of_not_slot {a : Word} {w : Width} (h : coversByte isSlotByte a w = false) :
    coversByte isCtrlByte a w = false := by
  cases w with
  | w16 =>
    simp only [coversByte, Bool.or_eq_false_iff] at h ⊢
    exact ⟨isCtrlByte_of_not_slot h.1, isCtrlByte_of_not_slot h.2⟩
  | w32 =>
    simp only [coversByte, Bool.or_eq_false_iff] at h ⊢
    obtain ⟨⟨⟨h0, h1⟩, h2⟩, h3⟩ := h
    exact ⟨⟨⟨isCtrlByte_of_not_slot h0, isCtrlByte_of_not_slot h1⟩, isCtrlByte_of_not_slot h2⟩, isCtrlByte_of_not_slot h3⟩

/-- A store that lands on no slot leaves the register view. -/
theorem State.slotWrite_of_not_slot {a : Word} {w : Width} (h : coversByte isSlotByte a w = false) (s : State) (v : Word) :
    s.slotWrite a w v = s := by
  obtain ⟨view, hview, -, hkeep⟩ := s.slotWrite_eq a w v
  rw [hview, hkeep h]

/-- A device write off the register view is recorded and changes nothing else. -/
theorem State.memWrite_device_of_not_slot {a : Word} {w : Width} (hd : (region a).device = true)
    (h : coversByte isSlotByte a w = false) (s : State) (v : Word) :
    s.memWrite a w v = .next (s.emit (.devWrite a w v)) := by
  have hp : (region a).plain = false := by
    revert hd
    cases region a <;> decide
  simp [State.memWrite, hp, hd, coversByte_isCtrlByte_of_not_slot h, State.slotWrite_of_not_slot h]

/-- Settles O17: the class of the region selects the branch of `MemRead` and of `MemWrite`. -/
theorem accessesOutsidePlainRegions : Obligations.AccessesOutsidePlainRegions := by
  intro s a w v
  refine ⟨fun hr => ?_, fun hr => ?_, fun hr => ?_⟩
  · rcases hr with hr | hr <;> exact State.memRead_unreadable (by rw [hr]; rfl) (by rw [hr]; decide) (by rw [hr]; rfl) s w
  · rcases hr with hr | hr | hr <;> exact State.memWrite_dropped (by rw [hr]; rfl) (by rw [hr]; rfl) s w v
  · have hd : (region a).device = true := by rcases hr with hr | hr <;> (rw [hr]; rfl)
    exact ⟨State.memRead_device hd s w, fun h => State.memWrite_device_of_not_slot hd h s v⟩

/-! ### The block around an address -/

theorem blockMask_and_toNat (p : Config.Params) (a : Word) : (a &&& p.blockMask).toNat = a.toNat % 2 ^ p.blockBits := by
  have ha := a.isLt
  rw [BitVec.toNat_and, Config.Params.blockMask, BitVec.toNat_ofNat]
  by_cases hb : p.blockBits ≤ 32
  · have hpow : 2 ^ p.blockBits ≤ 2 ^ 32 := Nat.pow_le_pow_right (by decide) hb
    have hpos : 0 < 2 ^ p.blockBits := Nat.two_pow_pos _
    rw [Nat.mod_eq_of_lt (by omega), Nat.and_two_pow_sub_one_eq_mod]
  · have hsplit : 2 ^ p.blockBits = 2 ^ 32 * 2 ^ (p.blockBits - 32) := by rw [← pow_add]; congr 1; omega
    have hpos : 0 < 2 ^ (p.blockBits - 32) := Nat.two_pow_pos _
    have hlow : (2 ^ p.blockBits - 1) % 2 ^ 32 = 2 ^ 32 - 1 := by omega
    rw [hlow, Nat.and_two_pow_sub_one_eq_mod, Nat.mod_eq_of_lt ha, Nat.mod_eq_of_lt (by omega)]

/-- An address is its block's first byte and its offset in the block. -/
theorem blockStart_add_offset (mask a : Word) : (a &&& ~~~mask) + (a &&& mask) = a := by
  rw [BitVec.add_eq_or_of_and_eq_zero]
  · rw [← BitVec.and_or_distrib_left, BitVec.or_comm, BitVec.or_not_self, BitVec.and_allOnes]
  · have h : ~~~mask &&& mask = 0#32 := by rw [BitVec.and_comm, BitVec.and_not_self]; rfl
    calc (a &&& ~~~mask) &&& (a &&& mask) = a &&& a &&& (~~~mask &&& mask) := by ac_rfl
      _ = 0#32 := by rw [h, BitVec.and_zero]

theorem blockStart_eq (p : Config.Params) (a : Word) :
    a &&& ~~~p.blockMask = BitVec.ofNat 32 (a.toNat - a.toNat % 2 ^ p.blockBits) := by
  have h := blockStart_add_offset p.blockMask a
  have hle := Nat.mod_le a.toNat (2 ^ p.blockBits)
  rw [← blockMask_and_toNat] at hle ⊢
  generalize a &&& ~~~p.blockMask = b at h ⊢
  generalize a &&& p.blockMask = k at h hle ⊢
  subst h
  bv_omega

/-- An aligned element lies inside its block (rule R68). -/
theorem mod_block_add_le {b n e : Nat} (he : e ∣ n) (hb : e ∣ b) (hpos : 0 < b) : n % b + e ≤ b := by
  have hlt := Nat.mod_lt n hpos
  obtain ⟨q, hq⟩ := (Nat.dvd_mod_iff hb).mpr he
  obtain ⟨r, hr⟩ := hb
  rw [hq, hr] at hlt ⊢
  have hqr : q + 1 ≤ r := Nat.lt_of_mul_lt_mul_left hlt
  calc e * q + e = e * (q + 1) := by ring
    _ ≤ e * r := Nat.mul_le_mul_left e hqr

theorem bytes_dvd_blockSize {p : Config.Params} (h : p.ok = true) (w : Width) : w.bytes ∣ 2 ^ p.blockBits := by
  have hb : 2 ≤ p.blockBits := by
    simp only [Config.Params.ok, Bool.and_eq_true, decide_eq_true_eq] at h
    exact h.2
  have h4 : 4 ∣ 2 ^ p.blockBits := Nat.pow_dvd_pow 2 hb
  cases w with
  | w16 => exact Nat.dvd_trans (by decide) h4
  | w32 => exact h4

/-! ### Elements of cartridge ROM -/

/-- An element as the little-endian concatenation of its bytes. -/
def elemOfBytes (w : Width) (f : Nat → Byte) : Word :=
  match w with
  | .w16 => (f 1 ++ f 0).zeroExtend 32
  | .w32 => f 3 ++ f 2 ++ f 1 ++ f 0

theorem elemOfBytes_byte {w : Width} (f : Nat → Byte) {k : Nat} (hk : k < w.bytes) :
    (elemOfBytes w f).extractLsb' (8 * k) 8 = f k := by
  cases w with
  | w16 =>
    simp only [Width.bytes] at hk
    rw [elemOfBytes, BitVec.zeroExtend_eq_setWidth, BitVec.extractLsb'_setWidth_of_le (by omega)]
    match k, hk with
    | 0, _ => rw [extractLsb'_append_byte_zero]
    | 1, _ => rw [extractLsb'_append_byte_succ, BitVec.extractLsb'_eq_self]
  | w32 =>
    rw [elemOfBytes]
    match k, hk with
    | 0, _ => rw [extractLsb'_append_byte_zero]
    | 1, _ => rw [extractLsb'_append_byte_succ, extractLsb'_append_byte_zero]
    | 2, _ => rw [extractLsb'_append_byte_succ, extractLsb'_append_byte_succ, extractLsb'_append_byte_zero]
    | 3, _ =>
      rw [extractLsb'_append_byte_succ, extractLsb'_append_byte_succ, extractLsb'_append_byte_succ, BitVec.extractLsb'_eq_self]

theorem elem_zeroExtend (x : Half) : elem .w16 (x.zeroExtend 32) = x.zeroExtend 32 := by
  have hx := x.isLt
  have hmask : 65535 % 2 ^ 32 = 2 ^ 16 - 1 := rfl
  rw [← BitVec.toNat_inj]
  simp only [elem, BitVec.toNat_and, BitVec.toNat_setWidth, BitVec.toNat_ofNat, hmask]
  rw [Nat.and_two_pow_sub_one_eq_mod]
  omega

theorem elem_elemOfBytes (w : Width) (f : Nat → Byte) : elem w (elemOfBytes w f) = elemOfBytes w f := by
  cases w with
  | w16 => exact elem_zeroExtend _
  | w32 => rfl

/-- The element of cartridge ROM at a guest address. -/
def romValue (rom : List Host.Cell) (a : Word) (w : Width) : Word :=
  elemOfBytes w fun k => romRead rom (a + BitVec.ofNat 32 k).toNat

theorem elem_romValue (rom : List Host.Cell) (a : Word) (w : Width) : elem w (romValue rom a w) = romValue rom a w :=
  elem_elemOfBytes w _

/-- An element of a fetched block is the ROM's element at the block's first byte and the offset. -/
theorem State.blockElem_eq {s : State} {b : Word} (h : s.block = some b) (k : Word) (w : Width) :
    s.blockElem k w = romValue s.rom (b + k) w := by
  cases w <;> simp [State.blockElem, State.blockByte, h, romValue, elemOfBytes, BitVec.add_assoc]

theorem State.romElem_eq (s : State) (a : Word) (w : Width) : s.romElem a w = (romValue s.rom a w, s.getBlock a) := by
  have hblock : s.romElem a w = ((s.getBlock a).blockElem (a &&& s.params.blockMask) w, s.getBlock a) := by cases w <;> rfl
  rw [hblock, State.blockElem_eq (b := a &&& ~~~s.params.blockMask) rfl, blockStart_add_offset]
  rfl

/-- An element at an aligned address does not wrap. -/
theorem toNat_add_of_aligned {a : Word} {w : Width} (ha : a.toNat % w.bytes = 0) {k : Nat} (hk : k < w.bytes) :
    (a + BitVec.ofNat 32 k).toNat = a.toNat + k := by
  have hlt := a.isLt
  rw [BitVec.toNat_add, BitVec.toNat_ofNat]
  cases w <;> simp only [Width.bytes] at ha hk <;> omega

theorem romValue_byte (rom : List Host.Cell) {a : Word} {w : Width} (ha : a.toNat % w.bytes = 0) {k : Nat} (hk : k < w.bytes) :
    (romValue rom a w).extractLsb' (8 * k) 8 = romRead rom (a.toNat + k) := by
  rw [romValue, elemOfBytes_byte _ hk, toNat_add_of_aligned ha hk]

/-- Fetching a block moves the block pointer to the first byte of the block and changes nothing else (rule R68). -/
theorem State.getBlock_eq (s : State) (a : Word) :
    s.getBlock a = { s with block := some (BitVec.ofNat 32 (a.toNat - a.toNat % 2 ^ s.params.blockBits)) } := by
  rw [State.getBlock, blockStart_eq]

/-- Settles O19: fetching the block and reading at the offset is reading at the address; the block size is a multiple of the element
size. -/
theorem aRomElementIsReadFromOneBlock : Obligations.ARomElementIsReadFromOneBlock := by
  intro s a w hp ha
  rw [State.romElem_eq]
  refine ⟨fun k hk => romValue_byte s.rom ha hk, elem_romValue s.rom a w, ?_, s.getBlock_eq a⟩
  exact mod_block_add_le (Nat.dvd_of_mod_eq_zero ha) (bytes_dvd_blockSize hp w) (Nat.two_pow_pos _)

end Sys2Proof.Machine
end

section
/-! Rules R28, R29, R300 and R301: the register view as bytes, what a store of any width leaves in a slot, and the stores of transfers
and of the host that land there. -/

namespace Sys2Proof

/-! ### The bytes of a value -/

/-- Values that agree in every byte are equal. -/
theorem eq_of_bytes {n : Nat} {x y : BitVec n} (h : ∀ j, 8 * j < n → x.extractLsb' (8 * j) 8 = y.extractLsb' (8 * j) 8) : x = y := by
  refine BitVec.eq_of_getLsbD_eq fun i hi => ?_
  have hbyte := congrArg (BitVec.getLsbD · (i % 8)) (h (i / 8) (by omega))
  simpa [BitVec.getLsbD_extractLsb', Nat.div_add_mod, Nat.mod_lt] using hbyte

theorem getLsbD_byteMask {n i : Nat} (hn : 8 ≤ n) : (0xFF#n).getLsbD i = decide (i < 8) := by
  have hnat : (0xFF#n).getLsbD i = (decide (i < n) && Nat.testBit (2 ^ 8 - 1) i) := BitVec.getLsbD_ofNat n 255 i
  rw [hnat, Nat.testBit_two_pow_sub_one]
  by_cases hi : i < 8
  · simp [hi, show i < n by omega]
  · simp [hi]

/-- The bytes of a value with byte `k` replaced. -/
theorem setByteOf_byte {n : Nat} (v : BitVec n) {k : Nat} (hk : 8 * k + 8 ≤ n) (b : Byte) {j : Nat} (hj : 8 * j + 8 ≤ n) :
    (setByteOf v k b).extractLsb' (8 * j) 8 = if j = k then b else v.extractLsb' (8 * j) 8 := by
  refine BitVec.eq_of_getLsbD_eq fun i hi => ?_
  have hin : 8 * j + i < n := by omega
  simp only [setByteOf, BitVec.getLsbD_extractLsb', BitVec.getLsbD_or, BitVec.getLsbD_and, BitVec.getLsbD_not,
    BitVec.getLsbD_shiftLeft, getLsbD_byteMask (show 8 ≤ n by omega), BitVec.zeroExtend_eq_setWidth, BitVec.getLsbD_setWidth]
  rcases Nat.lt_trichotomy j k with hlt | rfl | hgt
  · simp [hi, hin, show j ≠ k by omega, show 8 * j + i < 8 * k by omega]
  · simp [hi, hin, show i < n by omega]
  · have hbeyond : b.getLsbD (8 * j + i - 8 * k) = false := BitVec.getLsbD_of_ge b _ (by omega)
    simp [hi, hin, hbeyond, show j ≠ k by omega, show ¬ 8 * j + i < 8 * k by omega, show ¬ 8 * j + i - 8 * k < 8 by omega]

/-- Four bytes replaced: nothing of the old value is left. -/
theorem setByteOf_word (x v : Word) :
    setByteOf (setByteOf (setByteOf (setByteOf x 0 (byteOf v 0)) 1 (byteOf v 1)) 2 (byteOf v 2)) 3 (byteOf v 3) = v := by
  refine eq_of_bytes fun j hj => ?_
  rw [setByteOf_byte _ (by decide) _ (by omega), setByteOf_byte _ (by decide) _ (by omega), setByteOf_byte _ (by decide) _ (by omega),
    setByteOf_byte _ (by decide) _ (by omega)]
  have h4 : j < 4 := by omega
  interval_cases j <;> rfl

theorem setByteOf_half (x : Half) (v : Word) : setByteOf (setByteOf x 0 (byteOf v 0)) 1 (byteOf v 1) = v.extractLsb' 0 16 := by
  refine eq_of_bytes fun j hj => ?_
  rw [setByteOf_byte _ (by decide) _ (by omega), setByteOf_byte _ (by decide) _ (by omega),
    BitVec.extractLsb'_extractLsb'_of_le (by omega)]
  have h2 : j < 2 := by omega
  interval_cases j <;> rfl

theorem byteOf_zeroExtend (v : Half) {k : Nat} (hk : k < 2) : byteOf (v.zeroExtend 32) k = v.extractLsb' (8 * k) 8 :=
  BitVec.extractLsb'_setWidth_of_le (by omega)

/-- The bytes of two halves put together. -/
theorem append_half_byte (hi lo : Half) {j : Nat} :
    (hi ++ lo).extractLsb' (8 * j) 8 = if j < 2 then lo.extractLsb' (8 * j) 8 else hi.extractLsb' (8 * (j - 2)) 8 := by
  split
  · exact BitVec.extractLsb'_append_eq_of_add_le (by omega)
  · rw [BitVec.extractLsb'_append_eq_of_le (by omega), show 8 * j - 16 = 8 * (j - 2) by omega]

/-- A part of a part is a part. -/
theorem extractLsb'_extractLsb'_of_add_le {n : Nat} (x : BitVec n) {i k start len : Nat} (h : i + k ≤ len) :
    (x.extractLsb' start len).extractLsb' i k = x.extractLsb' (start + i) k := by
  refine BitVec.eq_of_getLsbD_eq fun j hj => ?_
  simp [hj, show i + j < len by omega, Nat.add_assoc]

/-- The two low bytes of an address slot replaced. -/
theorem setByteOf_lowHalf (x : Word) (v : Half) :
    setByteOf (setByteOf x 0 (byteOf (v.zeroExtend 32) 0)) 1 (byteOf (v.zeroExtend 32) 1) = x.extractLsb' 16 16 ++ v := by
  refine eq_of_bytes fun j hj => ?_
  rw [setByteOf_byte _ (by decide) _ (by omega), setByteOf_byte _ (by decide) _ (by omega), append_half_byte,
    byteOf_zeroExtend v (by decide), byteOf_zeroExtend v (by decide)]
  have h4 : j < 4 := by omega
  interval_cases j
  · rfl
  · rfl
  · exact (extractLsb'_extractLsb'_of_add_le x (i := 0) (by decide)).symm
  · exact (extractLsb'_extractLsb'_of_add_le x (i := 8) (by decide)).symm

/-- The two high bytes of an address slot replaced. -/
theorem setByteOf_highHalf (x : Word) (v : Half) :
    setByteOf (setByteOf x 2 (byteOf (v.zeroExtend 32) 0)) 3 (byteOf (v.zeroExtend 32) 1) = v ++ x.extractLsb' 0 16 := by
  refine eq_of_bytes fun j hj => ?_
  rw [setByteOf_byte _ (by decide) _ (by omega), setByteOf_byte _ (by decide) _ (by omega), append_half_byte,
    byteOf_zeroExtend v (by decide), byteOf_zeroExtend v (by decide)]
  have h4 : j < 4 := by omega
  interval_cases j
  · exact (BitVec.extractLsb'_extractLsb'_of_le (by decide)).symm
  · exact (BitVec.extractLsb'_extractLsb'_of_le (by decide)).symm
  · rfl
  · rfl

/-- The low byte of a control word replaced. -/
theorem setByteOf_lowByte (x : Half) (b : Byte) : setByteOf x 0 b = x.extractLsb' 8 8 ++ b := by
  refine eq_of_bytes fun j hj => ?_
  rw [setByteOf_byte _ (by decide) _ (by omega)]
  have h2 : j < 2 := by omega
  interval_cases j
  · rw [Machine.extractLsb'_append_byte_zero, if_pos rfl]
  · rw [Machine.extractLsb'_append_byte_succ _ _ 0, BitVec.extractLsb'_eq_self]; rfl

/-- The high byte of a control word replaced. -/
theorem setByteOf_highByte (x : Half) (b : Byte) : setByteOf x 1 b = b ++ x.extractLsb' 0 8 := by
  refine eq_of_bytes fun j hj => ?_
  rw [setByteOf_byte _ (by decide) _ (by omega)]
  have h2 : j < 2 := by omega
  interval_cases j
  · rw [Machine.extractLsb'_append_byte_zero]; rfl
  · rw [Machine.extractLsb'_append_byte_succ _ _ 0, BitVec.extractLsb'_eq_self, if_pos rfl]

end Sys2Proof
end

section
/-! Rules R28, R109, R266, R294, R300 and R301: slot addresses, stores that land on them, and what is refused. -/

namespace Sys2Proof.Machine

/-! ### Slot addresses -/

theorem slotAddress_toNat (c : Channel) {o : Nat} (ho : o < 12) : (slotAddress c o).toNat = 0x040000B0 + 12 * c.val + o := by
  have hc := c.isLt
  rw [slotAddress, BitVec.toNat_ofNat, Config.iobaseDma, Config.chStride]
  omega

theorem slotAddress_add (c : Channel) (o k : Nat) : slotAddress c o + BitVec.ofNat 32 k = slotAddress c (o + k) := by
  rw [slotAddress, slotAddress, ← BitVec.ofNat_add, Nat.add_assoc]

/-- The slot byte at a guest address, and no other address has it. -/
theorem slotOf_eq_some_iff {a : Word} {c : Channel} {o : Nat} : slotOf a = some (c, o) ↔ o < 12 ∧ a = slotAddress c o := by
  have hc := c.isLt
  have hword {o : Nat} (ho : o < 12) : a = slotAddress c o ↔ a.toNat = 0x040000B0 + 12 * c.val + o := by
    rw [← BitVec.toNat_inj, slotAddress_toNat c ho]
  simp only [slotOf]
  split_ifs with h <;> simp only [Config.iobaseDma, Config.chStride] at h ⊢
  · rw [Option.some_inj, Prod.mk.injEq, Fin.ext_iff]
    dsimp only
    constructor
    · rintro ⟨h1, h2⟩
      exact ⟨by omega, (hword (by omega)).mpr (by omega)⟩
    · rintro ⟨ho, ha⟩
      have := (hword ho).mp ha
      omega
  · simp only [false_iff, not_and]
    intro ho ha
    have := (hword ho).mp ha
    omega

theorem slotOf_slotAddress (c : Channel) {o : Nat} (ho : o < 12) : slotOf (slotAddress c o) = some (c, o) :=
  slotOf_eq_some_iff.mpr ⟨ho, rfl⟩

theorem region_slotAddress (c : Channel) {o : Nat} (ho : o < 12) : region (slotAddress c o) = .io := by
  have hc := c.isLt
  have hsel : sel (slotAddress c o) = sel 0x04000000#32 := by
    rw [← BitVec.toNat_inj, sel_toNat, sel_toNat, slotAddress_toNat c ho, BitVec.toNat_ofNat]
    omega
  exact region_congr hsel

/-- A slot lies in no plain region. -/
theorem slotAddress_not_plain (c : Channel) {o : Nat} (ho : o < 12) : (region (slotAddress c o)).plain = false := by
  rw [region_slotAddress c ho]
  rfl

/-- A plain address is no slot. -/
theorem ne_slotAddress_of_plain {a : Word} (h : (region a).plain = true) (c : Channel) {o : Nat} (ho : o < 12) :
    a ≠ slotAddress c o := by
  rintro rfl
  rw [slotAddress_not_plain c ho] at h
  cases h

theorem slotOf_of_plain {a : Word} (h : (region a).plain = true) : slotOf a = none := by
  refine Option.eq_none_iff_forall_ne_some.mpr fun ⟨c, o⟩ hslot => ?_
  obtain ⟨ho, ha⟩ := slotOf_eq_some_iff.mp hslot
  exact ne_slotAddress_of_plain h c ho ha

theorem isSlotByte_slotAddress (c : Channel) {o : Nat} (ho : o < 12) : isSlotByte (slotAddress c o) = true := by
  rw [isSlotByte, slotOf_slotAddress c ho]
  rfl

theorem ctrlAddress_eq (c : Channel) : ctrlAddress c = slotAddress c 10 := rfl

/-- A 16-bit store is intercepted at the control slots and nowhere else. -/
theorem decodeRa_eq_error_of_ne {a : Word} (h : ∀ c, a ≠ ctrlAddress c) : decodeRa a = .error .notAControlSlot := by
  cases hra : decodeRa a with
  | ok c =>
    have ha := decodeRa_eq_ok_iff.mp hra
    refine absurd (BitVec.eq_of_toNat_eq ?_) (h c)
    rw [ha, ctrlAddress_eq, slotAddress_toNat c (by decide)]
    omega
  | error e => rw [decodeRa_eq_error hra]

/-! ### Bytes stored into a slot -/

section
variable (x : Slots) (b : Byte) {k : Nat}

theorem Slots.setByte_sad (hk : k < 4) : x.setByte k b = { x with sad := setByteOf x.sad k b } := if_pos hk

theorem Slots.setByte_dad (hk : k < 4) : x.setByte (4 + k) b = { x with dad := setByteOf x.dad k b } := by
  rw [Slots.setByte, Config.offDad, Config.offCnt, if_neg (by omega), if_pos (by omega), Nat.add_sub_cancel_left]

theorem Slots.setByte_cnt (hk : k < 2) : x.setByte (8 + k) b = { x with cnt := setByteOf x.cnt k b } := by
  rw [Slots.setByte, Config.offDad, Config.offCnt, Config.offCtrl, if_neg (by omega), if_neg (by omega), if_pos (by omega),
    Nat.add_sub_cancel_left]

end

theorem State.slotByte_slotAddress (s : State) (c : Channel) {o : Nat} (ho : o < 12) (b : Byte) :
    s.slotByte (slotAddress c o) b = s.setSlots c ((s.slots c).setByte o b) := by
  rw [State.slotByte, slotOf_slotAddress c ho]

theorem State.setSlots_setSlots (s : State) (c : Channel) (x y : Slots) : (s.setSlots c x).setSlots c y = s.setSlots c y := by
  rw [State.setSlots, State.setSlots_view, Quad.set_set]
  rfl

/-- A 16-bit store into a slot, byte by byte. -/
theorem State.slotWrite_w16 (s : State) (c : Channel) {o : Nat} (ho : o + 1 < 12) (v : Word) :
    s.slotWrite (slotAddress c o) .w16 v =
      s.setSlots c (((s.slots c).setByte o (byteOf v 0)).setByte (o + 1) (byteOf v 1)) := by
  rw [State.slotWrite, slotAddress_add, State.slotByte_slotAddress _ c (by omega), State.slotByte_slotAddress _ c (by omega),
    State.setSlots_slots_same, State.setSlots_setSlots]

/-- A 32-bit store into a slot, byte by byte. -/
theorem State.slotWrite_w32 (s : State) (c : Channel) {o : Nat} (ho : o + 3 < 12) (v : Word) :
    s.slotWrite (slotAddress c o) .w32 v =
      s.setSlots c (((((s.slots c).setByte o (byteOf v 0)).setByte (o + 1) (byteOf v 1)).setByte (o + 2) (byteOf v 2)).setByte
        (o + 3) (byteOf v 3)) := by
  rw [State.slotWrite, slotAddress_add, slotAddress_add, slotAddress_add, State.slotByte_slotAddress _ c (by omega),
    State.slotByte_slotAddress _ c (by omega), State.slotByte_slotAddress _ c (by omega), State.slotByte_slotAddress _ c (by omega)]
  simp only [State.setSlots_slots_same, State.setSlots_setSlots]

/-! ### Whole slots -/

section
variable (s : State) (c : Channel) (v : Word)

theorem State.slotWrite_sad : s.slotWrite (slotAddress c 0) .w32 v = s.setSlots c { s.slots c with sad := v } := by
  rw [State.slotWrite_w32 s c (by decide), Slots.setByte_sad _ _ (by decide), Slots.setByte_sad _ _ (by decide),
    Slots.setByte_sad _ _ (by decide), Slots.setByte_sad _ _ (by decide), setByteOf_word]

theorem State.slotWrite_dad : s.slotWrite (slotAddress c 4) .w32 v = s.setSlots c { s.slots c with dad := v } := by
  rw [State.slotWrite_w32 s c (by decide), Slots.setByte_dad _ _ (k := 0) (by decide), Slots.setByte_dad _ _ (k := 1) (by decide),
    Slots.setByte_dad _ _ (k := 2) (by decide), Slots.setByte_dad _ _ (k := 3) (by decide), setByteOf_word]

theorem State.slotWrite_cnt :
    s.slotWrite (slotAddress c 8) .w16 v = s.setSlots c { s.slots c with cnt := v.extractLsb' 0 16 } := by
  rw [State.slotWrite_w16 s c (by decide), Slots.setByte_cnt _ _ (k := 0) (by decide), Slots.setByte_cnt _ _ (k := 1) (by decide),
    setByteOf_half]

end

/-! ### Stores of a transfer -/

/-- A write to a slot that touches no control half-word is stored and recorded. -/
theorem State.memWrite_slot (s : State) (c : Channel) {o : Nat} (ho : o < 12) {w : Width}
    (hc : coversByte isCtrlByte (slotAddress c o) w = false) (v : Word) :
    s.memWrite (slotAddress c o) w v =
      .next ((s.slotWrite (slotAddress c o) w v).emit (.devWrite (slotAddress c o) w v)) := by
  simp [State.memWrite, region_slotAddress c ho, hc, Region.plain, Region.device]

theorem State.memWrite_control (s : State) (c : Channel) {o : Nat} (ho : o < 12) {w : Width}
    (hc : coversByte isCtrlByte (slotAddress c o) w = true) (v : Word) :
    s.memWrite (slotAddress c o) w v = .refused .controlSlotWrite := by
  simp [State.memWrite, region_slotAddress c ho, hc, Region.plain, Region.device]

/-- Settles O18: the element covers a control byte in the last two clauses alone, and in the others its bytes make up the slot. -/
theorem writesIntoTheRegisterView : Obligations.WritesIntoTheRegisterView := by
  intro s c v
  refine ⟨?_, ?_, ?_, ?_, ?_⟩
  · rw [State.memWrite_slot s c (by decide) (by revert c; decide), State.slotWrite_sad]
    rfl
  · rw [State.memWrite_slot s c (by decide) (by revert c; decide), State.slotWrite_dad]
    rfl
  · rw [State.memWrite_slot s c (by decide) (by revert c; decide), State.slotWrite_cnt]
    rfl
  · exact State.memWrite_control s c (by decide) (by revert c; decide) v
  · exact State.memWrite_control s c (by decide) (by revert c; decide) v

end Sys2Proof.Machine
end

section
/-! Rules R19, R28, R29 and R300: the stores of the host, and where each width of one lands. -/

namespace Sys2Proof.Machine

/-! ### Which store a host store is -/

theorem sel_alignDown (a : Word) (w : Width) : sel (alignDown a w) = sel a := by
  cases w with
  | w16 => exact sel_and_mask rfl a
  | w32 => exact sel_and_mask rfl a

theorem region_alignDown (a : Word) (w : Width) : region (alignDown a w) = region a := region_congr (sel_alignDown a w)

/-- An aligned address is its own alignment. -/
theorem alignDown_of_aligned {a : Word} {w : Width} (h : a.toNat % w.bytes = 0) : alignDown a w = a := by
  have keep {mask : Word} (hlow : a &&& mask = 0#32) : a &&& ~~~mask = a := by
    have hsplit := blockStart_add_offset mask a
    rwa [hlow, BitVec.add_zero] at hsplit
  have hmask (k : Nat) (hk : 2 ^ k < 2 ^ 32) : (a &&& BitVec.ofNat 32 (2 ^ k - 1)).toNat = a.toNat % 2 ^ k := by
    rw [BitVec.toNat_and, BitVec.toNat_ofNat, Nat.mod_eq_of_lt (by omega), Nat.and_two_pow_sub_one_eq_mod]
  cases w with
  | w16 => exact keep (mask := 1#32) (BitVec.eq_of_toNat_eq ((hmask 1 (by decide)).trans h))
  | w32 => exact keep (mask := 3#32) (BitVec.eq_of_toNat_eq ((hmask 2 (by decide)).trans h))

/-- The slots of every channel lie at multiples of 4. -/
theorem alignDown_slotAddress (c : Channel) {o : Nat} (ho : o < 12) {w : Width} (ha : o % w.bytes = 0) :
    alignDown (slotAddress c o) w = slotAddress c o := by
  refine alignDown_of_aligned ?_
  rw [slotAddress_toNat c ho]
  cases w <;> simp only [Width.bytes] at ha ⊢ <;> omega

theorem slotAddress_add_two (c : Channel) : slotAddress c 8 + 2#32 = ctrlAddress c := slotAddress_add c 8 2

/-- A 16-bit store to a control slot is a `CMD` (rule R300). -/
theorem hostHalf_ctrlAddress (c : Channel) (v : Half) (s : State) : hostHalf (ctrlAddress c) v s = serveCmd (ctrlAddress c) v s := by
  have halign : alignDown (ctrlAddress c) .w16 = ctrlAddress c := alignDown_slotAddress c (o := 10) (by decide) rfl
  rw [hostHalf, halign, decodeRa_ctrlAddress]

theorem hostHalf_elsewhere {a : Word} (h : ∀ c, alignDown a .w16 ≠ ctrlAddress c) (v : Half) (s : State) :
    hostHalf a v s = hostElem (alignDown a .w16) .w16 (v.zeroExtend 32) s := by
  rw [hostHalf, decodeRa_eq_error_of_ne h]

/-- A 32-bit store over count and control is the count store, then a `CMD` (rule R300). -/
theorem hostWord_countAddress (c : Channel) (v : Word) (s : State) :
    hostWord (slotAddress c 8) v s =
      andThen (hostCount c (v.extractLsb' 0 16) s) (serveCmd (ctrlAddress c) (v.extractLsb' 16 16)) := by
  have halign : alignDown (slotAddress c 8) .w32 = slotAddress c 8 := alignDown_slotAddress c (by decide) rfl
  rw [hostWord, halign, slotAddress_add_two, decodeRa_ctrlAddress]

theorem hostWord_elsewhere {a : Word} (h : ∀ c, alignDown a .w32 + 2#32 ≠ ctrlAddress c) (v : Word) (s : State) :
    hostWord a v s = hostElem (alignDown a .w32) .w32 v s := by
  rw [hostWord, decodeRa_eq_error_of_ne h]

/-- A store of an aligned word at a slot address that is no count address is no split store. -/
theorem slotAddress_add_two_ne_ctrlAddress (c : Channel) {o : Nat} (ho : o < 8) (d : Channel) :
    slotAddress c o + 2#32 ≠ ctrlAddress d := by
  have hadd : slotAddress c o + 2#32 = slotAddress c (o + 2) := slotAddress_add c o 2
  intro h
  have hnat := congrArg BitVec.toNat h
  rw [hadd, ctrlAddress_eq, slotAddress_toNat c (by omega), slotAddress_toNat d (by decide)] at hnat
  have hc := c.isLt
  have hd := d.isLt
  omega

theorem slotAddress_ne_ctrlAddress (c : Channel) {o : Nat} (ho : o < 10) (d : Channel) : slotAddress c o ≠ ctrlAddress d := by
  intro h
  have hnat := congrArg BitVec.toNat h
  rw [ctrlAddress_eq, slotAddress_toNat c (by omega), slotAddress_toNat d (by decide)] at hnat
  omega

/-- A store of the host that covers no byte of the register view is intercepted nowhere. -/
theorem ne_ctrlAddress_of_not_slot {a : Word} (h : isSlotByte a = false) (c : Channel) : a ≠ ctrlAddress c := by
  rintro rfl
  rw [ctrlAddress_eq, isSlotByte_slotAddress c (by decide)] at h
  cases h

/-! ### What is stored -/

section
variable {s : State} {a : Word} {w : Width}

theorem hostElem_plain (hp : (region a).plain = true) (hf : s.storeFree a w.bytes) (v : Word) :
    hostElem a w v s = .next (s.backWrite (s.xlate a) w v) := by
  rw [hostElem, hostStore_free hf, if_pos hp]

theorem hostElem_not_plain (hp : (region a).plain = false) (hf : s.storeFree a w.bytes) (v : Word) :
    hostElem a w v s = .next (s.slotWrite a w v) := by
  rw [hostElem, hostStore_free hf, if_neg (by rw [hp]; decide)]

theorem hostByte_plain (hp : (region a).plain = true) (hf : s.storeFree a 1) (b : Byte) :
    hostByte a b s = .next (s.storeByte (s.xlate a) b) := by
  rw [hostByte, slotOf_of_plain hp]
  dsimp only
  rw [hostStore_free hf, if_pos hp]

theorem hostByte_nowhere (hp : (region a).plain = false) (hs : isSlotByte a = false) (hf : s.storeFree a 1) (b : Byte) :
    hostByte a b s = .next s := by
  have hnone : slotOf a = none := by simpa [isSlotByte] using hs
  rw [hostByte, hnone]
  dsimp only
  rw [hostStore_free hf, if_neg (by rw [hp]; decide)]

/-- A byte store to an address or count slot. -/
theorem hostByte_slot (c : Channel) {o : Nat} (ho : o < 10) (hf : s.storeFree (slotAddress c o) 1) (b : Byte) :
    hostByte (slotAddress c o) b s = .next (s.setSlots c ((s.slots c).setByte o b)) := by
  rw [hostByte, slotOf_slotAddress c (by omega)]
  dsimp only
  rw [if_neg (by rw [Config.offCtrl]; omega), hostStore_free hf]

/-- A 16-bit store to an aligned half of the register view that is no control half. -/
theorem hostHalf_slot (c : Channel) {o : Nat} (ho : o < 10) (ha : o % 2 = 0)
    (hf : s.storeFree (slotAddress c o) 2) (v : Half) :
    hostHalf (slotAddress c o) v s =
      .next (s.setSlots c (((s.slots c).setByte o (byteOf (v.zeroExtend 32) 0)).setByte (o + 1) (byteOf (v.zeroExtend 32) 1))) := by
  have halign : alignDown (slotAddress c o) .w16 = slotAddress c o := alignDown_slotAddress c (by omega) ha
  rw [hostHalf_elsewhere (by rw [halign]; exact slotAddress_ne_ctrlAddress c ho), halign,
    hostElem_not_plain (slotAddress_not_plain c (by omega)) hf, State.slotWrite_w16 s c (by omega)]

/-- A 32-bit store to an address slot. -/
theorem hostWord_slot (c : Channel) {o : Nat} (ho : o < 8) (ha : o % 4 = 0)
    (hf : s.storeFree (slotAddress c o) 4) (v : Word) :
    hostWord (slotAddress c o) v s = .next (s.slotWrite (slotAddress c o) .w32 v) := by
  have halign : alignDown (slotAddress c o) .w32 = slotAddress c o := alignDown_slotAddress c (by omega) ha
  rw [hostWord_elsewhere (by rw [halign]; exact slotAddress_add_two_ne_ctrlAddress c ho), halign,
    hostElem_not_plain (slotAddress_not_plain c (by omega)) hf]

theorem serve_sadw_free {c : Channel} (hf : s.storeFree (slotAddress c 0) 4) (x : Word) :
    serve (.sadw c x) s = .next (s.setSlots c { s.slots c with sad := x }) := by
  rw [serve]
  exact hostStore_free hf _

theorem serve_dadw_free {c : Channel} (hf : s.storeFree (slotAddress c 4) 4) (x : Word) :
    serve (.dadw c x) s = .next (s.setSlots c { s.slots c with dad := x }) := by
  rw [serve]
  exact hostStore_free hf _

theorem serve_cntw_free {c : Channel} (hf : s.storeFree (slotAddress c 8) 2) (n : Half) :
    serve (.cntw c n) s = .next (s.setSlots c { s.slots c with cnt := n }) := by
  rw [serve, hostCount]
  exact hostStore_free hf _

end

/-- Outside the window every host store may be made. -/
theorem State.storeFree_of_no_window {s : State} (h : s.window = none) (a : Word) (n : Nat) : s.storeFree a n := by
  intro t ht
  rw [h] at ht
  cases ht

/-! ### Control half-words -/

/-- A byte store to a control half-word, outside the window (rule R300; U19). -/
theorem hostByte_control {s : State} (hw : s.window = none) (c : Channel) {k : Nat} (hk : k < 2) (b : Byte) :
    hostByte (slotAddress c (10 + k)) b s =
      if ctlEn (setByteOf (s.slots c).ctrl k b) = s.eOld c then .next (s.setCtrl c (setByteOf (s.slots c).ctrl k b))
      else .refused .controlByteStore := by
  rw [hostByte, slotOf_slotAddress c (by omega)]
  dsimp only
  rw [Config.offCtrl, if_pos (by omega), Nat.add_sub_cancel_left, controlByte, hw]
  rfl

theorem ctlEn_setByteOf_low (v : Half) (b : Byte) : ctlEn (setByteOf v 0 b) = ctlEn v := by
  rw [setByteOf_lowByte, ctlEn, BitVec.getLsbD_append, BitVec.getLsbD_extractLsb']
  rfl

theorem ctlEn_setByteOf_high (v : Half) (b : Byte) : ctlEn (setByteOf v 1 b) = b.getLsbD 7 := by
  rw [setByteOf_highByte, ctlEn, BitVec.getLsbD_append]
  rfl

/-- Settles O53: the four forms of a store that covers a control byte; the low byte never changes bit 15. -/
theorem hostStoresToAControlHalfWord : Obligations.HostStoresToAControlHalfWord := by
  intro c s hw
  have hcount : ctrlAddress c - 2#32 = slotAddress c 8 := by rw [← slotAddress_add_two, BitVec.add_sub_cancel]
  have hhigh : ctrlAddress c + 1#32 = slotAddress c (10 + 1) := slotAddress_add c 10 1
  refine ⟨fun v => hostHalf_ctrlAddress c v s, fun v => ?_, fun b => ?_, fun b => ⟨fun hb => ?_, fun hb => ?_⟩⟩
  · rw [hcount]
    refine (hostWord_countAddress c v s).trans ?_
    rw [hostCount, hostStore_free (State.storeFree_of_no_window hw _ _)]
    rfl
  · refine (hostByte_control hw c (k := 0) (by decide) b).trans ?_
    rw [State.eOld, if_pos (ctlEn_setByteOf_low _ b), setByteOf_lowByte]
    rfl
  · rw [hhigh]
    refine (hostByte_control hw c (by decide) b).trans ?_
    rw [State.eOld, if_pos ((ctlEn_setByteOf_high _ b).trans hb), setByteOf_highByte]
    rfl
  · rw [hhigh]
    refine (hostByte_control hw c (by decide) b).trans ?_
    rw [if_neg (by rw [ctlEn_setByteOf_high]; exact hb)]

/-! ### Plain memory, address and count slots, and elsewhere -/

theorem byte_of_setByteOf_word (x : Word) (b : Byte) {k : Nat} (hk : k < 4) {j : Nat} (hj : j < 4) :
    (setByteOf x k b).extractLsb' (8 * j) 8 = if j = k then b else x.extractLsb' (8 * j) 8 :=
  setByteOf_byte x (by omega) b (by omega)

theorem byte_of_setByteOf_half (x : Half) (b : Byte) {k : Nat} (hk : k < 2) {j : Nat} (hj : j < 2) :
    (setByteOf x k b).extractLsb' (8 * j) 8 = if j = k then b else x.extractLsb' (8 * j) 8 :=
  setByteOf_byte x (by omega) b (by omega)

/-- Settles O54: the region of the aligned address says which store it is; the bytes stored make up the slot, the half or the byte. -/
theorem hostStoresLandWhereTheyAreAddressed : Obligations.HostStoresLandWhereTheyAreAddressed := by
  intro s
  have plain16 {a : Word} (hp : (region a).plain = true) : (region (alignDown a .w16)).plain = true := by rwa [region_alignDown]
  have plain32 {a : Word} (hp : (region a).plain = true) : (region (alignDown a .w32)).plain = true := by rwa [region_alignDown]
  refine ⟨fun a b hp hf => hostByte_plain hp hf b, fun a v hp hf => ?_, fun a v hp hf => ?_, fun c x hf => ?_, fun c x hf => ?_,
    fun c n hf => ?_, fun c b k hk hf => ?_, fun c b k hk hf => ?_, fun c b k hk hf => ?_, fun c v hf => ?_, fun c v hf => ?_,
    fun c v hf => ?_, fun c v hf => ?_, fun a b hp hs hf => hostByte_nowhere hp hs hf b, fun a v hp hs hf => ?_,
    fun a v hp hs hf => ?_⟩
  · refine (hostHalf_elsewhere (fun c => ne_slotAddress_of_plain (plain16 hp) c (by decide)) v s).trans ?_
    exact hostElem_plain (plain16 hp) hf _
  · refine (hostWord_elsewhere (fun c hc => ?_) v s).trans (hostElem_plain (plain32 hp) hf _)
    rw [← slotAddress_add_two] at hc
    exact ne_slotAddress_of_plain (plain32 hp) c (by decide) (add_right_cancel hc)
  · have hstore := serve_sadw_free hf x
    refine ⟨hstore, (hostWord_slot c (by decide) (by decide) hf x).trans ?_⟩
    rw [hstore, State.slotWrite_sad]
  · have hstore := serve_dadw_free hf x
    refine ⟨hstore, (hostWord_slot c (by decide) (by decide) hf x).trans ?_⟩
    rw [hstore, State.slotWrite_dad]
  · have hstore := serve_cntw_free hf n
    refine ⟨hstore, (hostHalf_slot c (by decide) (by decide) hf n).trans ?_⟩
    have hn : (n.zeroExtend 32).extractLsb' 0 16 = n := by
      rw [BitVec.zeroExtend_eq_setWidth, BitVec.extractLsb'_setWidth_of_le (by decide), BitVec.extractLsb'_eq_self]
    rw [hstore, ← State.slotWrite_w16 s c (by decide), State.slotWrite_cnt, hn]
  · refine ⟨_, (hostByte_slot c (by omega) hf b).trans ?_, fun j hj => byte_of_setByteOf_word _ b hk hj⟩
    rw [Slots.setByte_sad _ b hk]
    rfl
  · refine ⟨_, (hostByte_slot c (by omega) hf b).trans ?_, fun j hj => byte_of_setByteOf_word _ b hk hj⟩
    rw [Slots.setByte_dad _ b hk]
    rfl
  · refine ⟨_, (hostByte_slot c (by omega) hf b).trans ?_, fun j hj => byte_of_setByteOf_half _ b hk hj⟩
    rw [Slots.setByte_cnt _ b hk]
    rfl
  · refine (hostHalf_slot c (by decide) (by decide) hf v).trans ?_
    rw [Slots.setByte_sad _ _ (by decide), Slots.setByte_sad _ _ (by decide), setByteOf_lowHalf]
    rfl
  · refine (hostHalf_slot c (by decide) (by decide) hf v).trans ?_
    rw [Slots.setByte_sad _ _ (by decide), Slots.setByte_sad _ _ (by decide), setByteOf_highHalf]
    rfl
  · refine (hostHalf_slot c (by decide) (by decide) hf v).trans ?_
    rw [Slots.setByte_dad _ _ (k := 0) (by decide), Slots.setByte_dad _ _ (k := 1) (by decide), setByteOf_lowHalf]
    rfl
  · refine (hostHalf_slot c (by decide) (by decide) hf v).trans ?_
    rw [Slots.setByte_dad _ _ (k := 2) (by decide), Slots.setByte_dad _ _ (k := 3) (by decide), setByteOf_highHalf]
    rfl
  · have hfirst : isSlotByte (alignDown a .w16) = false := by
      simp only [coversByte, Bool.or_eq_false_iff] at hs
      exact hs.1
    refine (hostHalf_elsewhere (ne_ctrlAddress_of_not_slot hfirst) v s).trans ?_
    rw [hostElem_not_plain (by rwa [region_alignDown]) hf, State.slotWrite_of_not_slot hs]
  · have hthird : isSlotByte (alignDown a .w32 + 2#32) = false := by
      simp only [coversByte, Bool.or_eq_false_iff] at hs
      exact hs.1.2
    refine (hostWord_elsewhere (ne_ctrlAddress_of_not_slot hthird) v s).trans ?_
    rw [hostElem_not_plain (by rwa [region_alignDown]) hf, State.slotWrite_of_not_slot hs]

end Sys2Proof.Machine
end

section
/-! Rules R109, R266 and R294: what is refused before the first `INIT`, inside the nesting window and at the ports. -/

namespace Sys2Proof.Machine

/-! ### Operations -/

theorem acceptCmd_uninitialised {s : State} (h : s.initialised = false) (c : Channel) (f : State → Answer) :
    acceptCmd c s f = .refused .notInitialised :=
  if_pos h

theorem acceptStrobe_uninitialised {s : State} (h : s.initialised = false) (f : State → Answer) :
    acceptStrobe s f = .refused .notInitialised :=
  if_pos h

/-- Inside the window a `CMD` for channel 3 is refused. -/
theorem acceptCmd_in_window {s : State} (hi : s.initialised = true) {t : Window} (hw : s.window = some t) (f : State → Answer) :
    acceptCmd 3 s f = .refused .nestedChannel3 := by
  rw [acceptCmd, if_neg (by rw [hi]; decide), if_pos ⟨by rw [hw]; rfl, rfl⟩]

/-- Every operation but `INIT` begins with its acceptance, as a `CMD` or as a strobe. -/
theorem exec_accepts {i : Instr} (hi : i ≠ .init) :
    (∃ c f, ∀ s, exec i s = acceptCmd c s f) ∨ ∃ f, ∀ s, exec i s = acceptStrobe s f := by
  cases i with
  | ctrlUpd0 c v => exact .inl ⟨c, _, fun _ => rfl⟩
  | ctrlUpd1 c v => exact .inl ⟨c, _, fun _ => rfl⟩
  | ctrlStop c v => exact .inl ⟨c, _, fun _ => rfl⟩
  | startXreq c v => exact .inl ⟨c, _, fun _ => rfl⟩
  | startImm c v => exact .inl ⟨c, _, fun _ => rfl⟩
  | startVbl c v => exact .inl ⟨c, _, fun _ => rfl⟩
  | startHbl c v => exact .inl ⟨c, _, fun _ => rfl⟩
  | startSpc0 v => exact .inl ⟨0, _, fun _ => rfl⟩
  | startAud1 v => exact .inl ⟨1, _, fun _ => rfl⟩
  | startAud2 v => exact .inl ⟨2, _, fun _ => rfl⟩
  | startSpc3 v => exact .inl ⟨3, _, fun _ => rfl⟩
  | init => exact absurd rfl hi
  | trigVblank => exact .inr ⟨_, fun _ => rfl⟩
  | trigHblank => exact .inr ⟨_, fun _ => rfl⟩
  | trigAudio => exact .inr ⟨_, fun _ => rfl⟩

theorem exec_decodeStart (c : Channel) (v : Half) : ∃ f, ∀ s, exec (decodeStart c v) s = acceptCmd c s f := by
  unfold decodeStart
  split_ifs
  · exact ⟨_, fun _ => rfl⟩
  · exact ⟨_, fun _ => rfl⟩
  · exact ⟨_, fun _ => rfl⟩
  · exact ⟨_, fun _ => rfl⟩
  · match c with
    | 0 => exact ⟨_, fun _ => rfl⟩
    | 1 => exact ⟨_, fun _ => rfl⟩
    | 2 => exact ⟨_, fun _ => rfl⟩
    | 3 => exact ⟨_, fun _ => rfl⟩

/-- A `CMD` for channel `c` is accepted as one for channel `c`, whatever operation it decodes to. -/
theorem exec_decodeDw (c : Channel) (e : Bool) (v : Half) : ∃ f, ∀ s, exec (decodeDw (decodeWord c e v)) s = acceptCmd c s f := by
  rw [decodeDw_decodeWord]
  cases e <;> cases ctlEn v
  case false.true => exact exec_decodeStart c v
  all_goals exact ⟨_, fun _ => rfl⟩

/-- Before the first `INIT` every other operation is refused. -/
theorem exec_uninitialised {s : State} (h : s.initialised = false) {i : Instr} (hi : i ≠ .init) :
    exec i s = .refused .notInitialised := by
  rcases exec_accepts hi with ⟨c, f, hf⟩ | ⟨f, hf⟩
  · rw [hf, acceptCmd_uninitialised h]
  · rw [hf, acceptStrobe_uninitialised h]

/-- Inside the window every operation a `CMD` for channel 3 decodes to is refused. -/
theorem exec_channel3_in_window {s : State} (hi : s.initialised = true) {t : Window} (hw : s.window = some t) (e : Bool) (v : Half) :
    exec (decodeDw (decodeWord 3 e v)) s = .refused .nestedChannel3 := by
  obtain ⟨f, hf⟩ := exec_decodeDw 3 e v
  rw [hf, acceptCmd_in_window hi hw]

theorem execInit_in_window {s : State} {t : Window} (hw : s.window = some t) : execInit s = .refused .initInWindow := by
  rw [execInit, hw]
  rfl

/-! ### Steps of the host -/

theorem hostDispMode_in_window {s : State} {t : Window} (hw : s.window = some t) {m : BitVec 3} (hm : m ≠ s.dispMode) :
    hostDispMode m s = .refused .windowStep :=
  if_pos ⟨by rw [hw]; rfl, hm⟩

/-- Every byte of an element belongs to it. -/
theorem inElement_self (s : State) (a : Word) {w : Width} {k : Nat} (hk : k < w.bytes) :
    inElement s (a + BitVec.ofNat 32 k) a w = true := by
  have hin : inBacking (a + BitVec.ofNat 32 k) a w := inBacking_iff.mpr ⟨k, hk, rfl⟩
  rw [inElement, decide_eq_true hin, Bool.true_or]

theorem inFlight_iff {s : State} {t : Window} {x : Word} :
    inFlight s t x = true ↔ ∃ i < t.count, inElement s x (t.job.dstAt i) t.job.width = true ∨
      (t.job.pattern = none ∧ inElement s x (t.job.srcAt i) t.job.width = true) := by
  simp [inFlight]

theorem inFlight_dst (s : State) (t : Window) {i k : Nat} (hi : i < t.count) (hk : k < t.job.width.bytes) :
    inFlight s t (t.job.dstAt i + BitVec.ofNat 32 k) = true :=
  inFlight_iff.mpr ⟨i, hi, .inl (inElement_self s _ hk)⟩

theorem inFlight_src (s : State) {t : Window} (hp : t.job.pattern = none) {i k : Nat} (hi : i < t.count)
    (hk : k < t.job.width.bytes) : inFlight s t (t.job.srcAt i + BitVec.ofNat 32 k) = true :=
  inFlight_iff.mpr ⟨i, hi, .inr ⟨hp, inElement_self s _ hk⟩⟩

/-- A byte in flight is not stored by the host, whether it is memory, a slot or part of a control half-word. -/
theorem hostByte_in_flight {s : State} {t : Window} (hw : s.window = some t) {x : Word} (hx : inFlight s t x = true) (b : Byte) :
    hostByte x b s = .refused .windowStep := by
  have htouch : s.touchesFlight t x 1 := ⟨0, Nat.one_pos, by rwa [BitVec.add_zero]⟩
  unfold hostByte
  split
  · split
    · rw [controlByte, hw]
      rfl
    · exact hostStore_refused hw htouch _
  · exact hostStore_refused hw htouch _

/-- Settles O52: an operation is refused at its acceptance, a store of the host at the check against the transfer in flight, a
malformed transaction at its decoder. -/
theorem whatIsRefused : Obligations.WhatIsRefused := by
  intro s
  refine ⟨fun h i hi => exec_uninitialised h hi, fun t hw hi => ⟨fun e v => exec_channel3_in_window hi hw e v,
    execInit_in_window hw, fun m hm => hostDispMode_in_window hw hm,
    fun i hi k hk => ⟨inFlight_dst s t hi hk, fun hp => inFlight_src s hp hi hk⟩,
    fun x b hx => hostByte_in_flight hw hx b, fun a v hne ht => ?_, fun a v hne ht => ?_,
    fun c x ht => ?_, fun c x ht => ?_, fun c n v ht => ?_⟩,
    fun ra v e he => ?_, fun x e he => ?_⟩
  · exact (hostHalf_elsewhere hne v s).trans (hostStore_refused hw ht _)
  · exact (hostWord_elsewhere hne v s).trans (hostStore_refused hw ht _)
  · rw [serve]
    exact hostStore_refused hw ht _
  · rw [serve]
    exact hostStore_refused hw ht _
  · have hcount (n : Half) : hostCount c n s = .refused .windowStep := hostStore_refused hw ht _
    refine ⟨hcount n, (hostWord_countAddress c v s).trans ?_⟩
    rw [hcount, andThen_refused]
  · rw [serve, serveCmd, he]
  · rw [serve, serveEv, he]

end Sys2Proof.Machine
end

section
/-! Rules R11, R75, R94, R199, R265, R266 and R268: which operation a step runs, and the nesting window step by step. -/

namespace Sys2Proof.Machine

/-! ### The line a step takes -/

/-- Between operations the next line is taken, inside the window when its element index has come. -/
theorem step_serves {s : State} {o : Offer} {rest : List Offer} (hs : s.script = o :: rest)
    (hw : ∀ t, s.window = some t → o.due t = true) : step s = serve o.line { s with script := rest } := by
  have hoff : s.offered = some (o.line, { s with script := rest }) := by
    cases h : s.window with
    | none => simp [State.offered, hs, h]
    | some t => simp [State.offered, hs, h, hw t h]
  rw [step, hoff]

theorem serveCmd_ctrlAddress (c : Channel) (v : Half) (s : State) :
    serveCmd (ctrlAddress c) v s = exec (decodeDw (decodeWord c (ctlEn (s.slots c).ctrl) v)) s := by
  rw [serveCmd, decodeRa_ctrlAddress]
  rfl

theorem serveEv_of_decodeEv {e : BitVec 4} {i : Instr} (h : decodeEv e = .ok i) (s : State) : serveEv e s = exec i s := by
  rw [serveEv, h]

/-- Settles O55: the line is due in the window, so the step takes it off and serves it. -/
theorem aStepRunsTheOperationOffered : Obligations.AStepRunsTheOperationOffered := by
  intro s k rest c v e i hwin
  have due {l : HostLine} (t : Window) (ht : s.window = some t) : Offer.due ⟨k, l⟩ t = true := by
    rcases hwin with hn | ⟨t', j, ht', rfl, hj⟩
    · rw [hn] at ht
      cases ht
    · rw [ht'] at ht
      cases ht
      exact decide_eq_true hj
  refine ⟨fun hs => ?_, fun hs hi => ?_⟩
  · exact (step_serves hs due).trans (serveCmd_ctrlAddress c v _)
  · exact (step_serves hs due).trans (serveEv_of_decodeEv hi _)

/-- The word of a decode word at the table's size. -/
theorem State.withFetchWord_dw (s : State) (d : BitVec 19) : s.withFetchWord 24 d.toNat = s.offerWord (.dw d) := by
  have hword : opWordOf 24 d.toNat = some (.dw d) := opWordOf_number (.dw d)
  rw [State.withFetchWord, hword]

theorem State.withFetchWord_ev (s : State) (e : BitVec 4) : s.withFetchWord 8 e.toNat = s.offerWord (.ev e) := by
  have hword : opWordOf 8 e.toNat = some (.ev e) := opWordOf_number (.ev e)
  rw [State.withFetchWord, hword]

/-- Settles O56: the slot's enable bit is the word's, so the `CMD` decodes to the word's operation. -/
theorem aStepRunsTheTableWord : Obligations.AStepRunsTheTableWord := by
  intro s
  refine ⟨fun d => ?_, fun e i he => ?_, fun d => ctlEn_withEn _ _⟩
  · rw [State.withFetchWord_dw, State.offerWord, State.offerNow_step]
    refine (serveCmd_ctrlAddress _ _ _).trans ?_
    rw [State.setCtrl_slots_same, ctlEn_withEn, decodeWord_fields]
    rfl
  · rw [State.withFetchWord_ev, State.offerWord, State.offerNow_step]
    exact serveEv_of_decodeEv he s

/-! ### The nesting window -/

/-- Settles O40: the host offers a line for the window, so it opens with no element moved. -/
theorem theNestingWindowOpensBeforeTheFirstElement : Obligations.TheNestingWindowOpensBeforeTheFirstElement := by
  intro v ss s ha hs hh
  have hh' : (s.immStarted 3 v ss).hostInWindow (s.count 3) := hh
  refine (execStartImm_started ha hs).trans ?_
  rw [if_pos rfl, windowedTransfer_opens hh']
  rfl

/-- `TR` at the end of the window, where the rest of the transfer left `tr` (rules R165, R266). -/
def Window.finalTr (t : Window) (tr : Word) : Word :=
  match t.job.pattern with
  | some p => rep p t.job.width
  | none => if t.index < t.count then tr else t.lastImage

/-- The state after the last element with the window closed (rule R265). -/
def State.closed (u : State) (t : Window) : State :=
  { u with
    tr := t.finalTr u.tr, nestedIrqEnabled := t.savedNest, window := none
    trace := .nestDelivery t.savedNest :: u.trace }

/-- The end of the window: the rest of the elements, the closing, the completion. -/
theorem finishWindow_eq_closed (t : Window) (s : State) :
    finishWindow t s = andThen (moveFrom t.job t.index (t.count - t.index) s) fun u =>
      .next ((u.closed t).completeImm 3 t.control t.job.dst t.count t.job.dstStep t.job.width) :=
  finishWindow_eq t s

/-- The end of the window does not look at the window that stands in the state. -/
theorem finishWindow_window (t : Window) (s : State) (x : Option Window) :
    finishWindow t { s with window := x } = finishWindow t s := by
  rw [finishWindow_eq_closed, finishWindow_eq_closed, moveFrom_window, andThen_assoc]
  rfl

/-- The window after one more element, which left the state `u`. -/
def Window.advanced (t : Window) (u : State) : Window :=
  { t with
    index := t.index + 1
    lastImage := match t.job.pattern with
      | some p => rep p t.job.width
      | none => u.tr }

theorem advanceWindow_eq (t : Window) (s : State) :
    advanceWindow t s = andThen (moveOne t.job t.index s) fun u => .next { u with window := some (t.advanced u) } := rfl

/-- After one more element the end of the window loads the same `TR`: what the rest leaves, or the element's own image where there is
no rest. -/
theorem Window.advanced_finalTr {t : Window} (hlt : t.index < t.count) (u : State) {tr : Word}
    (h : t.index + 1 < t.count ∨ tr = u.tr) : (t.advanced u).finalTr tr = t.finalTr tr := by
  unfold Window.finalTr Window.advanced
  cases t.job.pattern with
  | some p => rfl
  | none =>
    simp only [hlt, if_true]
    rcases h with h | h
    · rw [if_pos h]
    · rw [h, ite_self]

theorem State.closed_advanced {t : Window} (hlt : t.index < t.count) (u : State) {r : State}
    (h : t.index + 1 < t.count ∨ r.tr = u.tr) : r.closed (t.advanced u) = r.closed t := by
  rw [State.closed, Window.advanced_finalTr hlt u h]
  rfl

/-- Settles O41: the run of the remaining elements begins with the one moved, and the window closes on the same state. -/
theorem elementByElementInTheWindowIsTheWholeTransfer : Obligations.ElementByElementInTheWindowIsTheWholeTransfer := by
  intro t s _ hlt
  have hcount : t.count - t.index = t.count - (t.index + 1) + 1 := by omega
  have hrest (u : State) : finishWindow (t.advanced u) { u with window := some (t.advanced u) } =
      andThen (moveFrom t.job (t.index + 1) (t.count - (t.index + 1)) u) fun r =>
        .next ((r.closed t).completeImm 3 t.control t.job.dst t.count t.job.dstStep t.job.width) := by
    rw [finishWindow_window, finishWindow_eq_closed]
    show andThen (moveFrom t.job (t.index + 1) (t.count - (t.index + 1)) u) (fun r =>
        .next ((r.closed (t.advanced u)).completeImm 3 t.control t.job.dst t.count t.job.dstStep t.job.width)) = _
    rcases Nat.lt_or_ge (t.index + 1) t.count with hmore | hlast
    · simp only [State.closed_advanced hlt u (.inl hmore)]
    · rw [show t.count - (t.index + 1) = 0 by omega]
      simp only [moveFrom_zero, andThen_next, State.closed_advanced hlt u (.inr rfl)]
  rw [advanceWindow_eq, andThen_assoc, finishWindow_eq_closed t s, hcount, moveFrom_succ, andThen_assoc]
  congr 1
  funext u
  exact hrest u

end Sys2Proof.Machine
end

section
/-! Rules R11, R265, R266 and R268: the closing of the nesting window, and the lines that wait for it. -/

namespace Sys2Proof.Machine

/-! ### The closing of the window -/

theorem Window.finalTr_of_pattern {t : Window} {p : Word} (h : t.job.pattern = some p) (tr : Word) :
    t.finalTr tr = rep p t.job.width := by
  rw [Window.finalTr, h]

theorem Window.finalTr_of_reads {t : Window} (h : t.job.pattern = none) (tr : Word) :
    t.finalTr tr = if t.index < t.count then tr else t.lastImage := by
  rw [Window.finalTr, h]

/-- The control slots after the completion of an immediate start. -/
theorem State.completeImm_ctrl (u : State) (c : Channel) (v : Half) (dst : Word) (n : Nat) (ds : StepDir) (w : Width) (d : Channel) :
    ((u.completeImm c v dst n ds w).slots d).ctrl =
      if d = c ∧ ctlRep v = false then clearEn (u.slots c).ctrl else (u.slots d).ctrl := by
  rw [State.completeImm_eq u c v dst dst 0#32 n .inc ds w, State.slots_def]
  cases hr : ctlRep v with
  | true => simp [State.slots_def]
  | false =>
    by_cases hd : d = c
    · subst hd
      simp
    · simp [hd, State.slots_def]

/-- Settles O42: the step is the end of the window; the completion sets the fields named and the rest of the transfer left the others. -/
theorem theNestingWindowClosesAndRestoresThePolicy : Obligations.TheNestingWindowClosesAndRestoresThePolicy := by
  intro t s hw hh hi hspare
  obtain ⟨u, hu⟩ := moveFrom_completes (j := t.job) (i := t.index) (k := t.count - t.index)
    (fun m _ hm => hspare m (by omega)) s
  obtain ⟨hframe, -⟩ := moveFrom_next hu
  have hstep : step s = .next ((u.closed t).completeImm 3 t.control t.job.dst t.count t.job.dstStep t.job.width) := by
    rw [step_finishes hw hh hi, finishWindow_eq_closed, hu, andThen_next]
  refine ⟨u, _, hu, hstep, ?_⟩
  have hctrl (c : Channel) := State.completeImm_ctrl (u.closed t) 3 t.control t.job.dst t.count t.job.dstStep t.job.width c
  rw [State.completeImm_eq (u.closed t) 3 t.control t.job.src t.job.dst 0#32 t.count t.job.srcStep t.job.dstStep t.job.width] at hctrl ⊢
  refine ⟨rfl, hframe.script, rfl, rfl, rfl, rfl, rfl, ?_, rfl, fun p hp => Window.finalTr_of_pattern hp _,
    fun hp => Window.finalTr_of_reads hp _, ?_, fun c => ?_⟩
  · exact congrArg (pendingAfter · 3 (ctlIrq t.control)) hframe.irqPending
  · exact congrArg (fun q : Quad Chan => q.set 3 { q.get 3 with
      handler := if ctlRep t.control then .immediateCompleted else .inactive }) hframe.chans
  · rw [hctrl c, ← hframe.ctrl 3, ← hframe.ctrl c]
    rfl

/-! ### Lines that wait -/

/-- Where the next line is not due, the engine has its turn. -/
theorem step_not_due {s : State} {t : Window} {o : Offer} {rest : List Offer} (hw : s.window = some t) (hs : s.script = o :: rest)
    (hd : o.due t = false) : step s = serviceWindow t s := by
  have hoff : s.offered = none := by simp [State.offered, hs, hw, hd]
  rw [step, hoff]
  simp [unattended, hw]

/-- With nothing offered and nothing in service a step changes nothing. -/
theorem step_idle {s : State} (hw : s.window = none) (hs : s.script = []) : step s = .next s := by
  have hoff : s.offered = none := by simp [State.offered, hs]
  rw [step, hoff]
  simp [unattended, hw]

/-- Settles O57: the engine's turn does not touch the run; it is one element or the end of the window, as the next line says. -/
theorem aLineThatIsNotDueWaits : Obligations.ALineThatIsNotDueWaits := by
  intro s o rest t
  refine ⟨fun hw hs hd r hr => ?_, fun hw hs ⟨k, ho, hlt, hle⟩ => ?_, fun hw hh hi => step_finishes hw hh hi,
    fun hw hs => step_idle hw hs⟩
  · rw [step_not_due hw hs hd] at hr
    rw [(serviceWindow_opFrame hr).script, hs]
  · have hstep := step_advances hw hs ho hlt hle
    refine ⟨hstep, fun u hu => ?_⟩
    rw [hstep, advanceWindow_eq, hu]
    rfl

end Sys2Proof.Machine
end

section
/-! Rules R199, R202, R257 and R265: immediate starts, audio starts, and the levels after a stop. -/

namespace Sys2Proof.Machine

/-! ### Immediate starts -/

/-- What an immediate start of channel `c` with control word `v` leaves beside its result: the bytes outside the destination, and the
register view where no element lands on it. -/
abbrev ImmediateFrame (s t : State) (c : Channel) (v : Half) (ss : StepDir) : Prop :=
  (∀ x, ¬ s.storedBy (s.immJob c v ss) (s.count c) x → t.byteAt x = s.byteAt x) ∧
    ((s.immJob c v ss).sparesView (s.count c) →
      t.view = s.view.set c { s.view.get c with ctrl := if ctlRep v then v else clearEn v })

/-- The transfer begins in a state `b` that has the memory, the translation and `TR` of `s` and the control slot stored. -/
theorem ImmediateResult.frame {s b u t : State} {c : Channel} {v : Half} {ss : StepDir} {e : List Event}
    (h : ImmediateResult s u t c v ss e) (hmem : b.mem = s.mem) (hxlate : ∀ a, b.xlate a = s.xlate a) (htr : b.tr = s.tr)
    (hview : b.view = s.view.set c { s.view.get c with ctrl := v })
    (hu : xfer (s.immSource c) (s.slots c).dad (s.count c) ss (dstep v) (wbits v) b = .next u) : ImmediateFrame s t c v ss := by
  obtain ⟨-, -, hbytes, hslots⟩ := xfer_next hu
  rw [htr] at hbytes hslots
  refine ⟨fun x hx => ?_, fun hspare => ?_⟩
  · have hkept : u.byteAt x = b.byteAt x := hbytes x fun ⟨i, hi, hp, hin⟩ => hx ⟨i, hi, hp, by rwa [← hxlate]⟩
    simp only [State.byteAt, h.mem, hmem] at hkept ⊢
    exact hkept
  · rw [h.view, hslots hspare, hview, Quad.set_set, Quad.get_set_same]

/-- Settles O38: the transfer completes because it spares the control slots; then the completion. -/
theorem immediateStartTransfersAtOnce : Obligations.ImmediateStartTransfersAtOnce := by
  intro c v ss s ha hc hs hspare
  obtain ⟨u, hu⟩ := xfer_completes (src := s.immSource c) (dst := (s.slots c).dad) (n := s.count c) (ss := ss) (ds := dstep v)
    (w := wbits v) (s := s.immStarted c v ss) hspare
  obtain ⟨hframe, -⟩ := xfer_next hu
  have hresult : ImmediateResult s u (u.completeImm c v (s.slots c).dad (s.count c) (dstep v) (wbits v)) c v ss u.trace :=
    State.completeImm_result hframe
  refine ⟨u, _, hu, ?_, hresult, hresult.frame (b := s.immStarted c v ss) rfl (fun _ => rfl) rfl rfl hu⟩
  refine (execStartImm_started ha hs).trans ?_
  rw [if_neg hc, hu, andThen_next]

/-- The nesting window of an immediate start of channel 3. -/
def State.immWindow (s : State) (v : Half) (ss : StepDir) : Window :=
  (s.immStarted 3 v ss).newWindow (s.immJob 3 v ss) (s.count 3) v

/-- The state in which the transfer of an immediate start of channel 3 begins. -/
def State.immOpened (s : State) (v : Half) (ss : StepDir) : State := (s.immStarted 3 v ss).openWindow (s.immWindow v ss)

/-- What the transfer left, with the window closed. -/
def State.immClosed (s u : State) : State :=
  { u with
    nestedIrqEnabled := s.nestedIrqEnabled, window := none
    trace := .nestDelivery s.nestedIrqEnabled :: u.trace }

/-- Where the host takes no step in it, the window brackets the whole transfer. -/
theorem execStartImm_bracketed {v : Half} {ss : StepDir} {s : State} (ha : s.acceptsCmd 3) (hs : sstep v = some ss)
    (hh : ¬ s.hostInWindow (s.count 3)) :
    execStartImm 3 v s =
      andThen (xfer (s.immSource 3) (s.slots 3).dad (s.count 3) ss (dstep v) (wbits v) (s.immOpened v ss)) fun u =>
        .next ((s.immClosed u).completeImm 3 v (s.slots 3).dad (s.count 3) (dstep v) (wbits v)) := by
  have hh' : ¬ (s.immStarted 3 v ss).hostInWindow (s.count 3) := hh
  have hcount : s.count 3 ≠ 0 := by
    have hbound : 1 ≤ s.count 3 := (effCount_bounds _).1
    omega
  rw [execStartImm_started ha hs, if_pos rfl, windowedTransfer_whole hh']
  exact finishWindow_new (s := s.immStarted 3 v ss) hcount (s.immSource 3) (s.slots 3).dad ss (dstep v) (wbits v) v

/-- A transfer between the opening and the closing of the window leaves what no transfer touches as the start left it. -/
theorem State.immClosed_frame {s u : State} {v : Half} {ss : StepDir} (hw : s.window = none)
    (h : TransferFrame (s.immOpened v ss) u) : TransferFrame (s.immStarted 3 v ss) (s.immClosed u) :=
  { h with nestedIrqEnabled := rfl, window := hw.symm }

/-- The result of an immediate start looks at the transfer's memory, `TR`, cache block, oracle and slots alone. -/
theorem ImmediateResult.congr {s u u' t : State} {c : Channel} {v : Half} {ss : StepDir} {e : List Event}
    (h : ImmediateResult s u t c v ss e) (hmem : u'.mem = u.mem) (htr : u'.tr = u.tr) (hblock : u'.block = u.block)
    (hanswers : u'.devAnswers = u.devAnswers) (hreads : u'.devReads = u.devReads) (hview : u'.view = u.view) :
    ImmediateResult s u' t c v ss e :=
  { h with
    mem := by rw [hmem, h.mem]
    tr := by rw [htr, h.tr]
    block := by rw [hblock, h.block]
    devAnswers := by rw [hanswers, h.devAnswers]
    devReads := by rw [hreads, h.devReads]
    view := by rw [hview, h.view] }

/-- Settles O39: as on the other channels, with the window opened before the transfer and closed after it. -/
theorem immediateStartOnChannelThreeIsBracketed : Obligations.ImmediateStartOnChannelThreeIsBracketed := by
  intro v ss s ha hs hspare hh
  have hw : s.window = none := ha.2.resolve_right fun h => h rfl
  obtain ⟨u, hu⟩ := xfer_completes (src := s.immSource 3) (dst := (s.slots 3).dad) (n := s.count 3) (ss := ss) (ds := dstep v)
    (w := wbits v) (s := s.immOpened v ss) hspare
  obtain ⟨hframe, -⟩ := xfer_next hu
  have hclosed : ImmediateResult s (s.immClosed u)
      ((s.immClosed u).completeImm 3 v (s.slots 3).dad (s.count 3) (dstep v) (wbits v)) 3 v ss (s.immClosed u).trace :=
    State.completeImm_result (State.immClosed_frame hw hframe)
  have hresult := hclosed.congr (u' := u) rfl rfl rfl rfl rfl rfl
  refine ⟨s.immWindow v ss, u, _, rfl, hu, ?_, hresult, hresult.frame (b := s.immOpened v ss) rfl (fun _ => rfl) rfl rfl hu⟩
  refine (execStartImm_bracketed ha hs hh).trans ?_
  rw [hu, andThen_next]

/-! ### Audio starts -/

/-- A channel record that keeps the blanking flag keeps the blanking level. -/
theorem State.setChan_anyHb_of_hb_eq (s : State) {c : Channel} {x : Chan} (hx : x.hb = (s.chan c).hb) :
    (s.setChan c x).anyHb = s.anyHb := by
  refine State.anyHb_congr fun d => ?_
  by_cases hd : d = c
  · rw [hd, State.setChan_chan_same, hx]
  · rw [State.setChan_chan_other s hd]

/-- A channel record with the audio flag set asserts the audio level. -/
theorem State.setChan_anyAu_of_au (s : State) (c : Channel) {x : Chan} (hx : x.au = true) : (s.setChan c x).anyAu = true :=
  (State.anyAu_iff _).mpr ⟨c, by rw [State.setChan_chan_same, hx]⟩

/-- An accepted audio start from an allowed source. -/
theorem audioStart_arms {c : Channel} {v : Half} {s : State} (h : s.acceptsCmd c)
    (hd : disallowed s.params (s.slots c).sad = false) :
    audioStart c v s = .next { s with
      view := s.view.set c { s.view.get c with ctrl := v }
      chans := s.chans.set c {
        src := (s.slots c).sad, dst := (s.slots c).dad, hb := (s.chan c).hb, au := true, handler := .audioTrigger }
      drainRequest := false
      drainView := false
      forcedIrqMask :=
        setMaskBit (setMaskBit s.forcedIrqMask s.params.forcedBlankBit s.anyHb) s.params.forcedAudioBit true
      blankingIrqEnabled := s.anyHb
      trace := .sharedEnables s.anyHb true :: .releaseDrain :: s.trace } := by
  rw [audioStart_eq h, if_neg (Bool.eq_false_iff.mp hd)]
  exact congrArg _ (State.updateSharedEnables_of_levels ((s.setCtrl c v).setChan_anyHb_of_hb_eq (c := c) rfl)
    ((s.setCtrl c v).setChan_anyAu_of_au c rfl))

/-- Settles O37: both operations are the audio start of their channel; the record it arms keeps the blanking flag and sets the audio
flag. -/
theorem audioStartArmsOrIsDropped : Obligations.AudioStartArmsOrIsDropped := by
  intro c v s ha hc
  have hexec : exec (if c = 1 then .startAud1 v else .startAud2 v) s = audioStart c v s := by
    rcases hc with rfl | rfl <;> rfl
  refine ⟨fun hd => ?_, fun hd => ⟨s.anyHb, s.anyHb_iff, ?_⟩⟩
  · exact hexec.trans ((audioStart_eq ha).trans (if_pos hd))
  · exact hexec.trans (audioStart_arms ha hd)

/-! ### The levels after a stop -/

/-- Settles O35: after a stop the driven levels are the ORs over the other channels; a deactivation is a stop, too. -/
theorem onlyTheLastHolderLowersASharedLevel : Obligations.OnlyTheLastHolderLowersASharedLevel := by
  intro c v s hp
  have levels (x : Half) :
      (((s.setCtrl c x).stop c).forcedIrqMask.testBit s.params.forcedBlankBit = true ↔ ∃ d, d ≠ c ∧ (s.chan d).hb = true) ∧
      (((s.setCtrl c x).stop c).blankingIrqEnabled = true ↔ ∃ d, d ≠ c ∧ (s.chan d).hb = true) ∧
      (((s.setCtrl c x).stop c).forcedIrqMask.testBit s.params.forcedAudioBit = true ↔ ∃ d, d ≠ c ∧ (s.chan d).au = true) := by
    obtain ⟨hBlank, hEnabled, hAudio⟩ := State.stop_levels (s := s.setCtrl c x) hp c
    exact ⟨(Bool.eq_iff_iff.mp hBlank).trans (State.stop_anyHb _ c), (Bool.eq_iff_iff.mp hEnabled).trans (State.stop_anyHb _ c),
      (Bool.eq_iff_iff.mp hAudio).trans (State.stop_anyAu _ c)⟩
  exact ⟨fun ha => ⟨_, execCtrlStop_of_accepts ha v, levels v⟩, levels _⟩

end Sys2Proof.Machine
end

section
/-! Rules R165 and R170 to R174: what a transfer writes, what it leaves alone, and what it leaves in `TR`. -/

namespace Sys2Proof.Machine

/-! ### The value of an element -/

theorem elem_elem (w : Width) (v : Word) : elem w (elem w v) = elem w v := by
  cases w with
  | w16 => rw [elem, elem, BitVec.and_assoc, BitVec.and_self]
  | w32 => rfl

/-- The image in `TR` looks at the bits of the element alone. -/
theorem rep_elem (w : Width) (v : Word) : rep (elem w v) w = rep v w := by
  cases w with
  | w16 => rw [rep, rep, elem_extractLsb' v (by decide)]
  | w32 => rfl

/-- Both halves of the image of a 16-bit element are the element (rule R13). -/
theorem rep_w16_halves (v : Word) : (rep v .w16).extractLsb' 16 16 = (rep v .w16).extractLsb' 0 16 := by
  rw [rep, BitVec.extractLsb'_append_eq_left, BitVec.extractLsb'_append_eq_right]

/-- The value element `i` is written with in state `s`: the pattern, or what its source reads as. -/
def Job.valueAt (j : Job) (i : Nat) (s : State) : Word :=
  match j.pattern with
  | some p => p
  | none => (s.memRead (j.srcAt i) j.width).1

theorem Job.valueAt_of_pattern {j : Job} {p : Word} (h : j.pattern = some p) (i : Nat) (s : State) : j.valueAt i s = p := by
  rw [valueAt, h]

theorem Job.valueAt_of_read {j : Job} (h : j.pattern = none) (i : Nat) (s : State) :
    j.valueAt i s = (s.memRead (j.srcAt i) j.width).1 := by
  rw [valueAt, h]

theorem mkJob_pattern_of_openBus {src : Word} {w : Width} (h : alignDown src w < 0x02000000#32) (dst : Word) (ss ds : StepDir)
    (tr : Word) : (mkJob src dst ss ds w tr).pattern = some (elem w tr) := if_pos h

theorem mkJob_pattern_of_read {src : Word} {w : Width} (h : ¬ alignDown src w < 0x02000000#32) (dst : Word) (ss ds : StepDir)
    (tr : Word) : (mkJob src dst ss ds w tr).pattern = none := if_neg h

/-! ### The element just moved -/

theorem State.memWrite_plain {a : Word} (h : (region a).plain = true) (s : State) (w : Width) (v : Word) :
    s.memWrite a w v = .next (s.backWrite (s.xlate a) w v) := if_pos h

/-- What an element reads from backing memory is a matter of memory alone. -/
theorem State.backRead_of_mem_eq {s t : State} (h : t.mem = s.mem) (b : Word) (w : Width) : t.backRead b w = s.backRead b w :=
  State.backRead_congr fun x _ => by rw [State.byteAt, State.byteAt, h]

@[simp] theorem State.backRead_tr (s : State) (x b : Word) (w : Width) :
    State.backRead { s with tr := x } b w = s.backRead b w := State.backRead_congr fun _ _ => rfl

/-- A plain destination element holds the value it was written with. -/
theorem moveOne_stored {j : Job} {i : Nat} {s t : State} (hm : s.mem.wf) (hp : (region (j.dstAt i)).plain = true)
    (h : moveOne j i s = .next t) : t.backRead (s.xlate (j.dstAt i)) j.width = elem j.width (j.valueAt i s) := by
  cases hpat : j.pattern with
  | some p =>
    rw [moveOne_openBus hpat, State.memWrite_plain hp] at h
    cases h
    rw [State.backRead_backWrite hm, Job.valueAt_of_pattern hpat]
  | none =>
    have hr := s.memRead_frame (j.srcAt i) j.width
    rw [moveOne_read hpat] at h
    obtain ⟨u, hu, ht⟩ := andThen_eq_next.1 h
    cases ht
    rw [State.backRead_tr]
    rw [State.memWrite_plain hp, hr.xlate] at hu
    cases hu
    rw [State.backRead_backWrite (by rwa [State.memRead_mem]), Job.valueAt_of_read hpat]

/-- The last element of a transfer: moved in the state the earlier moves left, and its image stands in `TR` (rules R165, R172). -/
theorem xfer_last {src dst : Word} {n : Nat} {ss ds : StepDir} {w : Width} {s t : State} (hn : n ≠ 0)
    (h : xfer src dst n ss ds w s = .next t) :
    ∃ u v, moveFrom (mkJob src dst ss ds w s.tr) 0 (n - 1) s = .next u ∧
      moveOne (mkJob src dst ss ds w s.tr) (n - 1) u = .next v ∧ t.mem = v.mem ∧
      t.tr = rep ((mkJob src dst ss ds w s.tr).valueAt (n - 1) u) w := by
  rw [xfer_pos hn, show n = n - 1 + 1 by omega, moveFrom_last, Nat.zero_add] at h
  obtain ⟨v, hv, ht⟩ := andThen_eq_next.1 h
  obtain ⟨u, hu, hl⟩ := andThen_eq_next.1 hv
  cases ht
  refine ⟨u, v, hu, hl, Job.endPass_mem .., ?_⟩
  cases hp : (mkJob src dst ss ds w s.tr).pattern with
  | some p => simp [Job.endPass, hp, Job.valueAt]
  | none =>
    obtain ⟨-, -, -, -, -, htr⟩ := moveOne_next hl
    simpa [Job.endPass, hp, Job.valueAt] using htr hp

/-- Where the last element was written to a plain region, `TR` is the image of what now stands there. -/
theorem xfer_tr_plain {src dst : Word} {n : Nat} {ss ds : StepDir} {w : Width} {s t : State} (hm : s.mem.wf) (hn : n ≠ 0)
    (h : xfer src dst n ss ds w s = .next t) (hp : (region (adv (alignDown dst w) (n - 1) w ds)).plain = true) :
    t.tr = rep (t.backRead (s.xlate (adv (alignDown dst w) (n - 1) w ds)) w) w := by
  obtain ⟨u, v, hu, hv, hmem, htr⟩ := xfer_last hn h
  obtain ⟨hframe, hwf, -⟩ := moveFrom_next hu
  rw [← mkJob_dstAt src dst ss ds w s.tr] at hp ⊢
  have hstored := moveOne_stored (hwf hm) hp hv
  rw [hframe.xlate, mkJob_width] at hstored
  rw [htr, State.backRead_of_mem_eq hmem, hstored, rep_elem]

/-- Settles O27: the frame of a transfer and what it leaves beside memory. -/
theorem aTransferLeavesChannelStateAlone : Obligations.ATransferLeavesChannelStateAlone := by
  intro s t src dst ss ds n w h
  obtain ⟨hframe, -, hbytes, hview⟩ := xfer_next h
  obtain ⟨hblock, hdevice⟩ := xfer_ports h
  exact ⟨hframe, hbytes, hview, hblock, hdevice⟩

/-- Settles O30: the image is that of the last element moved, which a plain destination holds. -/
theorem theTransferRegisterHoldsTheLastElement : Obligations.TheTransferRegisterHoldsTheLastElement := by
  intro s t src dst ss ds n w hm hn h
  refine ⟨fun hs => xfer_tr hn hs h, ?_, xfer_tr_plain hm hn h⟩
  rintro rfl
  obtain ⟨u, -, -, -, -, htr⟩ := xfer_last hn h
  rw [htr, rep_w16_halves]

/-! ### The footprint -/

theorem width_bytes_le_four (w : Width) : w.bytes ≤ 4 := by cases w <;> decide

theorem width_bytes_pos (w : Width) : 0 < w.bytes := by cases w <;> decide

/-- The bytes of `n` ascending elements from `a` are the range of `n * e` bytes from `a`. -/
theorem exists_element_iff_in_range {n : Nat} {w : Width} (hmax : n ≤ 0x10000) (a x : Word) :
    (∃ i < n, (x - adv a i w .inc).toNat < w.bytes) ↔ (x - a).toNat < n * w.bytes := by
  have hpos := width_bytes_pos w
  have hle := width_bytes_le_four w
  have hoffset (i : Nat) (hi : i < n) :
      (x - adv a i w .inc).toNat < w.bytes ↔ i * w.bytes ≤ (x - a).toNat ∧ (x - a).toNat < i * w.bytes + w.bytes := by
    have hspan : i * w.bytes ≤ 0x10000 * 4 := Nat.mul_le_mul (by omega) hle
    rw [adv]
    generalize i * w.bytes = o at *
    generalize w.bytes = e at *
    bv_omega
  constructor
  · rintro ⟨i, hi, hx⟩
    have hlast : (i + 1) * w.bytes ≤ n * w.bytes := Nat.mul_le_mul_right _ hi
    rw [hoffset i hi] at hx
    rw [Nat.add_one_mul] at hlast
    omega
  · intro hx
    have hi : (x - a).toNat / w.bytes < n := Nat.div_lt_of_lt_mul (by rwa [Nat.mul_comm])
    refine ⟨_, hi, (hoffset _ hi).mpr ?_⟩
    have hdiv := Nat.div_add_mod (x - a).toNat w.bytes
    have hmod := Nat.mod_lt (x - a).toNat hpos
    rw [Nat.mul_comm] at hdiv
    omega

/-- A descending run is the ascending run from its last element, in the other order. -/
theorem adv_dec_eq_adv_inc (a : Word) (w : Width) {i n : Nat} (hi : i < n) :
    adv a i w .dec = adv (a - BitVec.ofNat 32 ((n - 1) * w.bytes)) (n - 1 - i) w .inc := by
  have hsum : (n - 1) * w.bytes = (n - 1 - i) * w.bytes + i * w.bytes := by rw [← Nat.add_mul]; congr 1; omega
  rw [adv, adv, hsum, BitVec.ofNat_add]
  ring

/-- Settles O28: an ascending run is its range, a descending one the same range from its last element, a fixed one one element. -/
theorem footprintIsAGuestByteRange : Obligations.FootprintIsAGuestByteRange := by
  intro src dst tr x ss ds n w hn hmax
  cases ds with
  | inc => exact exists_element_iff_in_range hmax _ x
  | dec =>
    refine Iff.trans ⟨?_, ?_⟩ (exists_element_iff_in_range hmax (alignDown dst w - BitVec.ofNat 32 ((n - 1) * w.bytes)) x)
    · rintro ⟨i, hi, hx⟩
      refine ⟨n - 1 - i, by omega, ?_⟩
      rwa [mkJob_width, ← adv_dec_eq_adv_inc _ w hi]
    · rintro ⟨i, hi, hx⟩
      have hback : n - 1 - (n - 1 - i) = i := by omega
      refine ⟨n - 1 - i, by omega, ?_⟩
      rwa [mkJob_dstAt, adv_dec_eq_adv_inc _ w (show n - 1 - i < n by omega), hback]
  | fix => exact ⟨fun ⟨_, _, hx⟩ => hx, fun hx => ⟨0, hn, hx⟩⟩

end Sys2Proof.Machine
end

section
/-! Rules R160 to R172: the open-bus pass, and a transfer between plain runs that do not overlap. -/

namespace Sys2Proof.Machine

/-! ### Alignment of elements -/

theorem alignDown_mod (a : Word) (w : Width) : (alignDown a w).toNat % w.bytes = 0 := by
  cases w with
  | w16 =>
    have hmask : 0xFFFFFFFE &&& (2 ^ 1 - 1) = 0 := by decide
    show _ % 2 ^ 1 = 0
    rw [alignDown, BitVec.toNat_and, ← Nat.and_two_pow_sub_one_eq_mod, Nat.and_assoc, BitVec.toNat_ofNat, Nat.mod_eq_of_lt (by decide),
      hmask, Nat.and_zero]
  | w32 =>
    have hmask : 0xFFFFFFFC &&& (2 ^ 2 - 1) = 0 := by decide
    show _ % 2 ^ 2 = 0
    rw [alignDown, BitVec.toNat_and, ← Nat.and_two_pow_sub_one_eq_mod, Nat.and_assoc, BitVec.toNat_ofNat, Nat.mod_eq_of_lt (by decide),
      hmask, Nat.and_zero]

/-- A cursor that starts aligned stays aligned. -/
theorem adv_mod {a : Word} {w : Width} (h : a.toNat % w.bytes = 0) (i : Nat) (d : StepDir) : (adv a i w d).toNat % w.bytes = 0 := by
  cases d with
  | inc =>
    rw [adv, BitVec.toNat_add, BitVec.toNat_ofNat]
    cases w <;> simp only [Width.bytes] at h ⊢ <;> omega
  | dec =>
    rw [adv, BitVec.toNat_sub, BitVec.toNat_ofNat]
    cases w <;> simp only [Width.bytes] at h ⊢ <;> omega
  | fix => exact h

/-- The translation keeps the alignment of an element. -/
theorem State.xlate_mod {s : State} (h : s.params.ok = true) {a : Word} {w : Width} (ha : a.toNat % w.bytes = 0) :
    (s.xlate a).toNat % w.bytes = 0 := by
  have hmod : (s.xlate a).toNat % 4 = a.toNat % 4 := xlate_mod_four h s.dispMode a
  cases w <;> simp only [Width.bytes] at ha ⊢ <;> omega

/-- Two aligned elements are one element or share no byte. -/
theorem elementsApart_of_aligned {a b : Word} {w : Width} (ha : a.toNat % w.bytes = 0) (hb : b.toNat % w.bytes = 0) (hne : a ≠ b) :
    elementsApart a b w := by
  have hne' := word_toNat_ne hne
  rintro x ⟨hx, hx'⟩
  have h (c : Word) (hc : inBacking x c w) (hmod : c.toNat % w.bytes = 0) : c.toNat = x.toNat - x.toNat % w.bytes := by
    simp only [inBacking, BitVec.toNat_sub] at hc
    cases w <;> simp only [Width.bytes] at hc hmod ⊢ <;> omega
  exact hne' ((h a hx ha).trans (h b hx' hb).symm)

/-! ### One element out of a run -/

/-- A run split at one of its elements. -/
theorem moveFrom_split {j : Job} {n i : Nat} {s t : State} (hi : i < n) (h : moveFrom j 0 n s = .next t) :
    ∃ u v, moveFrom j 0 i s = .next u ∧ moveOne j i u = .next v ∧ moveFrom j (i + 1) (n - (i + 1)) v = .next t := by
  rw [show n = i + (n - (i + 1) + 1) by omega, moveFrom_add, Nat.zero_add] at h
  obtain ⟨u, hu, hrest⟩ := andThen_eq_next.1 h
  rw [moveFrom_succ] at hrest
  obtain ⟨v, hv, ht⟩ := andThen_eq_next.1 hrest
  exact ⟨u, v, hu, hv, ht⟩

/-- A transfer of some elements is its run with another `TR`. -/
theorem xfer_run {src dst : Word} {n : Nat} {ss ds : StepDir} {w : Width} {s t : State} (hn : n ≠ 0)
    (h : xfer src dst n ss ds w s = .next t) :
    ∃ u, moveFrom (mkJob src dst ss ds w s.tr) 0 n s = .next u ∧ t.mem = u.mem := by
  rw [xfer_pos hn] at h
  obtain ⟨u, hu, ht⟩ := andThen_eq_next.1 h
  cases ht
  exact ⟨u, hu, Job.endPass_mem ..⟩

/-! ### The open-bus pass -/

/-- A pass writes one value: an aligned element that holds it keeps it, whether the write lands on it or apart from it. -/
theorem moveOne_openBus_keeps {j : Job} {p b : Word} (hpat : j.pattern = some p) {i : Nat} {s t : State} (hm : s.mem.wf)
    (hb : b.toNat % j.width.bytes = 0) (ha : (s.xlate (j.dstAt i)).toNat % j.width.bytes = 0)
    (hv : s.backRead b j.width = elem j.width p) (h : moveOne j i s = .next t) : t.backRead b j.width = elem j.width p := by
  by_cases hp : (region (j.dstAt i)).plain = true
  · rw [moveOne_openBus hpat, State.memWrite_plain hp] at h
    cases h
    by_cases hne : b = s.xlate (j.dstAt i)
    · rw [hne, State.backRead_backWrite hm]
    · rw [State.backRead_backWrite_apart _ (elementsApart_of_aligned hb ha hne), hv]
  · obtain ⟨-, -, hbytes, -⟩ := moveOne_next h
    rw [State.backRead_congr fun x _ => hbytes x fun hin => hp hin.1, hv]

/-- The same of a run. -/
theorem moveFrom_openBus_keeps {j : Job} {p b : Word} (hpat : j.pattern = some p) (hb : b.toNat % j.width.bytes = 0) {k : Nat} :
    ∀ {i : Nat} {s t : State}, s.mem.wf → (∀ m, (s.xlate (j.dstAt m)).toNat % j.width.bytes = 0) →
      s.backRead b j.width = elem j.width p → moveFrom j i k s = .next t → t.backRead b j.width = elem j.width p := by
  induction k with
  | zero =>
    intro i s t _ _ hv h
    cases h
    exact hv
  | succ k ih =>
    intro i s t hm ha hv h
    obtain ⟨u, hu, ht⟩ := andThen_eq_next.1 h
    obtain ⟨hframe, hwf, -⟩ := moveOne_next hu
    refine ih (hwf hm) (fun m => ?_) (moveOne_openBus_keeps hpat hm hb (ha i) hv hu) ht
    rw [hframe.xlate]
    exact ha m

/-- After an open-bus pass every plain destination element holds the pattern (rule R165). -/
theorem moveFrom_openBus_stored {j : Job} {p : Word} (hpat : j.pattern = some p) {n i : Nat} {s t : State} (hm : s.mem.wf)
    (ha : ∀ m, (s.xlate (j.dstAt m)).toNat % j.width.bytes = 0) (hi : i < n) (hp : (region (j.dstAt i)).plain = true)
    (h : moveFrom j 0 n s = .next t) : t.backRead (s.xlate (j.dstAt i)) j.width = elem j.width p := by
  obtain ⟨u, v, hu, hv, ht⟩ := moveFrom_split hi h
  obtain ⟨hframe, hwf, -⟩ := moveFrom_next hu
  obtain ⟨hframe', hwf', -⟩ := moveOne_next hv
  have hstored := moveOne_stored (hwf hm) hp hv
  rw [hframe.xlate, Job.valueAt_of_pattern hpat] at hstored
  refine moveFrom_openBus_keeps hpat (ha i) (hwf' (hwf hm)) (fun m => ?_) hstored ht
  rw [hframe'.xlate, hframe.xlate]
  exact ha m

/-- A pass looks at its destination and its pattern alone. -/
theorem moveFrom_openBus_congr {j j' : Job} {p : Word} (hpat : j.pattern = some p) (hpat' : j'.pattern = some p)
    (hdst : ∀ i, j'.dstAt i = j.dstAt i) (hw : j'.width = j.width) (k : Nat) : ∀ i s, moveFrom j' i k s = moveFrom j i k s := by
  induction k with
  | zero => exact fun _ _ => rfl
  | succ k ih =>
    intro i s
    rw [moveFrom_succ, moveFrom_succ, moveOne_openBus hpat, moveOne_openBus hpat', hdst, hw]
    congr 1
    funext u
    exact ih _ u

/-- An open-bus pass is the same from every source below the limit, with any source step. -/
theorem xfer_openBus_source {src src' : Word} {w : Width} (hs : alignDown src w < 0x02000000#32)
    (hs' : alignDown src' w < 0x02000000#32) (dst : Word) (n : Nat) (ss ss' ds : StepDir) (s : State) :
    xfer src' dst n ss' ds w s = xfer src dst n ss ds w s := by
  by_cases hn : n = 0
  · rw [hn, xfer_zero, xfer_zero]
  · have hpat := mkJob_pattern_of_openBus hs dst ss ds s.tr
    have hpat' := mkJob_pattern_of_openBus hs' dst ss' ds s.tr
    rw [xfer_pos hn, xfer_pos hn, moveFrom_openBus_congr hpat hpat' (fun _ => rfl) rfl]
    simp only [Job.endPass, hpat, hpat', mkJob_width]

/-- Settles O26: the pattern is the value of every element; nothing the pass reads lies outside `TR`. -/
theorem openBusPassWritesThePattern : Obligations.OpenBusPassWritesThePattern := by
  intro s src dst ss ds n w hok hm hs hn hspare
  have hpat := mkJob_pattern_of_openBus hs dst ss ds s.tr
  obtain ⟨t, h⟩ := xfer_completes hspare
  obtain ⟨hframe, -, hbytes, -⟩ := xfer_next h
  obtain ⟨hblock, hdevice⟩ := xfer_ports h
  obtain ⟨hanswers, hreads, -⟩ := hdevice (.inl (by rw [hpat]; rfl))
  obtain ⟨u, -, -, -, -, htr⟩ := xfer_last hn h
  rw [Job.valueAt_of_pattern hpat, rep_elem] at htr
  refine ⟨t, h, ?_, ?_, fun i hi hp => ?_, hbytes, hframe, hanswers, hreads, hblock (.inl (by rw [hpat]; rfl)), fun src' ss' hs' => ?_⟩
  · rintro rfl
    exact htr
  · rintro rfl
    exact htr
  · obtain ⟨r, hrun, hmem⟩ := xfer_run hn h
    rw [State.backRead_of_mem_eq hmem]
    have hstored := moveFrom_openBus_stored hpat hm (fun m => State.xlate_mod hok (adv_mod (alignDown_mod dst w) m ds)) hi hp hrun
    rwa [mkJob_width, elem_elem] at hstored
  · rw [xfer_openBus_source hs hs' dst n ss ss' ds s, h]

/-! ### Plain runs -/

/-- The move of an element between plain regions. -/
theorem moveOne_plain {j : Job} (hpat : j.pattern = none) {i : Nat} (hsrc : (region (j.srcAt i)).plain = true)
    (hdst : (region (j.dstAt i)).plain = true) (s : State) :
    moveOne j i s =
      .next { s.backWrite (s.xlate (j.dstAt i)) j.width (s.backRead (s.xlate (j.srcAt i)) j.width) with
        tr := rep (s.backRead (s.xlate (j.srcAt i)) j.width) j.width } := by
  rw [moveOne_read hpat, State.memRead_plain hsrc, State.memWrite_plain hdst, andThen_next]

/-- A run between plain regions changes memory and `TR` alone. -/
theorem moveFrom_plain {j : Job} (hpat : j.pattern = none) {k : Nat} : ∀ {i : Nat},
    (∀ m, i ≤ m → m < i + k → (region (j.srcAt m)).plain = true ∧ (region (j.dstAt m)).plain = true) →
    ∀ s, ∃ mem tr, moveFrom j i k s = .next { s with mem := mem, tr := tr } := by
  induction k with
  | zero => exact fun _ s => ⟨s.mem, s.tr, rfl⟩
  | succ k ih =>
    intro i h s
    obtain ⟨hsrc, hdst⟩ := h i (by omega) (by omega)
    obtain ⟨m, hwrite, -⟩ := s.backWrite_eq (s.xlate (j.dstAt i)) j.width (s.backRead (s.xlate (j.srcAt i)) j.width)
    rw [moveFrom_succ, moveOne_plain hpat hsrc hdst, andThen_next, hwrite]
    obtain ⟨mem, tr, hrest⟩ := ih (i := i + 1) (fun m h1 h2 => h m (by omega) (by omega))
      { s with mem := m, tr := rep (s.backRead (s.xlate (j.srcAt i)) j.width) j.width }
    exact ⟨mem, tr, hrest⟩

section
variable {j : Job} {n : Nat} {s : State}

/-- Elements apart from every element a run moves are as they were. -/
theorem moveFrom_backRead_apart {i k : Nat} {t : State} (h : moveFrom j i k s = .next t) {b : Word}
    (hb : ∀ m, i ≤ m → m < i + k → elementsApart b (s.xlate (j.dstAt m)) j.width) : t.backRead b j.width = s.backRead b j.width := by
  obtain ⟨-, -, hbytes, -⟩ := moveFrom_next h
  exact State.backRead_congr fun x hx => hbytes x fun m h1 h2 hin => hb m h1 h2 x ⟨hx, hin.2⟩

/-- Where a source element is apart from the destination, it is read as it was before the transfer. -/
theorem Job.valueAt_of_apart (hpat : j.pattern = none) {i : Nat} {u : State} (hsrc : (region (j.srcAt i)).plain = true)
    (h : moveFrom j 0 i s = .next u) (hapart : ∀ m < i, elementsApart (s.xlate (j.srcAt i)) (s.xlate (j.dstAt m)) j.width) :
    j.valueAt i u = s.backRead (s.xlate (j.srcAt i)) j.width := by
  obtain ⟨hframe, -⟩ := moveFrom_next h
  rw [Job.valueAt_of_read hpat, State.memRead_plain hsrc, hframe.xlate]
  exact moveFrom_backRead_apart h fun m _ h2 => hapart m (by omega)

/-- Where no destination element shares a byte with another or with a source element, the run copies. -/
theorem moveFrom_copies (hpat : j.pattern = none) (hm : s.mem.wf)
    (hplain : ∀ i < n, (region (j.srcAt i)).plain = true ∧ (region (j.dstAt i)).plain = true)
    (hdistinct : ∀ i < n, ∀ m < n, i ≠ m → elementsApart (s.xlate (j.dstAt i)) (s.xlate (j.dstAt m)) j.width)
    (hapart : ∀ i < n, ∀ m < n, elementsApart (s.xlate (j.srcAt i)) (s.xlate (j.dstAt m)) j.width) {t : State}
    (h : moveFrom j 0 n s = .next t) {i : Nat} (hi : i < n) :
    t.backRead (s.xlate (j.dstAt i)) j.width = s.backRead (s.xlate (j.srcAt i)) j.width := by
  obtain ⟨u, v, hu, hv, hrest⟩ := moveFrom_split hi h
  obtain ⟨hframe, hwf, -⟩ := moveFrom_next hu
  obtain ⟨hframe', -⟩ := moveOne_next hv
  have hvalue := Job.valueAt_of_apart hpat (hplain i hi).1 hu fun m hmi => hapart i hi m (by omega)
  have helem : elem j.width (j.valueAt i u) = j.valueAt i u := by
    rw [Job.valueAt_of_read hpat, State.memRead_elem]
  have hstored := moveOne_stored (hwf hm) (hplain i hi).2 hv
  rw [helem, hvalue, hframe.xlate] at hstored
  refine (moveFrom_backRead_apart hrest fun m h1 h2 => ?_).trans hstored
  rw [hframe'.xlate, hframe.xlate]
  exact hdistinct i hi m (by omega) (by omega)

end

/-- Settles O29: each element is moved once, before and after it only elements apart from it; the state differs in memory and `TR`. -/
theorem aTransferCopiesItsSource : Obligations.ATransferCopiesItsSource := by
  intro s src dst ss ds n w _ _ hm hn hs hplain hdistinct hapart
  have hpat := mkJob_pattern_of_read hs dst ss ds s.tr
  obtain ⟨mem, tr, hrun⟩ := moveFrom_plain hpat (k := n) (i := 0) (fun m _ h2 => hplain m (by omega)) s
  have h : xfer src dst n ss ds w s = .next { s with mem := mem, tr := tr } := by
    rw [xfer_pos hn, hrun, andThen_next, Job.endPass, hpat]
  obtain ⟨-, -, hbytes, -⟩ := xfer_next h
  refine ⟨_, h, fun i hi => moveFrom_copies (j := mkJob src dst ss ds w s.tr) hpat hm hplain hdistinct hapart hrun hi,
    fun x hx => hbytes x fun ⟨i, hi, _, hin⟩ => hx i hi hin, ?_, TransferFrame.of_fields .., rfl, rfl, rfl, rfl, rfl⟩
  obtain ⟨u, -, hu, -, -, htr⟩ := xfer_last hn h
  have hlast : n - 1 < n := by omega
  rw [htr, Job.valueAt_of_apart hpat (hplain _ hlast).1 hu fun m hm => hapart _ hlast m (by omega)]
  rfl

end Sys2Proof.Machine
end

section
/-! Rules R147 and R167 to R170: the fast path, from RAM and from cartridge ROM, against the element-wise walk. -/

namespace Sys2Proof.Machine

/-! ### What the path choice says -/

theorem pathOf_fast {s : State} {src dst : Word} {ss ds : StepDir} {n : Nat} {w : Width}
    (h : pathOf s src dst n ss ds w = .fastRam ∨ pathOf s src dst n ss ds w = .fastRom) :
    n ≠ 0 ∧ ¬ alignDown src w < 0x02000000#32 ∧ elig s (alignDown src w) (alignDown dst w) ss ds n w = true := by
  rw [pathOf] at h
  by_cases hn : n = 0
  · simp [hn] at h
  rw [if_neg hn] at h
  by_cases hs : alignDown src w < Config.openbusLimit
  · simp [hs] at h
  rw [if_neg hs] at h
  by_cases he : elig s (alignDown src w) (alignDown dst w) ss ds n w = true
  · exact ⟨hn, hs, he⟩
  · simp [he] at h

theorem pathOf_fastRom_region {s : State} {src dst : Word} {ss ds : StepDir} {n : Nat} {w : Width}
    (h : pathOf s src dst n ss ds w = .fastRom) : region (alignDown src w) = .rom := by
  obtain ⟨hn, hs, he⟩ := pathOf_fast (.inr h)
  by_contra hr
  rw [pathOf, if_neg hn, if_neg (show ¬ _ < Config.openbusLimit from hs), if_pos he, if_neg hr] at h
  cases h

/-- A run the fast path takes ascends, or is one element. -/
theorem adv_of_ascending {ds : StepDir} {n : Nat} (h : ds = .inc ∨ n = 1) (a : Word) (w : Width) {i : Nat} (hi : i < n) :
    adv a i w ds = adv a i w .inc := by
  rcases h with rfl | rfl
  · rfl
  · obtain rfl : i = 0 := by omega
    rw [adv_zero, adv_zero]

/-! ### `TR` after the walk -/

/-- A run that leaves `c` but for `TR` is a transfer that leaves `c` with the image of the last destination element loaded. -/
theorem xfer_eq_loadImage {src dst td : Word} {ss ds : StepDir} {n : Nat} {w : Width} {s c : State} {tr : Word} (hm : s.mem.wf)
    (hn : n ≠ 0) (hs : ¬ alignDown src w < 0x02000000#32)
    (hrun : moveFrom (mkJob src dst ss ds w s.tr) 0 n s = .next { c with tr := tr })
    (hp : (region (adv (alignDown dst w) (n - 1) w ds)).plain = true)
    (hlast : s.xlate (adv (alignDown dst w) (n - 1) w ds) = td + BitVec.ofNat 32 (spanOf n w)) :
    xfer src dst n ss ds w s = .next (c.loadImage td n w) := by
  have h : xfer src dst n ss ds w s = .next { c with tr := tr } := by
    rw [xfer_pos hn, hrun, andThen_next, Job.endPass, mkJob_pattern_of_read hs]
  have htr : tr = rep (State.backRead { c with tr := tr } _ w) w := xfer_tr_plain hm hn h hp
  rw [State.backRead_tr, hlast] at htr
  rw [h, htr, State.loadImage]

/-! ### From RAM -/

theorem State.backWrite_tr (s : State) (x b : Word) (w : Width) (v : Word) :
    State.backWrite { s with tr := x } b w v = { s.backWrite b w v with tr := x } := by
  cases w <;> rfl

/-- Copying units looks at memory alone. -/
theorem copyUnits_tr (w : Width) (ts td x : Word) (k : Nat) :
    ∀ i s, copyUnits w ts td i k { s with tr := x } = { copyUnits w ts td i k s with tr := x } := by
  induction k with
  | zero => exact fun _ _ => rfl
  | succ k ih =>
    intro i s
    rw [copyUnits, copyUnits, State.backRead_tr, State.backWrite_tr, ih]

/-- The walk over plain elements that lie where a linear copy puts them is that copy. -/
theorem moveFrom_eq_copyUnits {j : Job} (hpat : j.pattern = none) {ts td : Word} {k : Nat} : ∀ {i : Nat} {s : State},
    (∀ m, i ≤ m → m < i + k → (region (j.srcAt m)).plain = true ∧ s.xlate (j.srcAt m) = ts + BitVec.ofNat 32 (m * j.width.bytes)) →
    (∀ m, i ≤ m → m < i + k → (region (j.dstAt m)).plain = true ∧ s.xlate (j.dstAt m) = td + BitVec.ofNat 32 (m * j.width.bytes)) →
    ∃ tr, moveFrom j i k s = .next { copyUnits j.width ts td i k s with tr := tr } := by
  induction k with
  | zero => exact fun {_ s} _ _ => ⟨s.tr, rfl⟩
  | succ k ih =>
    intro i s hsrc hdst
    obtain ⟨hp, hx⟩ := hsrc i (by omega) (by omega)
    obtain ⟨hp', hx'⟩ := hdst i (by omega) (by omega)
    have hmove := moveOne_plain hpat hp hp' s
    obtain ⟨hframe, -⟩ := moveOne_next hmove
    obtain ⟨tr, hrest⟩ := ih (i := i + 1)
      (fun m h1 h2 => by rw [hframe.xlate]; exact hsrc m (by omega) (by omega))
      (fun m h1 h2 => by rw [hframe.xlate]; exact hdst m (by omega) (by omega))
    refine ⟨tr, ?_⟩
    rw [moveFrom_succ, hmove, andThen_next, hrest, copyUnits_tr, hx, hx']
    rfl

/-- Settles O23: unit by unit the copy and the walk move the same element; the load of `TR` reads the last one back. -/
theorem fastRamPathAgreesWithTheSafePath : Obligations.FastRamPathAgreesWithTheSafePath := by
  intro s src dst ss ds n w hm _ hpath hds hsrc hdst _
  obtain ⟨hn, hs, he⟩ := pathOf_fast (.inl hpath)
  obtain ⟨rfl, -⟩ := elig_iff.mp he
  have hdst' (m : Nat) (hm : m < n) : (region (adv (alignDown dst w) m w ds)).plain = true ∧
      s.xlate (adv (alignDown dst w) m w ds) = s.xlate (alignDown dst w) + BitVec.ofNat 32 (m * w.bytes) := by
    rw [adv_of_ascending hds _ w hm]
    exact hdst m hm
  obtain ⟨tr, hrun⟩ := moveFrom_eq_copyUnits (j := mkJob src dst .inc ds w s.tr) (mkJob_pattern_of_read hs ..) (k := n) (i := 0)
    (fun m _ h2 => hsrc m (by omega)) (fun m _ h2 => hdst' m (by omega))
  obtain ⟨hp, hlast⟩ := hdst' (n - 1) (by omega)
  exact xfer_eq_loadImage hm hn hs hrun hp hlast

end Sys2Proof.Machine
end

section
/-! Rules R68, R147 and R169: the fast path from cartridge ROM, block by block, against the element-wise walk. -/

namespace Sys2Proof.Machine

/-! ### One element from ROM -/

/-- The move of one element from ROM but for `TR`: its block is fetched, its bytes are stored at a backing address. -/
def State.copyRomElem (s : State) (a b : Word) (w : Width) : State := (s.getBlock a).backWrite b w (romValue s.rom a w)

theorem State.copyRomElem_frame (s : State) (a b : Word) (w : Width) : TransferFrame s (s.copyRomElem a b w) :=
  (TransferFrame.of_fields s s.mem s.tr _ s.devAnswers s.devReads s.trace : TransferFrame s (s.getBlock a)).trans
    (State.backWrite_frame _ b w _)

theorem State.backWrite_block (s : State) (b : Word) (w : Width) (v : Word) : (s.backWrite b w v).block = s.block := by
  obtain ⟨m, hm, -⟩ := s.backWrite_eq b w v
  rw [hm]

/-- An element of the block last fetched, stored, is a move from ROM: fetching that block again changes nothing. -/
theorem State.backWrite_blockElem {s : State} {a o : Word} (hblock : s.block = some (a &&& ~~~s.params.blockMask))
    (ho : (a &&& ~~~s.params.blockMask) + o = a) (b : Word) (w : Width) : s.backWrite b w (s.blockElem o w) = s.copyRomElem a b w := by
  have hfetch : s.getBlock a = s := by rw [State.getBlock, ← hblock]
  rw [State.copyRomElem, hfetch, State.blockElem_eq hblock, ho]

/-! ### A run of elements from ROM -/

/-- `k` elements from ROM, from element `i` of the transfer on. -/
def copyRomUnits (w : Width) (src td : Word) : Nat → Nat → State → State
  | _, 0, s => s
  | i, k + 1, s =>
    copyRomUnits w src td (i + 1) k
      (s.copyRomElem (src + BitVec.ofNat 32 (i * w.bytes)) (td + BitVec.ofNat 32 (i * w.bytes)) w)

theorem copyRomUnits_frame (w : Width) (src td : Word) (k : Nat) : ∀ i s, TransferFrame s (copyRomUnits w src td i k s) := by
  induction k with
  | zero => exact fun _ s => TransferFrame.refl s
  | succ k ih => exact fun i s => (s.copyRomElem_frame _ _ w).trans (ih (i + 1) _)

theorem copyRomUnits_add (w : Width) (src td : Word) (k l : Nat) :
    ∀ i s, copyRomUnits w src td i (k + l) s = copyRomUnits w src td (i + k) l (copyRomUnits w src td i k s) := by
  induction k with
  | zero => intro i s; rw [Nat.zero_add, Nat.add_zero, copyRomUnits]
  | succ k ih =>
    intro i s
    rw [Nat.add_right_comm, copyRomUnits, copyRomUnits, ih, show i + 1 + k = i + (k + 1) by omega]

/-- The first block fetched may have been fetched before. -/
theorem copyRomUnits_getBlock (w : Width) (src td : Word) (i k : Nat) (s : State) :
    copyRomUnits w src td i (k + 1) (s.getBlock (src + BitVec.ofNat 32 (i * w.bytes))) = copyRomUnits w src td i (k + 1) s := rfl

theorem copyRomUnits_tr (w : Width) (src td x : Word) (k : Nat) :
    ∀ i s, copyRomUnits w src td i k { s with tr := x } = { copyRomUnits w src td i k s with tr := x } := by
  induction k with
  | zero => exact fun _ _ => rfl
  | succ k ih =>
    intro i s
    have helem (a b : Word) : State.copyRomElem { s with tr := x } a b w = { s.copyRomElem a b w with tr := x } :=
      State.backWrite_tr (s.getBlock a) x b w _
    rw [copyRomUnits, copyRomUnits, helem, ih]

/-- The walk over elements of ROM to plain elements that lie where a linear copy puts them. -/
theorem moveFrom_eq_copyRomUnits {j : Job} (hpat : j.pattern = none) {src td : Word} {k : Nat} : ∀ {i : Nat} {s : State},
    (∀ m, i ≤ m → m < i + k → region (j.srcAt m) = .rom ∧ j.srcAt m = src + BitVec.ofNat 32 (m * j.width.bytes)) →
    (∀ m, i ≤ m → m < i + k → (region (j.dstAt m)).plain = true ∧ s.xlate (j.dstAt m) = td + BitVec.ofNat 32 (m * j.width.bytes)) →
    ∃ tr, moveFrom j i k s = .next { copyRomUnits j.width src td i k s with tr := tr } := by
  induction k with
  | zero => exact fun {_ s} _ _ => ⟨s.tr, rfl⟩
  | succ k ih =>
    intro i s hsrc hdst
    obtain ⟨hr, ha⟩ := hsrc i (by omega) (by omega)
    obtain ⟨hp, hx⟩ := hdst i (by omega) (by omega)
    have hread : s.memRead (j.srcAt i) j.width = (romValue s.rom (j.srcAt i) j.width, s.getBlock (j.srcAt i)) := by
      rw [← State.romElem_eq, State.memRead]
      simp [hr, Region.plain]
    have hmove : moveOne j i s =
        .next { s.copyRomElem (j.srcAt i) (s.xlate (j.dstAt i)) j.width with
          tr := rep (romValue s.rom (j.srcAt i) j.width) j.width } := by
      rw [moveOne_read hpat, hread, State.memWrite_plain hp, andThen_next]
      rfl
    obtain ⟨hframe, -⟩ := moveOne_next hmove
    obtain ⟨tr, hrest⟩ := ih (i := i + 1) (fun m h1 h2 => hsrc m (by omega) (by omega))
      (fun m h1 h2 => by rw [hframe.xlate]; exact hdst m (by omega) (by omega))
    refine ⟨tr, ?_⟩
    rw [moveFrom_succ, hmove, andThen_next, hrest, copyRomUnits_tr, hx, ha]
    rfl

/-! ### A run of the fast path -/

/-- Copying from the block last fetched is copying from ROM while the elements stay in that block. -/
theorem copyBlockUnits_eq {w : Width} {src td td' o b : Word} {q : Nat} (k : Nat) : ∀ (m : Nat) (s : State), s.block = some b →
    (∀ i, m ≤ i → i < m + k → (src + BitVec.ofNat 32 ((q + i) * w.bytes)) &&& ~~~s.params.blockMask = b ∧
      b + (o + BitVec.ofNat 32 (i * w.bytes)) = src + BitVec.ofNat 32 ((q + i) * w.bytes) ∧
      td' + BitVec.ofNat 32 (i * w.bytes) = td + BitVec.ofNat 32 ((q + i) * w.bytes)) →
    copyBlockUnits w o td' m k s = copyRomUnits w src td (q + m) k s := by
  induction k with
  | zero => exact fun _ _ _ _ => rfl
  | succ k ih =>
    intro m s hb h
    obtain ⟨hstart, hsrc, hdst⟩ := h m (by omega) (by omega)
    have helem := State.backWrite_blockElem (by rw [hstart, hb]) (by rw [hstart, hsrc])
      (td + BitVec.ofNat 32 ((q + m) * w.bytes)) w
    have hframe := State.backWrite_frame s (td + BitVec.ofNat 32 ((q + m) * w.bytes)) w
      (s.blockElem (o + BitVec.ofNat 32 (m * w.bytes)) w)
    rw [copyBlockUnits, copyRomUnits, hdst, ← helem]
    refine ih (m + 1) _ ((State.backWrite_block ..).trans hb) fun i h1 h2 => ?_
    rw [hframe.params]
    exact h i (by omega) (by omega)

/-- An address `d` bytes further in the same block. -/
theorem blockStart_add {p : Config.Params} {a : Word} {d : Nat} (hd : (a &&& p.blockMask).toNat + d < 2 ^ p.blockBits)
    (hwrap : a.toNat + d < 2 ^ 32) :
    (a + BitVec.ofNat 32 d) &&& ~~~p.blockMask = a &&& ~~~p.blockMask := by
  have hadd : (a + BitVec.ofNat 32 d).toNat = a.toNat + d := by
    rw [BitVec.toNat_add, BitVec.toNat_ofNat]
    omega
  rw [blockMask_and_toNat] at hd
  have hmod : (a.toNat + d) % 2 ^ p.blockBits = a.toNat % 2 ^ p.blockBits + d := (add_mod_eq_iff (Nat.two_pow_pos _)).mpr hd
  rw [blockStart_eq, blockStart_eq, hadd, hmod]
  congr 1
  omega

/-- One run of the fast ROM path, within a block, moves its elements (rule R169). -/
theorem copyRun_eq {w : Width} {src td : Word} {q k : Nat} {s : State} (hk : 0 < k)
    (hblock : ((src + BitVec.ofNat 32 (q * w.bytes)) &&& s.params.blockMask).toNat + k * w.bytes ≤ 2 ^ s.params.blockBits)
    (hwrap : src.toNat + (q + k) * w.bytes ≤ 2 ^ 32) :
    copyRun w td s { address := src + BitVec.ofNat 32 (q * w.bytes), offset := q * w.bytes, length := k * w.bytes } =
      copyRomUnits w src td q k s := by
  have hpos := width_bytes_pos w
  have hlen : k * w.bytes / w.bytes = k := Nat.mul_div_cancel k hpos
  obtain ⟨l, rfl⟩ : ∃ l, k = l + 1 := ⟨k - 1, by omega⟩
  rw [copyRun, hlen, ← copyRomUnits_getBlock]
  refine copyBlockUnits_eq (q := q) (l + 1) 0 _ rfl fun i _ hi => ?_
  have hoff : (q + i) * w.bytes = q * w.bytes + i * w.bytes := Nat.add_mul ..
  have hend : (q + (l + 1)) * w.bytes = q * w.bytes + (l + 1) * w.bytes := Nat.add_mul ..
  have hlt : i * w.bytes < (l + 1) * w.bytes := Nat.mul_lt_mul_of_pos_right (by omega) hpos
  have haddr : (src + BitVec.ofNat 32 (q * w.bytes)).toNat = src.toNat + q * w.bytes := by
    rw [BitVec.toNat_add, BitVec.toNat_ofNat]
    omega
  rw [hoff, BitVec.ofNat_add, ← BitVec.add_assoc, ← BitVec.add_assoc, ← BitVec.add_assoc]
  refine ⟨blockStart_add (p := s.params) (by omega) (by omega), ?_, rfl⟩
  rw [blockStart_add_offset]

/-- What is left of a block, or of the transfer, is a number of whole elements. -/
theorem dvd_runLength {b a m e : Nat} (hb : e ∣ b) (ha : e ∣ a) (hm : e ∣ m) : e ∣ min (b - a % b) m := by
  rcases min_choice (b - a % b) m with h | h
  · rw [h]
    exact Nat.dvd_sub hb ((Nat.dvd_mod_iff hb).mpr ha)
  · rw [h]
    exact hm

/-- The runs of the fast ROM path one after another move every element (rule R169). -/
theorem foldl_romRuns {w : Width} {src td : Word} {n : Nat} {p : Config.Params} (hok : p.ok = true)
    (hsrc : src.toNat % w.bytes = 0) (hwrap : src.toNat + n * w.bytes ≤ 2 ^ 32) (fuel : Nat) : ∀ (q : Nat) (s : State), s.params = p →
    n * w.bytes ≤ q * w.bytes + fuel →
    (romRuns p src (n * w.bytes) fuel (q * w.bytes)).foldl (copyRun w td) s = copyRomUnits w src td q (n - q) s := by
  have hpos := width_bytes_pos w
  induction fuel with
  | zero =>
    intro q s _ hle
    have hq : n ≤ q := Nat.le_of_mul_le_mul_right hle hpos
    rw [Nat.sub_eq_zero_of_le hq, romRuns, copyRomUnits, List.foldl_nil]
  | succ fuel ih =>
    intro q s hs hle
    by_cases hq : q < n
    · have hlt : q * w.bytes < n * w.bytes := Nat.mul_lt_mul_of_pos_right hq hpos
      have haddr : (src + BitVec.ofNat 32 (q * w.bytes)).toNat = src.toNat + q * w.bytes := by
        rw [BitVec.toNat_add, BitVec.toNat_ofNat]
        omega
      have hdvd : w.bytes ∣ (src + BitVec.ofNat 32 (q * w.bytes)).toNat := by
        rw [haddr]
        exact Nat.dvd_add (Nat.dvd_of_mod_eq_zero hsrc) (Nat.dvd_mul_left ..)
      have hblock := bytes_dvd_blockSize hok w
      have hfirst := mod_block_add_le hdvd hblock (Nat.two_pow_pos _)
      rw [← blockMask_and_toNat] at hfirst
      have hdvd' := dvd_runLength hblock hdvd (Nat.dvd_sub (Nat.dvd_mul_left w.bytes n) (Nat.dvd_mul_left w.bytes q))
      rw [← blockMask_and_toNat] at hdvd'
      obtain ⟨k, hk⟩ := hdvd'
      rw [Nat.mul_comm w.bytes k] at hk
      have hkpos : 0 < k := by
        rcases Nat.eq_zero_or_pos k with rfl | h
        · rw [Nat.zero_mul] at hk
          omega
        · exact h
      have hkle : k ≤ n - q := by
        refine Nat.le_of_mul_le_mul_right (c := w.bytes) ?_ hpos
        rw [Nat.sub_mul]
        omega
      have hqk : q * w.bytes + k * w.bytes = (q + k) * w.bytes := (Nat.add_mul ..).symm
      have hend : (q + k) * w.bytes ≤ n * w.bytes := Nat.mul_le_mul_right _ (by omega)
      rw [romRuns, if_pos hlt]
      simp only [hk, List.foldl_cons]
      rw [copyRun_eq hkpos (by rw [hs]; omega) (by omega), hqk,
        ih (q + k) _ ((copyRomUnits_frame ..).params.trans hs) (by omega), ← copyRomUnits_add]
      congr 1
      omega
    · have hle' : n * w.bytes ≤ q * w.bytes := Nat.mul_le_mul_right _ (by omega)
      rw [romRuns, if_neg (by omega), Nat.sub_eq_zero_of_le (by omega), copyRomUnits, List.foldl_nil]

/-! ### The whole transfer -/

/-- A run from ROM that ends in its own selector stays in ROM and does not wrap. -/
theorem rom_run {a : Word} {n : Nat} {w : Width} (hmax : n ≤ 0x10000) (hr : region a = .rom)
    (hsel : sel (adv a (n - 1) w .inc) = sel a) :
    a.toNat + n * w.bytes ≤ 2 ^ 32 ∧ ∀ i < n, region (adv a i w .inc) = .rom := by
  obtain ⟨hlo, hhi⟩ := region_eq_rom_iff.mp hr
  have hle := width_bytes_le_four w
  have hspan : n * w.bytes ≤ 0x10000 * 4 := Nat.mul_le_mul hmax hle
  have hlast : (n - 1) * w.bytes ≤ n * w.bytes := Nat.mul_le_mul_right _ (by omega)
  have hdiv := congrArg BitVec.toNat hsel
  rw [sel_toNat, sel_toNat, adv, BitVec.toNat_add, BitVec.toNat_ofNat] at hdiv
  refine ⟨by omega, fun i hi => ?_⟩
  have hstep : i * w.bytes ≤ (n - 1) * w.bytes := Nat.mul_le_mul_right _ (by omega)
  rw [← hr]
  refine region_congr (BitVec.eq_of_toNat_eq ?_)
  rw [sel_toNat, sel_toNat, adv, BitVec.toNat_add, BitVec.toNat_ofNat]
  omega

/-- Settles O24: the runs and the walk move the same elements from ROM; the load of `TR` reads the last one back. -/
theorem fastRomPathAgreesWithTheSafePath : Obligations.FastRomPathAgreesWithTheSafePath := by
  intro s src dst ss ds n w hok hm hmax hpath hds hdst
  obtain ⟨hn, hs, he⟩ := pathOf_fast (.inr hpath)
  obtain ⟨rfl, -, -, -, hsel, -⟩ := elig_iff.mp he
  obtain ⟨hwrap, hrom⟩ := rom_run hmax (pathOf_fastRom_region hpath) hsel
  have hdst' (m : Nat) (hm : m < n) : (region (adv (alignDown dst w) m w ds)).plain = true ∧
      s.xlate (adv (alignDown dst w) m w ds) = s.xlate (alignDown dst w) + BitVec.ofNat 32 (m * w.bytes) := by
    rw [adv_of_ascending hds _ w hm]
    exact hdst m hm
  obtain ⟨tr, hrun⟩ := moveFrom_eq_copyRomUnits (j := mkJob src dst .inc ds w s.tr) (mkJob_pattern_of_read hs ..) (k := n) (i := 0)
    (src := alignDown src w) (fun m _ h2 => ⟨hrom m (by omega), rfl⟩) (fun m _ h2 => hdst' m (by omega))
  obtain ⟨hp, hlast⟩ := hdst' (n - 1) (by omega)
  have hruns := foldl_romRuns (td := s.xlate (alignDown dst w)) hok (alignDown_mod src w) hwrap (n * w.bytes) 0 s rfl (by omega)
  rw [Nat.zero_mul, Nat.sub_zero] at hruns
  rw [xfer_eq_loadImage hm hn hs hrun hp hlast, fastRom, hruns]
  rfl

end Sys2Proof.Machine
end

section
/-! Rules R230 to R239: one triggered transfer, and the strobes that serve the channels in ascending order. -/

namespace Sys2Proof.Machine

/-! ### One triggered transfer -/

/-- What a triggered transfer that left `u` leaves before the deactivation: the request and the interrupt. -/
def State.triggerDone (s u : State) (c : Channel) (w : Width) (ss : StepDir) : State :=
  { u with
    irqPending := pendingAfter u.irqPending c (ctlIrq (s.slots c).ctrl)
    trace := completionEvents c (ctlIrq (s.slots c).ctrl) (s.triggerJob c w ss) (s.count c) ++ u.trace }

/-- A trigger whose transfer spares the control slots completes. -/
theorem periodic_completes {c : Channel} {w : Width} {ss : StepDir} {s : State} (hs : sstep (s.slots c).ctrl = some ss)
    (hspare : (s.triggerJob c w ss).sparesControl (s.count c)) :
    ∃ u, xfer (s.chan c).src (s.triggerDst c (s.slots c).ctrl) (s.count c) ss (dstep (s.slots c).ctrl) w
        (s.advanceCursors c (s.slots c).ctrl (s.count c) w ss) = .next u ∧
      periodic c w s =
        .next (if ctlRep (s.slots c).ctrl then s.triggerDone u c w ss else (s.triggerDone u c w ss).deactivate c) := by
  obtain ⟨u, hu⟩ := xfer_completes (src := (s.chan c).src) (dst := s.triggerDst c (s.slots c).ctrl) (n := s.count c) (ss := ss)
    (ds := dstep (s.slots c).ctrl) (w := w) (s := s.advanceCursors c (s.slots c).ctrl (s.count c) w ss) hspare
  refine ⟨u, hu, ?_⟩
  rw [periodic_eq hs, hu]
  rfl

/-- A deactivation drives the levels last: the event it records and the blanking level are those of the other channels. -/
theorem State.deactivate_drives (s : State) (c : Channel) :
    ∃ b a, (s.deactivate c).trace = .sharedEnables b a :: s.trace ∧ (b = true ↔ ∃ d, d ≠ c ∧ (s.chan d).hb = true) ∧
      (s.deactivate c).blankingIrqEnabled = b :=
  ⟨(s.deactivate c).anyHb, (s.deactivate c).anyAu, rfl, State.stop_anyHb (s.setCtrl c _) c, rfl⟩

/-- Settles O44: the transfer, then the completion; without repeat the deactivation follows. -/
theorem oneTriggerIsOneTransfer : Obligations.OneTriggerIsOneTransfer := by
  intro c w ss s hs hspare
  obtain ⟨u, hu, hperiodic⟩ := periodic_completes hs hspare
  obtain ⟨hxfer, -⟩ := xfer_next hu
  have hframe := periodic_frame hperiodic
  obtain ⟨ss', hss', hchan, hctrl, hpending⟩ := periodic_channel hperiodic
  obtain rfl : ss' = ss := Option.some.inj (hss'.symm.trans hs)
  have hother (d : Channel) (hd : d ≠ c) : u.chan d = s.chan d := by
    rw [hxfer.chan, State.advanceCursors, State.setCursors_chan_other _ hd]
  refine ⟨u, _, hu, hperiodic, ?_⟩
  by_cases hrep : ctlRep (s.slots c).ctrl = true
  · rw [if_pos hrep] at hframe hchan hctrl hpending ⊢
    refine ⟨rfl, rfl, hchan, hframe.chans, ?_, fun _ _ => rfl, hpending,
      fun _ => ⟨rfl, hxfer.forcedIrqMask, hxfer.blankingIrqEnabled⟩, fun h => absurd hrep (Bool.eq_false_iff.mp h),
      hframe.drainRequest, hframe.nestedIrqEnabled, hframe.window⟩
    rw [← hctrl]
    rfl
  · rw [if_neg hrep] at hframe hchan hctrl hpending ⊢
    obtain ⟨b, a, htrace, hb, hlevel⟩ := (s.triggerDone u c w ss').deactivate_drives c
    refine ⟨rfl, rfl, hchan, hframe.chans, ?_, fun d hd => State.deactivate_slots_other _ hd, hpending,
      fun h => absurd h hrep, fun _ => ⟨b, a, htrace, hb.trans ?_, hlevel⟩, hframe.drainRequest, hframe.nestedIrqEnabled,
      hframe.window⟩
    · rw [← hctrl, State.deactivate_slots_same]
      rfl
    · exact exists_congr fun d => and_congr_right fun hd => by rw [← hother d hd]; rfl

/-! ### The strobes -/

theorem execTrigHblank_of_initialised {s : State} (h : s.initialised = true) : execTrigHblank s = eachChannel hblankChannel s :=
  acceptStrobe_of_initialised h _

/-- Settles O45: the strobe is the four services in order, and each served channel is served once. -/
theorem hblankServesEveryBlankingChannelOnce : Obligations.HblankServesEveryBlankingChannelOnce := by
  intro s hi
  have hexec : exec .trigHblank s = eachChannel hblankChannel s := execTrigHblank_of_initialised hi
  refine ⟨hexec, hblankChannel_eq, fun hcan => ?_⟩
  obtain ⟨t1, t2, t3, t, h1, h2, h3, h4, hall, hserved⟩ := eachChannel_completes serves_hblank hcan
  exact ⟨t1, t2, t3, t, h1, h2, h3, h4, hexec.trans hall, hserved.result, hserved.drainRequest, hserved.drainView, hserved.levels,
    hserved.idle⟩

/-- What an audio strobe that is accepted does, by the channels armed and the flag. -/
theorem execTrigAudio_of_initialised {s : State} (h : s.initialised = true) :
    execTrigAudio s =
      if s.anyAudioArmed then
        if s.drainRequest then eachChannel audioChannel s.acquireDrain.clearDrain else .next s.acquireDrain
      else .next s :=
  acceptStrobe_of_initialised h _

/-- The result of a strobe does not look at the drain flag and the trace of the state the services began in. -/
theorem StrobeResult.of_clearDrain {serves : Handler → Option Width} {s t : State}
    (h : StrobeResult serves s.acquireDrain.clearDrain t) : StrobeResult serves s t :=
  ⟨h.served, h.others, h.pending, h.bytes, h.params, h.initialised, h.rom, h.dispMode, h.nestedIrqEnabled, h.window, h.script⟩

/-- Settles O46: by the channels armed, then by the flag; with a request the services follow the clear. -/
theorem audioServesEveryAudioChannelOnARequest : Obligations.AudioServesEveryAudioChannelOnARequest := by
  intro s hi
  have hexec : exec .trigAudio s = _ := execTrigAudio_of_initialised hi
  rw [hexec]
  refine ⟨fun hnone => ?_, fun harmed hd => ?_, audioChannel_eq, fun harmed hd => ?_⟩
  · exact if_neg fun h => (s.anyAudioArmed_iff.mp h).elim hnone
  · rw [if_pos (s.anyAudioArmed_iff.mpr harmed), if_neg (Bool.eq_false_iff.mp hd), ← hd]
    rfl
  · rw [if_pos (s.anyAudioArmed_iff.mpr harmed), if_pos hd]
    refine ⟨rfl, fun hcan => ?_⟩
    obtain ⟨t1, t2, t3, t, h1, h2, h3, h4, hall, hserved⟩ :=
      eachChannel_completes serves_audio (s := s.acquireDrain.clearDrain) hcan
    exact ⟨t1, t2, t3, t, h1, h2, h3, h4, hall, hserved.result.of_clearDrain, hserved.drainRequest, hserved.drainView,
      fun hp hl => hserved.levels hp ⟨hl.forcedBlank, hl.display, hl.forcedAudio⟩⟩

end Sys2Proof.Machine
end

section
/-! Rules R21 to R23, R253, R254, R260 and R263: which operations set a pending bit, write a cursor, or clear the drain request. -/

namespace Sys2Proof.Machine

/-! ### What each operation leaves -/

/-- The state an h-blank start of channel `c` from an allowed source leaves (rule R201). -/
def State.hblankArmed (s : State) (c : Channel) (v : Half) : State :=
  State.updateSharedEnables { s.setCtrl c v with chans := s.chans.set c {
    src := (s.slots c).sad, dst := (s.slots c).dad, hb := true, au := (s.chan c).au
    handler := if ctlWidth v then .blankingTrigger32 else .blankingTrigger16 } }

/-- The state an audio start of channel `c` from an allowed source leaves (rule R202). -/
def State.audioArmed (s : State) (c : Channel) (v : Half) : State :=
  State.updateSharedEnables { s.setCtrl c v with
    chans := s.chans.set c {
      src := (s.slots c).sad, dst := (s.slots c).dad, hb := (s.chan c).hb, au := true, handler := .audioTrigger }
    drainRequest := false, drainView := false, trace := .releaseDrain :: s.trace }

/-- What an operation can leave, one form for each way an operation ends. -/
inductive Leaves (s : State) : Instr → State → Prop
  /-- A strobe that serves no channel. -/
  | unchanged (i : Instr) : Leaves s i s
  /-- An update, an ignored start, or an arming start dropped for its source. -/
  | control (i : Instr) (c : Channel) (v : Half) : Leaves s i (s.setCtrl c v)
  | stopped (c : Channel) (v : Half) : Leaves s (.ctrlStop c v) ((s.setCtrl c v).stop c)
  /-- An immediate start of channel 0, 1 or 2. -/
  | transferred (c : Channel) (v : Half) (ss : StepDir) (u : State) (hu : TransferFrame (s.immStarted c v ss) u) :
      Leaves s (.startImm c v) (u.completeImm c v (s.slots c).dad (s.count c) (dstep v) (wbits v))
  /-- An immediate start of channel 3 whose nesting window stays open. -/
  | opened (v : Half) (ss : StepDir) (t : Window) : Leaves s (.startImm 3 v) ((s.immStarted 3 v ss).openWindow t)
  /-- An immediate start of channel 3 whose nesting window closes at once. -/
  | bracketed (v : Half) (ss : StepDir) (t : Window) (r : State) (hv : t.control = v)
      (h : finishWindow t ((s.immStarted 3 v ss).openWindow t) = .next r) : Leaves s (.startImm 3 v) r
  | hblankArmed (c : Channel) (v : Half) : Leaves s (.startHbl c v) (s.hblankArmed c v)
  | audioArmed (i : Instr) (c : Channel) (v : Half) (hi : c = 1 ∧ i = .startAud1 v ∨ c = 2 ∧ i = .startAud2 v)
      (hd : disallowed s.params (s.slots c).sad = false) : Leaves s i (s.audioArmed c v)
  | initialised : Leaves s .init (State.updateSharedEnables { s with initialised := true, chans := Quad.all Chan.reset })
  | hblank (t : State) (h : eachChannel hblankChannel s = .next t) : Leaves s .trigHblank t
  /-- An audio strobe that finds no request. -/
  | acquired : Leaves s .trigAudio s.acquireDrain
  | audio (t : State) (ha : ∃ c, (s.chan c).handler = .audioTrigger)
      (h : eachChannel audioChannel s.acquireDrain.clearDrain = .next t) : Leaves s .trigAudio t

theorem storeControl_leaves {i : Instr} {c : Channel} {v : Half} {s t : State} (h : storeControl c v s = .next t) :
    Leaves s i t := by
  obtain ⟨-, rfl⟩ := storeControl_eq_next h
  exact .control i c v

theorem audioStart_leaves {i : Instr} {c : Channel} {v : Half} {s t : State}
    (hi : c = 1 ∧ i = .startAud1 v ∨ c = 2 ∧ i = .startAud2 v) (h : audioStart c v s = .next t) : Leaves s i t := by
  obtain ⟨ha, -⟩ := acceptCmd_eq_next h
  rw [audioStart_eq ha] at h
  split at h
  · cases h
    exact .control i c v
  · rename_i hd
    cases h
    exact .audioArmed i c v hi (Bool.eq_false_iff.mpr hd)

theorem execStartHbl_leaves {c : Channel} {v : Half} {s t : State} (h : execStartHbl c v s = .next t) :
    Leaves s (.startHbl c v) t := by
  obtain ⟨ha, -⟩ := acceptCmd_eq_next h
  rw [execStartHbl_eq ha] at h
  split at h
  · cases h
    exact .control _ c v
  · cases h
    exact .hblankArmed c v

theorem execStartImm_leaves {c : Channel} {v : Half} {s t : State} (h : execStartImm c v s = .next t) :
    Leaves s (.startImm c v) t := by
  obtain ⟨-, ss, -, ⟨-, u, hu, rfl⟩ | ⟨rfl, w, hw, rfl | hf⟩⟩ := execStartImm_eq_next h
  · obtain ⟨hframe, -⟩ := xfer_next hu
    exact .transferred c v ss u hframe
  · exact .opened v ss w
  · exact .bracketed v ss w t (by rw [hw]; rfl) hf

/-- An operation that answers a next state leaves one of the forms. -/
theorem exec_leaves {i : Instr} {s t : State} (h : exec i s = .next t) : Leaves s i t := by
  cases i with
  | ctrlUpd0 c v => exact storeControl_leaves h
  | ctrlUpd1 c v => exact storeControl_leaves h
  | ctrlStop c v =>
    obtain ⟨-, rfl⟩ := execCtrlStop_eq_next h
    exact .stopped c v
  | startXreq c v => exact storeControl_leaves h
  | startImm c v => exact execStartImm_leaves h
  | startVbl c v => exact storeControl_leaves h
  | startHbl c v => exact execStartHbl_leaves h
  | startSpc0 v => exact storeControl_leaves h
  | startAud1 v => exact audioStart_leaves (.inl ⟨rfl, rfl⟩) h
  | startAud2 v => exact audioStart_leaves (.inr ⟨rfl, rfl⟩) h
  | startSpc3 v => exact storeControl_leaves h
  | init =>
    obtain ⟨-, rfl⟩ := execInit_eq_next h
    exact .initialised
  | trigVblank =>
    obtain ⟨-, h⟩ := acceptStrobe_eq_next h
    cases h
    exact .unchanged _
  | trigHblank => exact .hblank t (execTrigHblank_eq_next h).2
  | trigAudio =>
    obtain ⟨-, ⟨-, rfl⟩ | ⟨-, -, rfl⟩ | ⟨ha, -, h⟩⟩ := execTrigAudio_eq_next h
    · exact .unchanged _
    · exact .acquired
    · exact .audio t (s.anyAudioArmed_iff.mp ha) h

/-- A record stored for one channel leaves the others. -/
theorem State.chan_of_set_other {s t : State} {c d : Channel} {x : Chan} (h : t.chans = s.chans.set c x) (hd : d ≠ c) :
    t.chan d = s.chan d := by
  rw [State.chan, State.chan, h, Quad.get_set_other _ hd]

/-! ### The completion of an immediate start -/

section
variable (u : State) (c : Channel) (v : Half) (dst : Word) (n : Nat) (ds : StepDir) (w : Width)

theorem State.completeImm_irqPending : (u.completeImm c v dst n ds w).irqPending = pendingAfter u.irqPending c (ctlIrq v) := by
  rw [State.completeImm_eq u c v dst dst 0#32 n .inc ds w]

theorem State.completeImm_drainRequest : (u.completeImm c v dst n ds w).drainRequest = u.drainRequest := by
  rw [State.completeImm_eq u c v dst dst 0#32 n .inc ds w]

theorem State.completeImm_chan_other {d : Channel} (hd : d ≠ c) : (u.completeImm c v dst n ds w).chan d = u.chan d := by
  rw [State.completeImm_eq u c v dst dst 0#32 n .inc ds w]
  exact State.chan_of_set_other rfl hd

end

theorem finishWindow_drainRequest {t : Window} {s r : State} (h : finishWindow t s = .next r) : r.drainRequest = s.drainRequest := by
  rw [finishWindow_eq] at h
  obtain ⟨u, hu, hr⟩ := andThen_eq_next.1 h
  cases hr
  obtain ⟨hframe, -⟩ := moveFrom_next hu
  exact (State.completeImm_drainRequest ..).trans hframe.drainRequest

/-! ### Pending bits -/

/-- From the pending bits an operation leaves: it clears none, and the bits it sets are those of the channels it raises. -/
theorem pending_of_iff {m m' : BitVec 16} {Q R : Channel → Prop}
    (h : ∀ b, m'.getLsbD b = true ↔ (m.getLsbD b = true ∨ ∃ c : Channel, b = 8 + c.val ∧ Q c)) (hQ : ∀ c, Q c → R c) :
    (∀ b, m.getLsbD b = true → m'.getLsbD b = true) ∧
      (∀ b, m'.getLsbD b = true → m.getLsbD b = false → ∃ c : Channel, b = 8 + c.val ∧ R c) := by
  refine ⟨fun b hb => (h b).mpr (.inl hb), fun b hb hnew => ?_⟩
  rcases (h b).mp hb with hold | ⟨c, hc, hq⟩
  · rw [hold] at hnew
    cases hnew
  · exact ⟨c, hc, hQ c hq⟩

theorem pending_of_eq {m m' : BitVec 16} {R : Channel → Prop} (h : m' = m) :
    (∀ b, m.getLsbD b = true → m'.getLsbD b = true) ∧
      (∀ b, m'.getLsbD b = true → m.getLsbD b = false → ∃ c : Channel, b = 8 + c.val ∧ R c) :=
  pending_of_iff (Q := fun _ => False) (fun b => by simp [h]) (fun _ hq => hq.elim)

theorem pending_of_after {m m' : BitVec 16} {c : Channel} {irq : Bool} {R : Channel → Prop} (h : m' = pendingAfter m c irq)
    (hR : irq = true → R c) :
    (∀ b, m.getLsbD b = true → m'.getLsbD b = true) ∧
      (∀ b, m'.getLsbD b = true → m.getLsbD b = false → ∃ c : Channel, b = 8 + c.val ∧ R c) := by
  refine pending_of_iff (Q := fun d => d = c ∧ irq = true) (fun b => ?_) (fun d hd => by rw [hd.1]; exact hR hd.2)
  rw [h, pendingAfter_getLsbD]
  exact or_congr_right ⟨fun ⟨hb, hirq⟩ => ⟨c, hb, rfl, hirq⟩, fun ⟨_, hb, hd, hirq⟩ => ⟨hd ▸ hb, hirq⟩⟩

/-- Settles O48: a completed immediate transfer raises its own bit, a strobe those of the channels it serves, nothing else any. -/
theorem onlyCompletedTransfersRaiseInterrupts : Obligations.OnlyCompletedTransfersRaiseInterrupts := by
  intro i s t h
  cases exec_leaves h with
  | unchanged => exact pending_of_eq rfl
  | control => exact pending_of_eq rfl
  | stopped => exact pending_of_eq rfl
  | transferred c v ss u hu =>
    refine pending_of_after (c := c) (irq := ctlIrq v) ?_ fun hirq => .inl ⟨v, rfl, hirq⟩
    rw [State.completeImm_irqPending, hu.irqPending]
    rfl
  | opened => exact pending_of_eq rfl
  | bracketed v ss w r hv hf =>
    refine pending_of_after (c := 3) (irq := ctlIrq v) ?_ fun hirq => .inl ⟨v, rfl, hirq⟩
    rw [finishWindow_irqPending hf, hv]
    rfl
  | hblankArmed => exact pending_of_eq rfl
  | audioArmed => exact pending_of_eq rfl
  | initialised => exact pending_of_eq rfl
  | hblank t hall => exact pending_of_iff (eachChannel_irqPending serves_hblank hall) fun c hc => .inr (.inl ⟨rfl, hc⟩)
  | acquired => exact pending_of_eq rfl
  | audio t _ hall => exact pending_of_iff (eachChannel_irqPending serves_audio (s := s.acquireDrain.clearDrain) hall) fun c hc => .inr (.inr ⟨rfl, hc⟩)

/-! ### Cursors -/

/-- A record that did not change moved no cursor. -/
theorem not_moved {x y : Chan} (h : x = y) : ¬ (x.src ≠ y.src ∨ x.dst ≠ y.dst) := by
  rw [h]
  rintro (h | h) <;> exact h rfl

/-- A strobe moves the cursors of no channel it does not serve. -/
theorem served_of_moved {serves : Handler → Option Width} {f : Channel → State → Answer} (hf : Serves serves f) {s t : State}
    (h : eachChannel f s = .next t) {c : Channel}
    (hmove : (t.chan c).src ≠ (s.chan c).src ∨ (t.chan c).dst ≠ (s.chan c).dst) : (serves (s.chan c).handler).isSome = true := by
  by_contra hn
  exact not_moved (eachChannel_chan_unserved hf h c (by simpa using hn)) hmove

/-- What an immediate start of another channel leaves of a channel. -/
theorem State.immStarted_chan_other (s : State) {c d : Channel} (hd : d ≠ c) (v : Half) (ss : StepDir) :
    (s.immStarted c v ss).chan d = s.chan d := State.chan_of_set_other rfl hd

/-- The cursors of a channel are written by its starts, by a strobe that serves it, and by `INIT`. -/
theorem exec_cursors {i : Instr} {s t : State} {c : Channel} (h : exec i s = .next t)
    (hmove : (t.chan c).src ≠ (s.chan c).src ∨ (t.chan c).dst ≠ (s.chan c).dst) :
    (∃ v, i = .startImm c v) ∨ (∃ v, i = .startHbl c v) ∨ (c = 1 ∧ ∃ v, i = .startAud1 v) ∨ (c = 2 ∧ ∃ v, i = .startAud2 v) ∨
      i = .init ∨ (i = .trigHblank ∧ (hblankServes (s.chan c).handler).isSome = true) ∨
      (i = .trigAudio ∧ (audioServes (s.chan c).handler).isSome = true) := by
  cases exec_leaves h with
  | unchanged => exact absurd hmove (not_moved rfl)
  | control => exact absurd hmove (not_moved rfl)
  | stopped d v =>
    by_cases hd : c = d
    · subst hd
      rw [State.stop_chan_same] at hmove
      rcases hmove with hmove | hmove <;> exact absurd rfl hmove
    · exact absurd hmove (not_moved ((State.stop_chan_other _ hd).trans rfl))
  | transferred d v ss u hu =>
    by_cases hd : c = d
    · exact .inl ⟨v, by rw [hd]⟩
    · refine absurd hmove (not_moved ?_)
      rw [State.completeImm_chan_other _ _ _ _ _ _ _ hd, hu.chan, State.immStarted_chan_other _ hd]
  | opened v ss w =>
    by_cases hd : c = 3
    · exact .inl ⟨v, by rw [hd]⟩
    · exact absurd hmove (not_moved (s.immStarted_chan_other hd v ss))
  | bracketed v ss w r hv hf =>
    by_cases hd : c = 3
    · exact .inl ⟨v, by rw [hd]⟩
    · exact absurd hmove (not_moved ((finishWindow_chan_other hf c hd).trans (s.immStarted_chan_other hd v ss)))
  | hblankArmed d v =>
    by_cases hd : c = d
    · exact .inr (.inl ⟨v, by rw [hd]⟩)
    · exact absurd hmove (not_moved (State.chan_of_set_other rfl hd))
  | audioArmed _ d v hi =>
    by_cases hd : c = d
    · subst hd
      rcases hi with ⟨hc, rfl⟩ | ⟨hc, rfl⟩
      · exact .inr (.inr (.inl ⟨hc, v, rfl⟩))
      · exact .inr (.inr (.inr (.inl ⟨hc, v, rfl⟩)))
    · exact absurd hmove (not_moved (State.chan_of_set_other rfl hd))
  | initialised => exact .inr (.inr (.inr (.inr (.inl rfl))))
  | hblank t hall => exact .inr (.inr (.inr (.inr (.inr (.inl ⟨rfl, served_of_moved serves_hblank hall hmove⟩)))))
  | acquired => exact absurd hmove (not_moved rfl)
  | audio t _ hall =>
    exact .inr (.inr (.inr (.inr (.inr (.inr ⟨rfl, served_of_moved serves_audio (s := s.acquireDrain.clearDrain) hall hmove⟩)))))

/-- A `CMD` that leaves the enable bit is an update. -/
theorem serveCmd_same_enable {ra : Word} {v : Half} {c : Channel} {s : State} (hra : decodeRa ra = .ok c)
    (hen : ctlEn v = ctlEn (s.slots c).ctrl) : serveCmd ra v s = storeControl c v s := by
  have hold : s.eOld c = ctlEn v := hen.symm
  rw [serveCmd, hra]
  simp only [hold, decodeDw_decodeWord]
  cases ctlEn v <;> rfl

/-- Settles O49: the operations by what they leave; an update and the store of a slot keep every record. -/
theorem onlyStartsAndTriggersMoveTheCursors : Obligations.OnlyStartsAndTriggersMoveTheCursors := by
  refine ⟨fun i s t c => exec_cursors, fun ra v c s t hra hen h => ?_, fun c a n s t h => ?_⟩
  · rw [serveCmd_same_enable hra hen] at h
    obtain ⟨-, rfl⟩ := storeControl_eq_next h
    rfl
  · rcases h with h | h | h <;> (rw [serve] at h; rw [hostStore_eq_next h]; rfl)

/-! ### The drain request -/

theorem eachChannel_drainRequest {serves : Handler → Option Width} {f : Channel → State → Answer} (hf : Serves serves f) {s t : State}
    (h : eachChannel f s = .next t) : t.drainRequest = s.drainRequest :=
  eachChannel_induction (P := fun r t => t.drainRequest = r.drainRequest) (fun _ => rfl)
    (fun _ _ _ _ h k => ((hf.frame k).drainRequest).trans h) h

/-- An operation keeps the request, or is one of the two that clear it (rules R260, R263). -/
theorem exec_drainRequest {i : Instr} {s t : State} (h : exec i s = .next t) :
    t.drainRequest = s.drainRequest ∨ t.drainRequest = false ∧
      ((i = .trigAudio ∧ ∃ c, (s.chan c).handler = .audioTrigger) ∨
        (∃ v, i = .startAud1 v ∧ disallowed s.params (s.slots 1).sad = false) ∨
        (∃ v, i = .startAud2 v ∧ disallowed s.params (s.slots 2).sad = false)) := by
  cases exec_leaves h with
  | unchanged => exact .inl rfl
  | control => exact .inl rfl
  | stopped => exact .inl rfl
  | transferred c v ss u hu => exact .inl ((State.completeImm_drainRequest ..).trans hu.drainRequest)
  | opened => exact .inl rfl
  | bracketed v ss w r hv hf => exact .inl ((finishWindow_drainRequest hf).trans rfl)
  | hblankArmed => exact .inl rfl
  | audioArmed _ c v hi hd =>
    rcases hi with ⟨rfl, rfl⟩ | ⟨rfl, rfl⟩
    · exact .inr ⟨rfl, .inr (.inl ⟨v, rfl, hd⟩)⟩
    · exact .inr ⟨rfl, .inr (.inr ⟨v, rfl, hd⟩)⟩
  | initialised => exact .inl rfl
  | hblank t hall => exact .inl (eachChannel_drainRequest serves_hblank hall)
  | acquired => exact .inl rfl
  | audio t ha hall => exact .inr ⟨(eachChannel_drainRequest serves_audio hall).trans rfl, .inl ⟨rfl, ha⟩⟩

/-- Settles O50: an operation keeps the request or clears it in one of the two places. -/
theorem theDrainRequestIsClearedInTwoPlaces : Obligations.TheDrainRequestIsClearedInTwoPlaces := by
  refine ⟨fun i s t h => ?_, fun s => rfl⟩
  rcases exec_drainRequest h with hkeep | ⟨hclear, hplace⟩
  · rw [hkeep]
    refine ⟨id, fun hset hclear => ?_⟩
    rw [hset] at hclear
    cases hclear
  · exact ⟨fun _ => hclear, fun _ _ => hplace⟩

end Sys2Proof.Machine
end
